-- ==== Sys2Proof/Word.lean ====
section
/-! DEFINITION. The Word of the machine (spec/00_scope.md R7, R8). -/

namespace Sys2Proof

/-- A Word of `WORD_BITS = w` bits in two's complement (00_scope R6, R8). `+` and `-` on it are the wrapping `+w` and
`-w` of R8, and `BitVec.slt` is its `<s`. -/
abbrev Word (w : Nat) := BitVec w

/-- One byte cell of the memory's representation (20_memory R39; log 4). -/
abbrev Byte := BitVec 8

end Sys2Proof
end

