-- ==== Sys2Proof/Config.lean ====
section
/-! DEFINITION. The implementation parameters that spec/00_scope.md R6 gives the model, with their defaults, and the free
values that the spec leaves unspecified at an instruction boundary (spec/10_state.md R36). -/

namespace Sys2Proof

/-- `OPCODE_MAP`: the Word of each of the 22 mnemonics (00_scope R6; 30_encoding R59; 92_eei_decisions D2). -/
structure OpcodeMap (w : Nat) where
  addRegReg : Word w
  addMemReg : Word w
  addRegMem : Word w
  addImmReg : Word w
  subRegReg : Word w
  subMemReg : Word w
  subRegMem : Word w
  subImmReg : Word w
  moveRegReg : Word w
  moveMemReg : Word w
  moveRegMem : Word w
  moveImmReg : Word w
  inc : Word w
  jmp : Word w
  jz : Word w
  jn : Word w
  jeq : Word w
  jneq : Word w
  jgt : Word w
  jlw : Word w
  call : Word w
  ret : Word w
  deriving DecidableEq, Repr

/-- The Words of the map, in the order of 00_scope R2. -/
def OpcodeMap.words {w : Nat} (m : OpcodeMap w) : List (Word w) :=
  [m.addRegReg, m.addMemReg, m.addRegMem, m.addImmReg, m.subRegReg, m.subMemReg, m.subRegMem, m.subImmReg,
    m.moveRegReg, m.moveMemReg, m.moveRegMem, m.moveImmReg, m.inc, m.jmp, m.jz, m.jn, m.jeq, m.jneq, m.jgt, m.jlw,
    m.call, m.ret]

/-- The default map, 1 to 22 in the order of 00_scope R2 (30_encoding R59). -/
def OpcodeMap.default (w : Nat) : OpcodeMap w where
  addRegReg := 1
  addMemReg := 2
  addRegMem := 3
  addImmReg := 4
  subRegReg := 5
  subMemReg := 6
  subRegMem := 7
  subImmReg := 8
  moveRegReg := 9
  moveMemReg := 10
  moveRegMem := 11
  moveImmReg := 12
  inc := 13
  jmp := 14
  jz := 15
  jn := 16
  jeq := 17
  jneq := 18
  jgt := 19
  jlw := 20
  call := 21
  ret := 22

/-- The three bus segments (40_datapath R68). -/
inductive Bus where
  | ext | int1 | int2
  deriving DecidableEq, Repr

/-- `WIRING`: the segment of each internal port that the source does not fix (40_datapath R68). PC's is intbus2 and IR has
no internal port. -/
structure Wiring where
  rpg0 : Bus
  rpg1 : Bus
  rpg2 : Bus
  rpg3 : Bus
  flags : Bus
  stackBottom : Bus
  stackTop : Bus
  deriving DecidableEq, Repr

/-- Every such port on intbus2, beside PC's. DESIGN CHOICE, safe (log 9): the spec gives no default. -/
def Wiring.default : Wiring where
  rpg0 := .int2
  rpg1 := .int2
  rpg2 := .int2
  rpg3 := .int2
  flags := .int2
  stackBottom := .int2
  stackTop := .int2

/-- The parameters of 00_scope R6 that the spec leaves open (92_eei_decisions D1, D2, D7, D22, D32, D36), with R6's
constraints. `STACK_INIT` and `IMAGE` are arguments of the reset and the loader (70_reset_and_hazards R148, R149). -/
structure Params where
  /-- `WORD_BITS`: the width of a Word. -/
  wordBits : Nat
  /-- `MEMORY_SIZE`: words of memory. -/
  memorySize : Nat
  /-- `OPCODE_MAP`. -/
  opcodeMap : OpcodeMap wordBits
  /-- `STACK_LOW`: the lowest address a push may write. -/
  stackLow : Word wordBits
  /-- `IMAGE_SENTINEL`: the value that ends an image's list of pairs. -/
  imageSentinel : Word wordBits
  /-- `WIRING`. -/
  wiring : Wiring
  wordBits_ge : 32 ≤ wordBits
  memorySize_pos : 1 ≤ memorySize
  memorySize_lt : memorySize < 2 ^ (wordBits - 1)
  opcodeMap_injective : opcodeMap.words.Nodup
  stackLow_nonneg : 0 ≤ stackLow.toInt
  deriving DecidableEq, Repr

/-- The parameters at the defaults of 00_scope R6. -/
def Params.default : Params where
  wordBits := 32
  memorySize := 128
  opcodeMap := OpcodeMap.default 32
  stackLow := 0
  imageSentinel := -1
  wiring := Wiring.default
  wordBits_ge := by decide
  memorySize_pos := by decide
  memorySize_lt := by decide
  opcodeMap_injective := by decide
  stackLow_nonneg := by decide

/-- The Word under given parameters. -/
abbrev Params.Word (p : Params) : Type := BitVec p.wordBits

/-- `NUM_REGS`: registers in the register file, fixed by the source's list (00_scope R6, 10_state R17). -/
def Config.numRegs : Nat := 9

/-- `STACK_INIT` of `State.reset`. DESIGN CHOICE, unsafe (log 2): the program image gives this value (R149), and
no image is loaded in `State.reset`; 120 is the value the spec's programs of 95_test_vectors use. -/
def Config.stackInit : Params.default.Word := BitVec.ofNat 32 120

/-- The seven components whose contents at an instruction boundary the spec leaves unspecified
(10_state R36): the three buses, the two ALU slots, the selector and the memory interface's latched address. -/
inductive Config.Transient where
  | extbus | intbus1 | intbus2 | aluSlot0 | aluSlot1 | selector | latchedAddress
  deriving DecidableEq, Repr

/-- The free value that a component of the datapath, `w` bits wide, holds at the `n`-th instruction boundary (10_state R36;
70_reset_and_hazards R157; log 5). Opaque: no proof can know it. -/
opaque Config.boundaryWord (w n : Nat) (c : Config.Transient) : Word w

end Sys2Proof
end

