-- ==== Sys2Proof/Machine/State.lean ====
section
/-! DEFINITION. The machine's state, as plain data (spec/10_state.md), the error kinds (spec/60_exceptions.md R132), and the
state after reset (spec/10_state.md R37). -/

namespace Sys2Proof.Machine

/-- The nine registers of the register file, in the order of their indices (10_state R17). -/
inductive RegName where
  | rpg0 | rpg1 | rpg2 | rpg3 | pc | ir | flags | stackBottom | stackTop
  deriving DecidableEq, Repr

/-- The register file: nine Words (10_state R17, R18). -/
structure RegFile (w : Nat) where
  /-- index 0 (R19) -/
  rpg0 : Word w
  /-- index 1 -/
  rpg1 : Word w
  /-- index 2 -/
  rpg2 : Word w
  /-- index 3 -/
  rpg3 : Word w
  /-- index 4, the program counter (R20) -/
  pc : Word w
  /-- index 5, the instruction register (R22) -/
  ir : Word w
  /-- index 6, the condition flags: bit 0 is Z, bit 1 is N (R23) -/
  flags : Word w
  /-- index 7, the stack's base address (R25) -/
  stackBottom : Word w
  /-- index 8, the address of the next free stack cell (R26) -/
  stackTop : Word w
  deriving DecidableEq, Repr

/-- Memory: byte cells, `wordBytes` to a word, least significant first (20_memory R39; log 4), addresses strictly rising and
no cell equal to zero, which is what an unlisted cell reads as (10_state R37). -/
abbrev Memory := List Host.Cell

/-- The phase of the memory interface (10_state R33, 40_datapath R80). -/
inductive MemPhase where
  | awaitingAddress | awaitingData
  deriving DecidableEq, Repr

/-- The datapath's own storage: the three buses (10_state R30), the two ALU operand slots (R31), the register selector
(R32), and the memory interface's phase and latched address (R33). -/
structure Datapath (w : Nat) where
  extbus : Word w
  intbus1 : Word w
  intbus2 : Word w
  aluSlot0 : Word w
  aluSlot1 : Word w
  selector : Word w
  memPhase : MemPhase
  latchedAddress : Word w
  deriving DecidableEq, Repr

/-- The error kinds (60_exceptions R132). -/
inductive ErrorKind where
  /-- DECODE found an opcode word outside `OPCODE_MAP`; a halt, not a fault. -/
  | unknownOpcode
  /-- A memory access at an address outside `[0, MEMORY_SIZE)`. -/
  | outOfBoundsAddress
  /-- A push with StackTop below `STACK_LOW`. -/
  | stackOverflow
  /-- A pop from an empty stack. -/
  | stackUnderflow
  /-- A register-index operand outside `[0, NUM_REGS)`. -/
  | invalidRegisterIndex
  /-- A read of the memory interface while it awaits data. -/
  | memoryProtocolError
  /-- The loader found an image it cannot load; before the run. -/
  | malformedProgramImage
  deriving DecidableEq, Repr

/-- The fault record `(kind, value, a)` (10_state R34, 60_exceptions R133): the error kind, the offending value, and
the address of the opcode word of the instruction that raised it. -/
structure FaultRecord (w : Nat) where
  kind : ErrorKind
  value : Word w
  addr : Word w
  deriving DecidableEq, Repr

/-- The control state (10_state R29), with the fault record that FAULT, and no other state, holds (R34, R35). -/
inductive ControlState (w : Nat) where
  | fetch
  | decode
  | execute
  | halt
  | fault (record : FaultRecord w)
  deriving DecidableEq, Repr

/-- The state of the machine under given parameters: the architectural part (10_state R35), the datapath (R36), and the
model's own counter of instruction boundaries, which selects the free values of `Config.boundaryWord` (log 5). -/
structure CoreState (p : Params) where
  regs : RegFile p.wordBits
  mem : Memory
  ctrl : ControlState p.wordBits
  dp : Datapath p.wordBits
  boundaries : Nat
  deriving DecidableEq, Repr

/-- A machine: the parameters it is built with (00_scope R6) and its state. No operation changes the parameters. -/
structure State where
  params : Params
  core : CoreState params
  deriving DecidableEq, Repr

/-- Why `step` answers no next state. Both say that the run has ended: HALT and FAULT are terminal and the machine takes
no further step (41_control_unit R87, 60_exceptions R134). No meaning of an instruction answers either (log 6). -/
inductive Fault where
  /-- Raised by `step` alone, in HALT. Safe: the spec's machine takes no step there. -/
  | halted
  /-- Raised by `step` alone, in FAULT, with the fault record that state holds, its two Words as signed integers. Safe: the
  spec's machine takes no step there. -/
  | faulted (kind : ErrorKind) (value addr : Int)
  deriving DecidableEq, Repr

/-- Why an instruction has no meaning. -/
inductive Refusal where
  /-- The instruction is not modelled; only an arm of `exec` raises it, and no arm of this model does. Safe. -/
  | notModelled (mnemonic : String)
  deriving DecidableEq, Repr

/-- Every field at its value at the start of a run with an empty image and the given `STACK_INIT`
(10_state R37, 70_reset_and_hazards R147, R149). -/
def CoreState.resetWith {p : Params} (stackInit : p.Word) : CoreState p where
  regs :=
    { rpg0 := 0, rpg1 := 0, rpg2 := 0, rpg3 := 0, pc := 0, ir := 0, flags := 0,
      stackBottom := stackInit, stackTop := stackInit }
  mem := []
  ctrl := .fetch
  dp :=
    { extbus := 0, intbus1 := 0, intbus2 := 0, aluSlot0 := 0, aluSlot1 := 0, selector := 0,
      memPhase := .awaitingAddress, latchedAddress := 0 }
  boundaries := 0

/-- The machine with parameters `p` after reset, no image loaded. -/
def State.resetWith (p : Params) (stackInit : p.Word) : State := ⟨p, CoreState.resetWith stackInit⟩

/-- The machine right after reset, at the default parameters (00_scope R6; log 1), no image loaded (10_state R37;
`STACK_INIT`: log 2). -/
def State.reset : State := State.resetWith Params.default Config.stackInit

end Sys2Proof.Machine
end

