-- ==== Sys2Proof/Machine/Registers.lean ====
section
/-! DEFINITION. The register file's indices and its one read and one write (spec/10_state.md R17, R18). -/

namespace Sys2Proof.Machine

/-- The index that names a register in an operand word (10_state R17). -/
def RegName.index {w : Nat} : RegName → Word w
  | .rpg0 => 0 | .rpg1 => 1 | .rpg2 => 2 | .rpg3 => 3
  | .pc => 4 | .ir => 5 | .flags => 6 | .stackBottom => 7 | .stackTop => 8

/-- The register a word names as an index; none outside `[0, NUM_REGS)` (10_state R17, 41_control_unit R95). -/
def RegName.ofIndex {w : Nat} (x : Word w) : Option RegName :=
  match x.toNat with
  | 0 => some .rpg0
  | 1 => some .rpg1
  | 2 => some .rpg2
  | 3 => some .rpg3
  | 4 => some .pc
  | 5 => some .ir
  | 6 => some .flags
  | 7 => some .stackBottom
  | 8 => some .stackTop
  | _ => none

/-- `x[i]` (00_scope R9). No register is hard-wired (10_state R18). -/
def RegFile.get {w : Nat} (x : RegFile w) : RegName → Word w
  | .rpg0 => x.rpg0
  | .rpg1 => x.rpg1
  | .rpg2 => x.rpg2
  | .rpg3 => x.rpg3
  | .pc => x.pc
  | .ir => x.ir
  | .flags => x.flags
  | .stackBottom => x.stackBottom
  | .stackTop => x.stackTop

/-- `x[i] <- v` (00_scope R9). -/
def RegFile.set {w : Nat} (x : RegFile w) (r : RegName) (v : Word w) : RegFile w :=
  match r with
  | .rpg0 => { x with rpg0 := v }
  | .rpg1 => { x with rpg1 := v }
  | .rpg2 => { x with rpg2 := v }
  | .rpg3 => { x with rpg3 := v }
  | .pc => { x with pc := v }
  | .ir => { x with ir := v }
  | .flags => { x with flags := v }
  | .stackBottom => { x with stackBottom := v }
  | .stackTop => { x with stackTop := v }

end Sys2Proof.Machine
end

