-- ==== Sys2Proof/Machine/Flags.lean ====
section
/-! DEFINITION. The two condition flags and the one rule that computes them (spec/41_control_unit.md R96). -/

namespace Sys2Proof.Machine

variable {w : Nat}

/-- The two flags: ZERO is bit 0 and NEGATIVE is bit 1 of the Flags word (10_state R23, 40_datapath R73). No other
bit has a port operation. -/
inductive FlagBit where
  | zero | negative
  deriving DecidableEq, Repr

/-- `getBit(i)` on a Flags word (40_datapath R73). -/
def getFlag (f : Word w) : FlagBit → Bool
  | .zero => f.getLsbD 0
  | .negative => f.getLsbD 1

/-- `setBit(i, v)` on a Flags word; no other bit changes (40_datapath R73). -/
def setFlag (f : Word w) (i : FlagBit) (v : Bool) : Word w :=
  match i, v with
  | .zero, false => f &&& ~~~1
  | .zero, true => f ||| 1
  | .negative, false => f &&& ~~~2
  | .negative, true => f ||| 2

/-- The Flags word after `SetFlags(v)` (41_control_unit R96): both bits are reset, then Z is set iff the result is
zero and N iff it is negative; bits 31..2 stay. -/
def flagsAfter (f v : Word w) : Word w :=
  let cleared := setFlag (setFlag f .zero false) .negative false
  let withZ := if v = 0 then setFlag cleared .zero true else cleared
  if v.slt 0 then setFlag withZ .negative true else withZ

/-- `SetFlags(v)` on the register file (41_control_unit R96). -/
def RegFile.setFlags (x : RegFile w) (v : Word w) : RegFile w := x.set .flags (flagsAfter x.flags v)

end Sys2Proof.Machine
end

