-- ==== Sys2Proof/Machine/Memory.lean ====
section
/-! DEFINITION. The memory array: whole words over canonical byte cells (spec/20_memory.md). -/

namespace Sys2Proof.Machine

/-- What an unlisted cell reads as: memory the image does not name is zero (10_state R37). -/
def Memory.unlisted : Byte := 0

/-- One byte cell. -/
def Memory.byte : Memory → Nat → Byte
  | [], _ => Memory.unlisted
  | (k, b) :: rest, n => if n = k then b else if n < k then Memory.unlisted else Memory.byte rest n

/-- Write one byte cell, keeping the canonical form: writing what an unlisted cell reads as removes the entry. -/
def Memory.setByte : Memory → Nat → Byte → Memory
  | [], n, v => if v = Memory.unlisted then [] else [(n, v)]
  | (k, b) :: rest, n, v =>
    if n = k then (if v = Memory.unlisted then rest else (k, v) :: rest)
    else if n < k then (if v = Memory.unlisted then (k, b) :: rest else (n, v) :: (k, b) :: rest)
    else (k, b) :: Memory.setByte rest n v

/-- How many byte cells hold a word of `w` bits (log 4). -/
def wordBytes (w : Nat) : Nat := (w + 7) / 8

/-- The canonical form under parameters `p`: keys strictly rising, each inside the memory's cells, no entry equal to what an
unlisted cell reads as, and no bit in a word's last cell beyond the word's width. -/
def Memory.wf (p : Params) (m : Memory) : Bool :=
  decide (m.Pairwise fun c d => c.1 < d.1) &&
    m.all fun c => decide (c.2 ≠ Memory.unlisted) && decide (c.1 < wordBytes p.wordBits * p.memorySize) &&
      decide (c.2.toNat < 2 ^ (p.wordBits - 8 * (c.1 % wordBytes p.wordBits)))

/-- The bounds check of 20_memory R42: `0 <=s addr <s MEMORY_SIZE`, as signed words (00_scope R8). -/
def inMemory {p : Params} (addr : p.Word) : Bool :=
  !addr.slt 0 && addr.slt (BitVec.ofNat p.wordBits p.memorySize)

/-- The number that `k` cells from `base` on hold, least significant first. -/
def Memory.readCells (m : Memory) (base : Nat) : Nat → Nat
  | 0 => 0
  | k + 1 => (m.byte base).toNat + 256 * Memory.readCells m (base + 1) k

/-- Store the number `n` in `k` cells from `base` on, least significant first. -/
def Memory.writeCells (m : Memory) (base : Nat) : Nat → Nat → Memory
  | 0, _ => m
  | k + 1, n => Memory.writeCells (m.setByte base (BitVec.ofNat 8 n)) (base + 1) k (n / 256)

/-- `M[addr]`, with no check (00_scope R9): the cells of the word (20_memory R39; log 4). -/
def Memory.read {w : Nat} (m : Memory) (addr : Word w) : Word w :=
  BitVec.ofNat w (m.readCells (wordBytes w * addr.toNat) (wordBytes w))

/-- `M[addr] <- v`, with no check: exactly the cells of the word (20_memory R44). -/
def Memory.write {w : Nat} (m : Memory) (addr v : Word w) : Memory :=
  m.writeCells (wordBytes w * addr.toNat) (wordBytes w) v.toNat

/-- The host reads a memory word; none outside memory (70_reset_and_hazards R154). -/
def CoreState.peek {p : Params} (s : CoreState p) (addr : p.Word) : Option p.Word :=
  if inMemory addr then some (s.mem.read addr) else none

/-- The host writes a memory word; outside memory there is no word to write (70_reset_and_hazards R154, R155). -/
def CoreState.poke {p : Params} (s : CoreState p) (addr v : p.Word) : CoreState p :=
  if inMemory addr then { s with mem := s.mem.write addr v } else s

end Sys2Proof.Machine
end

