-- ==== Sys2Proof/Machine/Datapath.lean ====
section
/-! DEFINITION. The components the control unit drives, one micro-operation at a time: buses, register ports, ALU,
register selector and memory interface (spec/40_datapath.md). -/

namespace Sys2Proof.Machine

variable {p : Params}

/-- What the control unit runs: a sequence of micro-operations on the state, ended early by a raise. A raise keeps the
state as it stands, with every earlier write (60_exceptions R134). -/
abbrev Micro (p : Params) := EStateM (FaultRecord p.wordBits) (CoreState p)

/-- `raise K(info)` by the instruction at `a` (00_scope R9, 60_exceptions R133). -/
def raise {α : Type} (kind : ErrorKind) (value a : p.Word) : Micro p α :=
  throw { kind := kind, value := value, addr := a }

/-! ## Buses (R67 to R69) -/

/-- `put(w)`: replaces the segment's Word and no other segment's (40_datapath R67, R69). -/
def Datapath.put {w : Nat} (d : Datapath w) (b : Bus) (x : Word w) : Datapath w :=
  match b with
  | .ext => { d with extbus := x }
  | .int1 => { d with intbus1 := x }
  | .int2 => { d with intbus2 := x }

/-- `get()`: the segment's Word; it does not change the bus (40_datapath R67). -/
def Datapath.get {w : Nat} (d : Datapath w) (b : Bus) : Word w :=
  match b with
  | .ext => d.extbus
  | .int1 => d.intbus1
  | .int2 => d.intbus2

/-- Drive a bus. -/
def CoreState.put (s : CoreState p) (b : Bus) (x : p.Word) : CoreState p := { s with dp := s.dp.put b x }

/-- Take the Word of a bus. -/
def CoreState.busWord (s : CoreState p) (b : Bus) : p.Word := s.dp.get b

/-! ## Register ports (R68, R70 to R72) -/

/-- The registers that have an internal port. IR has one port only, on extbus (40_datapath R68), and so is not one of
them: an internal operation on IR cannot be written down (R72). -/
inductive InternalPort where
  | rpg0 | rpg1 | rpg2 | rpg3 | pc | flags | stackBottom | stackTop
  deriving DecidableEq, Repr

/-- The register behind an internal port. -/
def InternalPort.register : InternalPort → RegName
  | .rpg0 => .rpg0
  | .rpg1 => .rpg1
  | .rpg2 => .rpg2
  | .rpg3 => .rpg3
  | .pc => .pc
  | .flags => .flags
  | .stackBottom => .stackBottom
  | .stackTop => .stackTop

/-- The segment an internal port attaches to: intbus2 for PC, and for the others what `WIRING` says (40_datapath R68). -/
def InternalPort.bus (wiring : Wiring) : InternalPort → Bus
  | .rpg0 => wiring.rpg0
  | .rpg1 => wiring.rpg1
  | .rpg2 => wiring.rpg2
  | .rpg3 => wiring.rpg3
  | .pc => .int2
  | .flags => wiring.flags
  | .stackBottom => wiring.stackBottom
  | .stackTop => wiring.stackTop

/-- `read()` of a register: `extbus.put(storage)` (40_datapath R70). -/
def CoreState.portRead (s : CoreState p) (r : RegName) : CoreState p := s.put .ext (s.regs.get r)

/-- `store()` of a register: `storage <- extbus.get()` (40_datapath R70). -/
def CoreState.portStore (s : CoreState p) (r : RegName) : CoreState p := { s with regs := s.regs.set r (s.busWord .ext) }

/-- `internalRead()` (40_datapath R71). -/
def CoreState.internalRead (s : CoreState p) (port : InternalPort) : CoreState p :=
  s.put (port.bus p.wiring) (s.regs.get port.register)

/-- `internalStore()` (40_datapath R71). -/
def CoreState.internalStore (s : CoreState p) (port : InternalPort) : CoreState p :=
  { s with regs := s.regs.set port.register (s.busWord (port.bus p.wiring)) }

/-! ## ALU (R74 to R77) -/

/-- The two operand slots (40_datapath R74). -/
inductive AluSlot where
  | slot0 | slot1
  deriving DecidableEq, Repr

/-- `slot[n] <- x`. -/
def Datapath.setSlot {w : Nat} (d : Datapath w) (n : AluSlot) (x : Word w) : Datapath w :=
  match n with
  | .slot0 => { d with aluSlot0 := x }
  | .slot1 => { d with aluSlot1 := x }

/-- `slot[n]`. -/
def Datapath.slot {w : Nat} (d : Datapath w) (n : AluSlot) : Word w :=
  match n with
  | .slot0 => d.aluSlot0
  | .slot1 => d.aluSlot1

/-- ALU `store(n)`: from intbus1 (40_datapath R74). -/
def CoreState.aluStore (s : CoreState p) (n : AluSlot) : CoreState p := { s with dp := s.dp.setSlot n (s.dp.get .int1) }

/-- ALU `internalStore(n)`: from intbus2 (40_datapath R74). -/
def CoreState.aluInternalStore (s : CoreState p) (n : AluSlot) : CoreState p :=
  { s with dp := s.dp.setSlot n (s.dp.get .int2) }

/-- ALU `read(n)`: onto intbus1 (40_datapath R75). -/
def CoreState.aluRead (s : CoreState p) (n : AluSlot) : CoreState p := s.put .int1 (s.dp.slot n)

/-- ALU `internalRead(n)`: onto intbus2 (40_datapath R75). -/
def CoreState.aluInternalRead (s : CoreState p) (n : AluSlot) : CoreState p := s.put .int2 (s.dp.slot n)

/-- The two-operand ALU operations (40_datapath R76). -/
inductive AluOp where
  | add | sub
  deriving DecidableEq, Repr

/-- The Word an ALU operation computes; the minuend is slot 0 (40_datapath R76, 00_scope R8). -/
def AluOp.apply {w : Nat} : AluOp → Word w → Word w → Word w
  | .add, x, y => x + y
  | .sub, x, y => x - y

/-- `add()` and `sub()`: the result goes to slot 1 and slot 0 stays (40_datapath R76). The ALU computes no flags (R77). -/
def CoreState.aluOperate (s : CoreState p) (op : AluOp) : CoreState p :=
  { s with dp := s.dp.setSlot .slot1 (op.apply (s.dp.slot .slot0) (s.dp.slot .slot1)) }

/-- `inc()`: `slot[1] <- slot[1] +w 1` (40_datapath R76). -/
def CoreState.aluInc (s : CoreState p) : CoreState p := { s with dp := s.dp.setSlot .slot1 (s.dp.slot .slot1 + 1) }

/-! ## Register selector (R78, R79) -/

/-- `setValue(w)` of the selector (40_datapath R78). -/
def CoreState.select (s : CoreState p) (w : p.Word) : CoreState p := { s with dp := { s.dp with selector := w } }

/-- `getValue()` of the selector (40_datapath R78). -/
def CoreState.selected (s : CoreState p) : p.Word := s.dp.selector

/-- The register the selector names, checked as 41_control_unit R95 checks an index (40_datapath R79). -/
def selectedRegister (a : p.Word) : Micro p RegName := do
  let s ← get
  match RegName.ofIndex s.selected with
  | some r => pure r
  | none => raise .invalidRegisterIndex s.selected a

/-- An indexed operation of an external port, `read()` or `store()` (40_datapath R70): it is applied to the register the
selector names, whose index is checked first (R79). -/
def indexed (a : p.Word) (operation : CoreState p → RegName → CoreState p) : Micro p Unit := do
  let r ← selectedRegister a
  modify (operation · r)

/-- The internal port of the register an index names, where it names one: every register but IR has such a port
(40_datapath R68, R72). -/
def InternalPort.ofIndexed : (named : Option RegName) → named ≠ some .ir → Option InternalPort
  | some .rpg0, _ => some .rpg0
  | some .rpg1, _ => some .rpg1
  | some .rpg2, _ => some .rpg2
  | some .rpg3, _ => some .rpg3
  | some .pc, _ => some .pc
  | some .ir, h => absurd rfl h
  | some .flags, _ => some .flags
  | some .stackBottom, _ => some .stackBottom
  | some .stackTop, _ => some .stackTop
  | none, _ => none

/-- An indexed operation of an internal port, `internalRead()` or `internalStore()` (40_datapath R71), in the form
`operate_on(index, operation)` of R79: the selector takes the index, which is checked, and the operation is applied to the
internal port of the register it names. IR has no such port, so index 5 is shut out by `h`, and the operation on it cannot be
written down (R72). -/
def internalIndexed (a index : p.Word) (h : RegName.ofIndex index ≠ some .ir)
    (operation : CoreState p → InternalPort → CoreState p) : Micro p Unit := do
  modify (·.select index)
  match InternalPort.ofIndexed (RegName.ofIndex index) h with
  | some port => modify (operation · port)
  | none => raise .invalidRegisterIndex index a

/-- `internalRead()` of the register an index names (40_datapath R71, R79). No microprogram uses it. -/
def internalReadReg (a index : p.Word) (h : RegName.ofIndex index ≠ some .ir) : Micro p Unit :=
  internalIndexed a index h CoreState.internalRead

/-- `internalStore()` of the register an index names (40_datapath R71, R79). No microprogram uses it. -/
def internalStoreReg (a index : p.Word) (h : RegName.ofIndex index ≠ some .ir) : Micro p Unit :=
  internalIndexed a index h CoreState.internalStore

/-! ## Memory interface (R80 to R84) -/

/-- `store()` of the memory interface: the address on the first call of a pair, checked; the data on the second
(40_datapath R80). -/
def memoryStore (a : p.Word) : Micro p Unit := do
  let s ← get
  match s.dp.memPhase with
  | .awaitingAddress =>
    set { s with dp := { s.dp with latchedAddress := s.dp.extbus } }
    if inMemory s.dp.extbus then
      modify fun t => { t with dp := { t.dp with memPhase := .awaitingData } }
    else raise .outOfBoundsAddress s.dp.extbus a
  | .awaitingData =>
    set { s with mem := s.mem.write s.dp.latchedAddress s.dp.extbus,
                 dp := { s.dp with memPhase := .awaitingAddress } }

/-- `read()` of the memory interface: one call takes the address from extbus and puts the stored Word there; the phase
stays (40_datapath R81). In the data phase it is a protocol violation, recorded with the latched address (R82). -/
def memoryRead (a : p.Word) : Micro p Unit := do
  let s ← get
  match s.dp.memPhase with
  | .awaitingData => raise .memoryProtocolError s.dp.latchedAddress a
  | .awaitingAddress =>
    if inMemory s.dp.extbus then set (s.put .ext (s.mem.read s.dp.extbus))
    else raise .outOfBoundsAddress s.dp.extbus a

end Sys2Proof.Machine
end

