-- ==== Sys2Proof/Machine/Ops.lean ====
section
/-! DEFINITION. The register-transfer primitives of the microprograms (spec/00_scope.md R10, spec/41_control_unit.md),
each as the sequence of component operations that carries it out (spec/40_datapath.md R83, R86), the entry into FAULT and
HALT, and the instruction boundary. -/

namespace Sys2Proof.Machine

variable {p : Params}

/-! ## Memory and registers -/

/-- `MemRead(addr)` (00_scope R10): drive extbus with the address, `Memory.read()`, take the Word from extbus
(40_datapath R83). -/
def memRead (a addr : p.Word) : Micro p p.Word := do
  modify (·.put .ext addr)
  memoryRead a
  return (← get).busWord .ext

/-- `MemWrite(addr, v)` (00_scope R10): drive extbus with the address, `Memory.store()`, drive extbus with the data,
`Memory.store()`, back to back (40_datapath R83, R84). -/
def memWrite (a addr v : p.Word) : Micro p Unit := do
  modify (·.put .ext addr)
  memoryStore a
  modify (·.put .ext v)
  memoryStore a

/-- Read a register whose port the microprogram names: `read()`, then take the Word from extbus (40_datapath R70). -/
def readPort (r : RegName) : Micro p p.Word := do
  modify (·.portRead r)
  return (← get).busWord .ext

/-- Write a register whose port the microprogram names: drive extbus, then `store()` (40_datapath R70). -/
def writePort (r : RegName) (v : p.Word) : Micro p Unit := do
  modify (·.put .ext v)
  modify (·.portStore r)

/-- `x[r]` for a register an operand word names: the selector takes the index, and the selected register drives extbus
(40_datapath R78, R79). -/
def readReg (a index : p.Word) : Micro p p.Word := do
  modify (·.select index)
  indexed a CoreState.portRead
  return (← get).busWord .ext

/-- `x[r] <- v` for a register an operand word names: the selector takes the index, the control unit drives extbus, and the
selected register stores (40_datapath R78, R79). -/
def writeReg (a index v : p.Word) : Micro p Unit := do
  modify (·.select index)
  modify (·.put .ext v)
  indexed a CoreState.portStore

/-! ## ALU and flags -/

/-- `x OP y` through the ALU: the left side (the minuend) into slot 0, the right side into slot 1, the operation, and
slot 1 read back (40_datapath R74 to R76). The control unit moves the Words between extbus and intbus1 (R68 `WIRING`;
log 9). -/
def alu (op : AluOp) (x y : p.Word) : Micro p p.Word := do
  modify (·.put .int1 x)
  modify (·.aluStore .slot0)
  modify (·.put .int1 y)
  modify (·.aluStore .slot1)
  modify (·.aluOperate op)
  modify (·.aluRead .slot1)
  return (← get).busWord .int1

/-- `x +w 1` through the ALU's slot 1 (40_datapath R76; 44_inc R117). -/
def aluIncrement (x : p.Word) : Micro p p.Word := do
  modify (·.put .int1 x)
  modify (·.aluStore .slot1)
  modify (·.aluInc)
  modify (·.aluRead .slot1)
  return (← get).busWord .int1

/-- `SetFlags(v)` (41_control_unit R96). -/
def setFlags (v : p.Word) : Micro p Unit := modify fun s => { s with regs := s.regs.setFlags v }

/-! ## Program counter -/

/-- `Advance()`, the pcAdvance sequence: PC internal-read, ALU slot 1 internal-store, `inc()`, ALU slot 1 internal-read,
PC internal-store (40_datapath R86, 41_control_unit R91). -/
def advance : Micro p Unit := do
  modify (·.internalRead .pc)
  modify (·.aluInternalStore .slot1)
  modify (·.aluInc)
  modify (·.aluInternalRead .slot1)
  modify (·.internalStore .pc)

/-- `pc <- target` (00_scope R9). -/
def setPc (target : p.Word) : Micro p Unit := writePort .pc target

/-- `pc <- t` when the condition holds, else `Advance()` (45_jumps R118). -/
def jumpIf (taken : Bool) (t : p.Word) : Micro p Unit := if taken then setPc t else advance

/-! ## Operand words -/

/-- `MemRead(pc)`: the operand word pc points at (41_control_unit R93). -/
def operandWord (a : p.Word) : Micro p p.Word := do
  let here ← readPort .pc
  memRead a here

/-- `CheckReg(r)` (41_control_unit R95): `r <s 0` or `r >=s NUM_REGS` raises InvalidRegisterIndex. -/
def checkReg (a r : p.Word) : Micro p Unit :=
  if r.slt 0 || !r.slt (BitVec.ofNat p.wordBits Config.numRegs) then raise .invalidRegisterIndex r a else pure ()

/-! ## Scratch save, stack -/

/-- `Save()`: `MemWrite(x[8], pc)`; StackTop stays and is checked against the memory bounds only
(41_control_unit R98). -/
def save (a : p.Word) : Micro p Unit := do
  let cell ← readPort .stackTop
  let here ← readPort .pc
  memWrite a cell here

/-- `Restore()`: `pc <- MemRead(x[8])` (41_control_unit R98). -/
def restore (a : p.Word) : Micro p Unit := do
  let cell ← readPort .stackTop
  let saved ← memRead a cell
  setPc saved

/-- `Push(v)` (46_call_ret R126): the bounds check, the write, then the decrement. -/
def push (a v : p.Word) : Micro p Unit := do
  let top ← readPort .stackTop
  if top.slt p.stackLow then raise .stackOverflow top a
  memWrite a top v
  let below ← alu .sub top 1
  writePort .stackTop below

/-- `Pop()` (46_call_ret R127): the emptiness check, the read above StackTop, then the increment. -/
def pop (a : p.Word) : Micro p p.Word := do
  let top ← readPort .stackTop
  let bottom ← readPort .stackBottom
  if !top.slt bottom then raise .stackUnderflow top a
  let above ← aluIncrement top
  let v ← memRead a above
  writePort .stackTop above
  return v

/-! ## The end of an instruction -/

/-- What the datapath holds at the `n`-th instruction boundary: every bus, ALU slot, the selector and the latched address
a free value (10_state R36, 70_reset_and_hazards R157; log 5); the memory phase stays as the instruction left it
(40_datapath R84). -/
def boundaryDatapath (w n : Nat) (phase : MemPhase) : Datapath w :=
  { extbus := Config.boundaryWord w n .extbus
    intbus1 := Config.boundaryWord w n .intbus1
    intbus2 := Config.boundaryWord w n .intbus2
    aluSlot0 := Config.boundaryWord w n .aluSlot0
    aluSlot1 := Config.boundaryWord w n .aluSlot1
    selector := Config.boundaryWord w n .selector
    memPhase := phase
    latchedAddress := Config.boundaryWord w n .latchedAddress }

/-- The instruction boundary, or the end of the run: the control state that follows, and the datapath unspecified but for
the memory phase (10_state R36; log 5). -/
def CoreState.endInstruction (s : CoreState p) (c : ControlState p.wordBits) : CoreState p :=
  { s with ctrl := c, dp := boundaryDatapath p.wordBits s.boundaries s.dp.memPhase, boundaries := s.boundaries + 1 }

/-- Fault entry (60_exceptions R134): FAULT with its record; every register and memory write made before the raise
stays; no handler, no vector, no other state saved. There is no return from it (R139). -/
def CoreState.enterFault (s : CoreState p) (record : FaultRecord p.wordBits) : CoreState p :=
  s.endInstruction (.fault record)

/-- HALT (41_control_unit R89): nothing but the control state changes. -/
def CoreState.enterHalt (s : CoreState p) : CoreState p := s.endInstruction .halt

/-- EXECUTE: run a microprogram for the instruction at `a = pc` (41_control_unit R90, R102; log 7), then the next FETCH, or
FAULT where it raised (R101; log 6). -/
def CoreState.execute (s : CoreState p) (microprogram : p.Word → Micro p Unit) : CoreState p :=
  match microprogram s.regs.pc s with
  | .ok _ t => t.endInstruction .fetch
  | .error record t => t.enterFault record

/-- EXECUTE on a machine, whatever its parameters: a next state, also where the microprogram raised, since a fault's entry
is what the spec says happens (log 6). The parameters stay. -/
def execute (microprogram : (p : Params) → p.Word → Micro p Unit) (s : State) : Host.Outcome State Fault Refusal :=
  .next ⟨s.params, s.core.execute (microprogram s.params)⟩

end Sys2Proof.Machine
end

