-- ==== Sys2Proof/Machine/Operands.lean ====
section
/-! DEFINITION. The operand forms of 30_encoding R55, and the microprograms that instructions of one shape share
(spec/42_add_sub.md, spec/43_move.md, spec/45_jumps.md). -/

namespace Sys2Proof.Machine

variable {p : Params}

/-! ## Operand forms -/

/-- An R operand: the word pc points at, checked right after it is read (30_encoding R55, 41_control_unit R95). -/
def registerOperand (a : p.Word) : Micro p p.Word := do
  let r ← operandWord a
  checkReg a r
  return r

/-- An I or a T operand: the word pc points at, as it is (30_encoding R55). -/
def plainOperand (a : p.Word) : Micro p p.Word := operandWord a

/-- The start of an M operand (41_control_unit R98 `MemOperand`): save pc in the scratch cell, read the address, and make
pc the scratch address register. -/
def enterMemoryOperand (a : p.Word) : Micro p Unit := do
  save a
  let m ← operandWord a
  setPc m

/-- `MemRead(pc)` while pc holds the scratch address (41_control_unit R98). -/
def readAtPc (a : p.Word) : Micro p p.Word := operandWord a

/-- `MemWrite(pc, v)` while pc holds the scratch address (41_control_unit R98). -/
def writeAtPc (a v : p.Word) : Micro p Unit := do
  let here ← readPort .pc
  memWrite a here v

/-! ## Shared microprograms -/

/-- The end of an arithmetic instruction with a register destination: the destination's old value on the left, flags, the
write-back, the exit advance (41_control_unit R97). -/
def arithmeticToRegister (op : AluOp) (a d v : p.Word) : Micro p Unit := do
  let left ← readReg a d
  let res ← alu op left v
  setFlags res
  writeReg a d res
  advance

/-- add and sub, register to register (42_add_sub R105, R109). -/
def arithmeticRegReg (op : AluOp) (a : p.Word) : Micro p Unit := do
  advance
  let s ← registerOperand a
  advance
  let d ← registerOperand a
  let v ← readReg a s
  arithmeticToRegister op a d v

/-- add and sub, immediate to register (42_add_sub R108, R112). -/
def arithmeticImmReg (op : AluOp) (a : p.Word) : Micro p Unit := do
  advance
  let i ← plainOperand a
  advance
  let r ← registerOperand a
  arithmeticToRegister op a r i

/-- The start of a `*MemReg` instruction: the memory source's value and the register operand, with pc back in the
instruction stream (42_add_sub R106, R110; 43_move R114; 41_control_unit R99). -/
def memorySource (a : p.Word) : Micro p (p.Word × p.Word) := do
  advance
  enterMemoryOperand a
  let v ← readAtPc a
  restore a
  advance
  let r ← registerOperand a
  return (v, r)

/-- add and sub, memory to register (42_add_sub R106, R110). -/
def arithmeticMemReg (op : AluOp) (a : p.Word) : Micro p Unit := do
  let (v, r) ← memorySource a
  arithmeticToRegister op a r v

/-- The start of a `*RegMem` instruction: the register source's value, captured before the save, with pc then the
destination's address (42_add_sub R107, R111; 43_move R115; 41_control_unit R99). -/
def registerSourceToMemory (a : p.Word) : Micro p p.Word := do
  advance
  let r ← registerOperand a
  advance
  let u ← readReg a r
  enterMemoryOperand a
  return u

/-- add and sub, register to memory (42_add_sub R107, R111). -/
def arithmeticRegMem (op : AluOp) (a : p.Word) : Micro p Unit := do
  let u ← registerSourceToMemory a
  let v ← readAtPc a
  let res ← alu op v u
  setFlags res
  writeAtPc a res
  restore a
  advance

/-- A jump on the flags as they stand (45_jumps R120, R121): the operand is read whether or not the jump is taken. -/
def flagJump (taken : p.Word → Bool) (a : p.Word) : Micro p Unit := do
  advance
  let t ← plainOperand a
  jumpIf (taken (← get).regs.flags) t

/-- A compare jump (45_jumps R122 to R125): flags from `x[RegA] -w x[RegB]`, on both paths, and a jump on the new
flags. The difference goes to no register. -/
def compareJump (taken : p.Word → Bool) (a : p.Word) : Micro p Unit := do
  advance
  let rA ← registerOperand a
  advance
  let rB ← registerOperand a
  advance
  let t ← plainOperand a
  let x ← readReg a rA
  let y ← readReg a rB
  let d ← alu .sub x y
  setFlags d
  jumpIf (taken (← get).regs.flags) t

end Sys2Proof.Machine
end

