-- ==== Sys2Proof/Machine/Arithmetic.lean ====
section
/-! DEFINITION. The add and sub families (spec/42_add_sub.md) and inc (spec/44_inc.md). -/

namespace Sys2Proof.Machine

variable {p : Params}

/-- 42_add_sub R105. -/
def execAddRegReg (s : State) : Host.Outcome State Fault Refusal := execute (fun _ => arithmeticRegReg .add) s

/-- 42_add_sub R106. -/
def execAddMemReg (s : State) : Host.Outcome State Fault Refusal := execute (fun _ => arithmeticMemReg .add) s

/-- 42_add_sub R107. -/
def execAddRegMem (s : State) : Host.Outcome State Fault Refusal := execute (fun _ => arithmeticRegMem .add) s

/-- 42_add_sub R108. -/
def execAddImmReg (s : State) : Host.Outcome State Fault Refusal := execute (fun _ => arithmeticImmReg .add) s

/-- 42_add_sub R109. -/
def execSubRegReg (s : State) : Host.Outcome State Fault Refusal := execute (fun _ => arithmeticRegReg .sub) s

/-- 42_add_sub R110. -/
def execSubMemReg (s : State) : Host.Outcome State Fault Refusal := execute (fun _ => arithmeticMemReg .sub) s

/-- 42_add_sub R111. -/
def execSubRegMem (s : State) : Host.Outcome State Fault Refusal := execute (fun _ => arithmeticRegMem .sub) s

/-- 42_add_sub R112. -/
def execSubImmReg (s : State) : Host.Outcome State Fault Refusal := execute (fun _ => arithmeticImmReg .sub) s

/-- The microprogram of inc (44_inc R117): the register's value through ALU slot 1, flags, the write-back. -/
def incRegister (a : p.Word) : Micro p Unit := do
  advance
  let r ← registerOperand a
  let x ← readReg a r
  let res ← aluIncrement x
  setFlags res
  writeReg a r res
  advance

/-- 44_inc R117. -/
def execInc (s : State) : Host.Outcome State Fault Refusal := execute (fun _ => incRegister) s

end Sys2Proof.Machine
end

