-- ==== Sys2Proof/Machine/CallRet.lean ====
section
/-! DEFINITION. call and ret (spec/46_call_ret.md). Neither touches the flags. -/

namespace Sys2Proof.Machine

variable {p : Params}

/-- The microprogram of call (46_call_ret R128): push the address after the operand, then jump. -/
def callSubroutine (a : p.Word) : Micro p Unit := do
  advance
  let t ← plainOperand a
  let here ← readPort .pc
  let ra ← aluIncrement here
  push a ra
  setPc t

/-- The microprogram of ret (46_call_ret R129): the entry advance, then `pc <- Pop()`. -/
def returnFromSubroutine (a : p.Word) : Micro p Unit := do
  advance
  let v ← pop a
  setPc v

/-- 46_call_ret R128. -/
def execCall (s : State) : Host.Outcome State Fault Refusal := execute (fun _ => callSubroutine) s

/-- 46_call_ret R129. -/
def execRet (s : State) : Host.Outcome State Fault Refusal := execute (fun _ => returnFromSubroutine) s

end Sys2Proof.Machine
end

