-- ==== Sys2Proof/Machine/Jump.lean ====
section
/-! DEFINITION. The jumps (spec/45_jumps.md). Targets are absolute and unchecked; the next FETCH checks them (R118). -/

namespace Sys2Proof.Machine

variable {p : Params}

/-- Z = 1 (45_jumps R118). -/
def takenIfZero {w : Nat} (f : Word w) : Bool := getFlag f .zero

/-- N = 1 (45_jumps R118). -/
def takenIfNegative {w : Nat} (f : Word w) : Bool := getFlag f .negative

/-- Z = 0 (45_jumps R118). -/
def takenIfNotZero {w : Nat} (f : Word w) : Bool := !getFlag f .zero

/-- Z = 0 and N = 0 (45_jumps R118). -/
def takenIfPositive {w : Nat} (f : Word w) : Bool := !getFlag f .zero && !getFlag f .negative

/-- The microprogram of jmp (45_jumps R119). -/
def jumpAlways (a : p.Word) : Micro p Unit := do
  advance
  let t ← plainOperand a
  setPc t

/-- 45_jumps R119. -/
def execJmp (s : State) : Host.Outcome State Fault Refusal := execute (fun _ => jumpAlways) s

/-- 45_jumps R120. -/
def execJz (s : State) : Host.Outcome State Fault Refusal := execute (fun _ => flagJump takenIfZero) s

/-- 45_jumps R121. -/
def execJn (s : State) : Host.Outcome State Fault Refusal := execute (fun _ => flagJump takenIfNegative) s

/-- 45_jumps R122. -/
def execJeq (s : State) : Host.Outcome State Fault Refusal := execute (fun _ => compareJump takenIfZero) s

/-- 45_jumps R123. -/
def execJneq (s : State) : Host.Outcome State Fault Refusal := execute (fun _ => compareJump takenIfNotZero) s

/-- 45_jumps R124. -/
def execJgt (s : State) : Host.Outcome State Fault Refusal := execute (fun _ => compareJump takenIfPositive) s

/-- 45_jumps R125. -/
def execJlw (s : State) : Host.Outcome State Fault Refusal := execute (fun _ => compareJump takenIfNegative) s

end Sys2Proof.Machine
end

