-- ==== Sys2Proof/Machine/Move.lean ====
section
/-! DEFINITION. The move family (spec/43_move.md). No move recomputes the flags; a move to index 6 writes the Flags word as
data. -/

namespace Sys2Proof.Machine

variable {p : Params}

/-- The microprogram of moveRegReg (43_move R113). -/
def moveRegisterToRegister (a : p.Word) : Micro p Unit := do
  advance
  let s ← registerOperand a
  advance
  let d ← registerOperand a
  let v ← readReg a s
  writeReg a d v
  advance

/-- The microprogram of moveMemReg (43_move R114). -/
def moveMemoryToRegister (a : p.Word) : Micro p Unit := do
  let (v, r) ← memorySource a
  writeReg a r v
  advance

/-- The microprogram of moveRegMem (43_move R115). -/
def moveRegisterToMemory (a : p.Word) : Micro p Unit := do
  let u ← registerSourceToMemory a
  writeAtPc a u
  restore a
  advance

/-- The microprogram of moveImmReg (43_move R116). -/
def moveImmediateToRegister (a : p.Word) : Micro p Unit := do
  advance
  let i ← plainOperand a
  advance
  let r ← registerOperand a
  writeReg a r i
  advance

/-- 43_move R113. -/
def execMoveRegReg (s : State) : Host.Outcome State Fault Refusal := execute (fun _ => moveRegisterToRegister) s

/-- 43_move R114. -/
def execMoveMemReg (s : State) : Host.Outcome State Fault Refusal := execute (fun _ => moveMemoryToRegister) s

/-- 43_move R115. -/
def execMoveRegMem (s : State) : Host.Outcome State Fault Refusal := execute (fun _ => moveRegisterToMemory) s

/-- 43_move R116. -/
def execMoveImmReg (s : State) : Host.Outcome State Fault Refusal := execute (fun _ => moveImmediateToRegister) s

end Sys2Proof.Machine
end

