-- ==== Sys2Proof/Syntax.lean ====
section
/-! DEFINITION. The instructions, one constructor for each row of spec/opcode_table.json, and an instruction
together with its operand words (spec/30_encoding.md). -/

namespace Sys2Proof

/-- The 22 instructions (00_scope R2, 30_encoding R54). An instruction is what DECODE finds: the mnemonic that the
opcode word selects (30_encoding R56, R60). The operand words are no part of it. DECODE does not read them: each
microprogram reads its own operand words from memory, in order (30_encoding R56, 41_control_unit R93), and may itself
have overwritten one before it reads it (20_memory R51). `Assembled` below is an instruction with its operand words
(log 8). -/
inductive Instr where
  | addRegReg | addMemReg | addRegMem | addImmReg
  | subRegReg | subMemReg | subRegMem | subImmReg
  | moveRegReg | moveMemReg | moveRegMem | moveImmReg
  | inc
  | jmp | jz | jn | jeq | jneq | jgt | jlw
  | call | ret
  deriving DecidableEq, Repr

/-- All of them, in the order of 00_scope R2. -/
def Instr.all : List Instr :=
  [.addRegReg, .addMemReg, .addRegMem, .addImmReg, .subRegReg, .subMemReg, .subRegMem, .subImmReg,
    .moveRegReg, .moveMemReg, .moveRegMem, .moveImmReg, .inc, .jmp, .jz, .jn, .jeq, .jneq, .jgt, .jlw, .call, .ret]

/-- The four operand kinds of 30_encoding R55. -/
inductive OperandKind where
  /-- R: a register index. -/
  | register
  /-- M: the address of a data word. -/
  | memory
  /-- I: the value itself. -/
  | immediate
  /-- T: a new value of the program counter. -/
  | target
  deriving DecidableEq, Repr

/-- An instruction with its operand words: what occupies `1 + k` consecutive words of memory (30_encoding R53). -/
structure Assembled (w : Nat) where
  op : Instr
  operands : List (Word w)
  deriving DecidableEq, Repr

end Sys2Proof
end

