-- ==== Sys2Proof/Machine/Dispatch.lean ====
section
/-! DEFINITION. EXECUTE (spec/41_control_unit.md R90): one arm for each instruction. It is also the direct execution of one
microprogram that 41_control_unit R102 gives the host. -/

namespace Sys2Proof.Machine

def exec (i : Instr) (s : State) : Host.Outcome State Fault Refusal :=
  match i with
  | .addRegReg => Sys2Proof.Machine.execAddRegReg s
  | .addMemReg => Sys2Proof.Machine.execAddMemReg s
  | .addRegMem => Sys2Proof.Machine.execAddRegMem s
  | .addImmReg => Sys2Proof.Machine.execAddImmReg s
  | .subRegReg => Sys2Proof.Machine.execSubRegReg s
  | .subMemReg => Sys2Proof.Machine.execSubMemReg s
  | .subRegMem => Sys2Proof.Machine.execSubRegMem s
  | .subImmReg => Sys2Proof.Machine.execSubImmReg s
  | .moveRegReg => Sys2Proof.Machine.execMoveRegReg s
  | .moveMemReg => Sys2Proof.Machine.execMoveMemReg s
  | .moveRegMem => Sys2Proof.Machine.execMoveRegMem s
  | .moveImmReg => Sys2Proof.Machine.execMoveImmReg s
  | .inc => Sys2Proof.Machine.execInc s
  | .jmp => Sys2Proof.Machine.execJmp s
  | .jz => Sys2Proof.Machine.execJz s
  | .jn => Sys2Proof.Machine.execJn s
  | .jeq => Sys2Proof.Machine.execJeq s
  | .jneq => Sys2Proof.Machine.execJneq s
  | .jgt => Sys2Proof.Machine.execJgt s
  | .jlw => Sys2Proof.Machine.execJlw s
  | .call => Sys2Proof.Machine.execCall s
  | .ret => Sys2Proof.Machine.execRet s

end Sys2Proof.Machine
end

