-- ==== Sys2Proof/Decode.lean ====
section
/-! DEFINITION. The opcode map, decoding and encoding (spec/30_encoding.md). -/

namespace Sys2Proof

/-- `OPCODE_MAP(mnemonic)` (30_encoding R59). -/
def Instr.opcodeWord {w : Nat} (m : OpcodeMap w) : Instr → Word w
  | .addRegReg => m.addRegReg
  | .addMemReg => m.addMemReg
  | .addRegMem => m.addRegMem
  | .addImmReg => m.addImmReg
  | .subRegReg => m.subRegReg
  | .subMemReg => m.subMemReg
  | .subRegMem => m.subRegMem
  | .subImmReg => m.subImmReg
  | .moveRegReg => m.moveRegReg
  | .moveMemReg => m.moveMemReg
  | .moveRegMem => m.moveRegMem
  | .moveImmReg => m.moveImmReg
  | .inc => m.inc
  | .jmp => m.jmp
  | .jz => m.jz
  | .jn => m.jn
  | .jeq => m.jeq
  | .jneq => m.jneq
  | .jgt => m.jgt
  | .jlw => m.jlw
  | .call => m.call
  | .ret => m.ret

/-- The operand kinds of an instruction, in order (30_encoding R54, R57, R58). -/
def Instr.operandKinds : Instr → List OperandKind
  | .addRegReg => [.register, .register]
  | .addMemReg => [.memory, .register]
  | .addRegMem => [.register, .memory]
  | .addImmReg => [.immediate, .register]
  | .subRegReg => [.register, .register]
  | .subMemReg => [.memory, .register]
  | .subRegMem => [.register, .memory]
  | .subImmReg => [.immediate, .register]
  | .moveRegReg => [.register, .register]
  | .moveMemReg => [.memory, .register]
  | .moveRegMem => [.register, .memory]
  | .moveImmReg => [.immediate, .register]
  | .inc => [.register]
  | .jmp => [.target]
  | .jz => [.target]
  | .jn => [.target]
  | .jeq => [.register, .register, .target]
  | .jneq => [.register, .register, .target]
  | .jgt => [.register, .register, .target]
  | .jlw => [.register, .register, .target]
  | .call => [.target]
  | .ret => []

/-- `k`, the number of operand words (30_encoding R54, R56). -/
def Instr.operandCount (i : Instr) : Nat := i.operandKinds.length

/-- Why a list of words is not read as an instruction. -/
inductive DecodeError (w : Nat) where
  /-- There is no opcode word to read. -/
  | noOpcodeWord
  /-- The opcode word is outside `OPCODE_MAP` (30_encoding R61): the machine halts on it. -/
  | unknownOpcode (x : Word w)
  /-- Fewer than `k` words follow the opcode word of `op` (30_encoding R53; log 15). -/
  | missingOperands (op : Instr)
  deriving DecidableEq, Repr

/-- DECODE: the mnemonic whose word an opcode word is, or none for a word outside `OPCODE_MAP`. All bits of the word
are compared (30_encoding R56, R60, R61). -/
def decode {w : Nat} (m : OpcodeMap w) (x : Word w) : Option Instr := Instr.all.find? fun i => i.opcodeWord m == x

/-- The instruction that a list of words starts with, its operand words, and the words left over
(30_encoding R53, R56). -/
def decodeWords {w : Nat} (m : OpcodeMap w) : List (Word w) → Except (DecodeError w) (Assembled w × List (Word w))
  | [] => .error .noOpcodeWord
  | x :: xs =>
    match decode m x with
    | none => .error (.unknownOpcode x)
    | some op =>
      if op.operandCount ≤ xs.length then
        .ok (⟨op, xs.take op.operandCount⟩, xs.drop op.operandCount)
      else .error (.missingOperands op)

/-- The words of an instruction: the opcode word and then its operand words (30_encoding R53). -/
def encode {w : Nat} (m : OpcodeMap w) (x : Assembled w) : List (Word w) := x.op.opcodeWord m :: x.operands

/-- Word `i`, `w` bits wide, of an instruction whose low `nbits` bits are those of `bits`, the first word lowest. -/
def tableWord (w nbits bits i : Nat) : Word w := BitVec.ofNat w (bits % 2 ^ nbits / 2 ^ (w * i))

/-- The four words (the longest instruction, 30_encoding R63) of an instruction whose low `nbits` bits are those of `bits`
and whose other bits are zero. -/
def tableWords (w nbits bits : Nat) : List (Word w) :=
  [tableWord w nbits bits 0, tableWord w nbits bits 1, tableWord w nbits bits 2, tableWord w nbits bits 3]

/-- The instruction the decoder reads from an instruction whose bits are `w`, numbered as the opcode table
numbers them, under the default parameters. -/
def decodeTableWord (nbits w : Nat) : Option Instr :=
  match decodeWords Params.default.opcodeMap (tableWords Params.default.wordBits nbits w) with
  | .ok (x, _) => some x.op
  | .error _ => none

end Sys2Proof
end

