-- ==== Sys2Proof/Machine/Fetch.lean ====
section
/-! DEFINITION. FETCH, and placing an instruction where the next FETCH reads (spec/41_control_unit.md R88). -/

namespace Sys2Proof.Machine

variable {p : Params}

/-- FETCH: `PC.read(); Memory.read(); IR.store()` (40_datapath R86, 41_control_unit R88), with `a = pc`. -/
def fetch : Micro p Unit := do
  let s ← get
  modify (·.portRead .pc)
  memoryRead s.regs.pc
  modify (·.portStore .ir)

/-- The state with another control state. -/
def CoreState.withCtrl (s : CoreState p) (c : ControlState p.wordBits) : CoreState p := { s with ctrl := c }

/-- Where the next FETCH can read: pc, or the reset vector where pc is outside memory (log 13). -/
def fetchBase (s : CoreState p) : p.Word := if inMemory s.regs.pc then s.regs.pc else 0

/-- Store words at consecutive addresses from `addr`; a word with no place in memory is dropped (log 13). -/
def pokeWords (s : CoreState p) (addr : p.Word) : List p.Word → CoreState p
  | [] => s
  | x :: xs => pokeWords (s.poke addr x) (addr + 1) xs

/-- The state in FETCH with an instruction's four words where that FETCH reads: what the loader, or the host before a
run, would have placed (70_reset_and_hazards R148, R154; log 12, log 13). -/
def placeInstruction (s : CoreState p) (nbits bits : Nat) : CoreState p :=
  let base := fetchBase s
  let placed := pokeWords s base (tableWords p.wordBits nbits bits)
  { placed with ctrl := .fetch, regs := placed.regs.set .pc base }

end Sys2Proof.Machine
end

