-- ==== Sys2Proof/Machine/ControlUnit.lean ====
section
/-! DEFINITION. DECODE and what follows it (spec/41_control_unit.md R89, R90). -/

namespace Sys2Proof.Machine

/-- DECODE (41_control_unit R89), then EXECUTE or HALT. DECODE reads IR's stored word (90_conflicts C3). -/
def decodeAndExecute (s : State) : Host.Outcome State Fault Refusal :=
  match decode s.params.opcodeMap s.core.regs.ir with
  | some i => exec i ⟨s.params, s.core.withCtrl .execute⟩
  | none => .next ⟨s.params, s.core.enterHalt⟩

end Sys2Proof.Machine
end

