-- ==== Sys2Proof/Machine/Step.lean ====
section
/-! DEFINITION. One step: one pass of FETCH, DECODE and EXECUTE (spec/41_control_unit.md R87 to R90). -/

namespace Sys2Proof.Machine

/-- One step: an instruction, from FETCH to the next FETCH, to HALT or to FAULT (41_control_unit R87, R101). HALT and
FAULT are terminal (R87; log 6). A state in DECODE or EXECUTE, which no instruction boundary has, goes on from DECODE
(log 10). -/
def step (s : State) : Host.Outcome State Fault Refusal :=
  match s.core.ctrl with
  | .halt => .fault .halted
  | .fault record => .fault (.faulted record.kind record.value.toInt record.addr.toInt)
  | .decode => decodeAndExecute s
  | .execute => decodeAndExecute s
  | .fetch =>
    match fetch s.core with
    | .ok _ t => decodeAndExecute ⟨s.params, t.withCtrl .decode⟩
    | .error record t => .next ⟨s.params, t.enterFault record⟩

/-- The state with an instruction's words where `step` fetches its next instruction. -/
def State.withFetchWord (s : State) (nbits w : Nat) : State := ⟨s.params, placeInstruction s.core nbits w⟩

end Sys2Proof.Machine
end

