-- ==== Sys2Proof/Machine/Errors.lean ====
section
/-! DEFINITION. The table of error kinds (spec/60_exceptions.md R132). -/

namespace Sys2Proof.Machine

/-- The numeric code of a kind (60_exceptions R132). -/
def ErrorKind.code : ErrorKind → Nat
  | .unknownOpcode => 1
  | .outOfBoundsAddress => 2
  | .stackOverflow => 3
  | .stackUnderflow => 4
  | .invalidRegisterIndex => 5
  | .memoryProtocolError => 6
  | .malformedProgramImage => 7

/-- The class of a kind (60_exceptions R132). -/
inductive ErrorClass where
  | halt | fatalFault | loadTimeFatal
  deriving DecidableEq, Repr

/-- The class column of 60_exceptions R132. -/
def ErrorKind.errorClass : ErrorKind → ErrorClass
  | .unknownOpcode => .halt
  | .outOfBoundsAddress => .fatalFault
  | .stackOverflow => .fatalFault
  | .stackUnderflow => .fatalFault
  | .invalidRegisterIndex => .fatalFault
  | .memoryProtocolError => .fatalFault
  | .malformedProgramImage => .loadTimeFatal

end Sys2Proof.Machine
end

