-- ==== Sys2Proof/Machine/Loader.lean ====
section
/-! DEFINITION. The state a program image leaves (spec/70_reset_and_hazards.md R147 to R149). The image's text form is out
of scope (spec/00_scope.md R5). -/

namespace Sys2Proof.Machine

/-- A program image, `IMAGE` and `STACK_INIT` of 00_scope R6: its `(address, value)` pairs and the initial stack pointer of
its last line (70_reset_and_hazards R148, R149). -/
structure Image (w : Nat) where
  pairs : List (Word w × Word w)
  stackInit : Word w
  deriving DecidableEq, Repr

/-- What loading an image answers. -/
inductive LoadOutcome (p : Params) where
  /-- The run may start from this state. -/
  | loaded (s : CoreState p)
  /-- A pair's address lies outside memory: an image error, and no run starts (70_reset_and_hazards R148). The kind is
  MalformedProgramImage and the diagnostic holds the address (60_exceptions R132; log 14). -/
  | malformed (kind : ErrorKind) (addr : p.Word)
  deriving DecidableEq, Repr

/-- The pairs before the sentinel, which ends the list on the value side (70_reset_and_hazards R148; log 14). -/
def imagePairs {w : Nat} (sentinel : Word w) : List (Word w × Word w) → List (Word w × Word w)
  | [] => []
  | (addr, v) :: rest => if v = sentinel then [] else (addr, v) :: imagePairs sentinel rest

/-- Store the pairs in order, so that a repeated address keeps its last value; the address of the first pair outside memory,
where there is one (70_reset_and_hazards R148). -/
def loadPairs {p : Params} (m : Memory) : List (p.Word × p.Word) → Except p.Word Memory
  | [] => .ok m
  | (addr, v) :: rest => if inMemory addr then loadPairs (m.write addr v) rest else .error addr

/-- The reset sequence with an image (70_reset_and_hazards R147): reset values, then the image's words, then StackTop and
StackBottom from its last line, then FETCH at 0. -/
def load {p : Params} (image : Image p.wordBits) : LoadOutcome p :=
  match loadPairs [] (imagePairs p.imageSentinel image.pairs) with
  | .ok m => .loaded { CoreState.resetWith image.stackInit with mem := m }
  | .error addr => .malformed .malformedProgramImage addr

end Sys2Proof.Machine
end

