-- ==== Sys2Proof/WellFormed.lean ====
section
/-! DEFINITION. When an instruction with its operand words is well formed (spec/30_encoding.md R54, R55). -/

namespace Sys2Proof

/-- What 30_encoding R55 asks of an operand word of each kind: a register index lies in `[0, NUM_REGS)`; a memory
address, an immediate and a target may be any word (an address is checked when it is accessed). -/
def OperandKind.admits {w : Nat} : OperandKind → Word w → Bool
  | .register, x => decide (x.toNat < Config.numRegs)
  | .memory, _ => true
  | .immediate, _ => true
  | .target, _ => true

/-- Each operand word is one its kind admits, and there are as many words as kinds. -/
def operandsAdmitted {w : Nat} : List OperandKind → List (Word w) → Bool
  | [], [] => true
  | k :: ks, x :: xs => k.admits x && operandsAdmitted ks xs
  | _, _ => false

/-- Well formed: `k` operand words (30_encoding R54), each admitted by its kind (R55). -/
def Assembled.wellFormed {w : Nat} (x : Assembled w) : Bool := operandsAdmitted x.op.operandKinds x.operands

end Sys2Proof
end

