-- ==== Sys2Proof/Safety.lean ====
section
/-! DEFINITION. What a claim may say of a state and of a run: the invariant of the machine at an instruction boundary, the
end of a run, and a run under fuel. -/

namespace Sys2Proof.Machine

variable {p : Params}

/-- The memory interface awaits an address, as at every instruction boundary (10_state R36, 40_datapath R84). -/
abbrev CoreState.Idle (s : CoreState p) : Prop := s.dp.memPhase = .awaitingAddress

/-- What a fault record can say, beside the registers that the fault left (60_exceptions R132, R133): a kind the
microprograms raise, a value that breaks the rule of that kind, and an address in memory or, for a fetch fault, the value
itself. -/
def FaultRecord.sound (r : FaultRecord p.wordBits) (x : RegFile p.wordBits) : Bool :=
  (match r.kind with
    | .outOfBoundsAddress => !inMemory r.value
    | .stackOverflow => r.value == x.stackTop && r.value.slt p.stackLow
    | .stackUnderflow => r.value == x.stackTop && !r.value.slt x.stackBottom
    | .invalidRegisterIndex => (RegName.ofIndex r.value).isNone
    | _ => false) &&
  (inMemory r.addr || (r.kind == .outOfBoundsAddress && r.value == r.addr))

/-- What the control state says of the rest of the state: in HALT pc is at the unrecognised word that IR holds
(41_control_unit R89); in FAULT the record is sound (60_exceptions R133). DECODE and EXECUTE are no boundary's (R101). -/
def CoreState.ctrlSound (s : CoreState p) : Prop :=
  match s.ctrl with
  | .fetch => True
  | .halt => inMemory s.regs.pc ∧ s.regs.ir = s.mem.read s.regs.pc ∧ decode p.opcodeMap s.regs.ir = none
  | .fault record => record.sound s.regs
  | .decode => False
  | .execute => False

/-- The invariant of an instruction boundary: canonical memory inside its address space (20_memory R42), the memory
interface awaiting an address (40_datapath R84), and a boundary's control state that tells the truth. -/
structure CoreState.Inv (s : CoreState p) : Prop where
  memoryCanonical : s.mem.wf p = true
  interfaceIdle : s.Idle
  controlSound : s.ctrlSound

/-- The invariant of a machine, whatever its parameters. -/
abbrev State.Inv (s : State) : Prop := s.core.Inv

/-- The state at the next instruction boundary, from registers `x` and memory `M`: the control unit in FETCH, the datapath
as `CoreState.endInstruction` leaves it. -/
def CoreState.continuesWith (s : CoreState p) (x : RegFile p.wordBits) (M : Memory) : CoreState p :=
  ({ s with regs := x, mem := M } : CoreState p).endInstruction .fetch

/-- The state in FAULT with this record, in which pc holds `pc`, every other register is as before, and memory is `M`
(60_exceptions R134): what a fault leaves that comes before the instruction writes any register but pc. -/
def CoreState.faultsWith (s : CoreState p) (record : FaultRecord p.wordBits) (pc : p.Word) (M : Memory) : CoreState p :=
  ({ s with regs := s.regs.set .pc pc, mem := M } : CoreState p).enterFault record

/-- The instructions that store nothing (70_reset_and_hazards R168): register, immediate, inc, jump and ret forms. -/
def storesNothing : Instr → Bool
  | .addRegReg | .addImmReg | .subRegReg | .subImmReg | .moveRegReg | .moveImmReg | .inc => true
  | .jmp | .jz | .jn | .jeq | .jneq | .jgt | .jlw | .ret => true
  | .addMemReg | .addRegMem | .subMemReg | .subRegMem | .moveMemReg | .moveRegMem | .call => false

/-- The run has ended (41_control_unit R103). -/
def State.ended (s : State) : Bool :=
  match s.core.ctrl with
  | .halt => true
  | .fault _ => true
  | _ => false

/-- Up to `n` instructions, stopping at the end of the run; `n` is fuel and no part of the machine (41_control_unit R104,
70_reset_and_hazards R153; log 19). -/
def run : Nat → State → State
  | 0, s => s
  | n + 1, s =>
    match step s with
    | .next t => run n t
    | .fault _ => s
    | .refused _ => s

/-- Two states that differ at most in the control state and in what the buses, the ALU slots, the selector and the latched
address hold, which is not architectural (10_state R36). -/
structure SameButTransients (s t : CoreState p) : Prop where
  regs : s.regs = t.regs
  mem : s.mem = t.mem
  phase : s.dp.memPhase = t.dp.memPhase
  boundaries : s.boundaries = t.boundaries

end Sys2Proof.Machine
end

