-- ==== Sys2Proof/Certificates/Slice0/Obligations.lean ====
section
/-! DEFINITION. The statements for the provers. Each says in its docstring which rule of spec/ it formalises. Throughout,
`p` are the parameters (spec/00_scope.md R6), any that its constraints allow, `⟨p, s⟩` is the machine with these
parameters in state `s`, and `a` is the address of the instruction's opcode word, which is pc when EXECUTE begins. -/

open Sys2Proof Sys2Proof.Machine

/-! ## Encoding -/

/-- 30_encoding R60: an opcode word selects an instruction iff it equals that instruction's word of the opcode map, as a
whole Word. -/
def Obligations.OpcodeSelectsIffEqual : Prop :=
  ∀ (p : Params) (x : p.Word) (i : Instr), decode p.opcodeMap x = some i ↔ x = i.opcodeWord p.opcodeMap

/-- 30_encoding R54, R59, R61, R66: one encoding of every instruction, written out from the format table and the default
opcode map, decoded; what follows an instruction is left over; and the words beside the map. -/
def Obligations.WrittenOutWordsDecode : Prop :=
  let m := OpcodeMap.default 32
  decodeWords m [1, 1, 0] = .ok (⟨.addRegReg, [1, 0]⟩, []) ∧
  decodeWords m [2, 50, 1] = .ok (⟨.addMemReg, [50, 1]⟩, []) ∧
  decodeWords m [3, 0, 60] = .ok (⟨.addRegMem, [0, 60]⟩, []) ∧
  decodeWords m [4, -7, 3] = .ok (⟨.addImmReg, [-7, 3]⟩, []) ∧
  decodeWords m [5, 8, 4] = .ok (⟨.subRegReg, [8, 4]⟩, []) ∧
  decodeWords m [6, -1, 2] = .ok (⟨.subMemReg, [-1, 2]⟩, []) ∧
  decodeWords m [7, 6, 127] = .ok (⟨.subRegMem, [6, 127]⟩, []) ∧
  decodeWords m [8, 10, 2] = .ok (⟨.subImmReg, [10, 2]⟩, []) ∧
  decodeWords m [9, 2, 3] = .ok (⟨.moveRegReg, [2, 3]⟩, []) ∧
  decodeWords m [10, 30, 0] = .ok (⟨.moveMemReg, [30, 0]⟩, []) ∧
  decodeWords m [11, 0, 100] = .ok (⟨.moveRegMem, [0, 100]⟩, []) ∧
  decodeWords m [12, 3, 6] = .ok (⟨.moveImmReg, [3, 6]⟩, []) ∧
  decodeWords m [13, 3] = .ok (⟨.inc, [3]⟩, []) ∧
  decodeWords m [14, 6] = .ok (⟨.jmp, [6]⟩, []) ∧
  decodeWords m [15, 9] = .ok (⟨.jz, [9]⟩, []) ∧
  decodeWords m [16, 50] = .ok (⟨.jn, [50]⟩, []) ∧
  decodeWords m [17, 0, 1, 40] = .ok (⟨.jeq, [0, 1, 40]⟩, []) ∧
  decodeWords m [18, 2, 2, 20] = .ok (⟨.jneq, [2, 2, 20]⟩, []) ∧
  decodeWords m [19, 0, 1, -3] = .ok (⟨.jgt, [0, 1, -3]⟩, []) ∧
  decodeWords m [20, 7, 8, 20] = .ok (⟨.jlw, [7, 8, 20]⟩, []) ∧
  decodeWords m [21, 10] = .ok (⟨.call, [10]⟩, []) ∧
  decodeWords m [22] = .ok (⟨.ret, []⟩, []) ∧
  decodeWords m [10, 30, 0, 2, 31, 0] = .ok (⟨.moveMemReg, [30, 0]⟩, [2, 31, 0]) ∧
  decodeWords m [0] = .error (.unknownOpcode 0) ∧
  decodeWords m [23] = .error (.unknownOpcode 23) ∧
  decodeWords m [-1] = .error (.unknownOpcode (-1))

/-- 30_encoding R53 to R56: for every well-formed instruction, all 22, with every operand at every value its encoding
admits, under every opcode map, decoding its words gives it back, and leaves the words after it alone. -/
def Obligations.DecodeOfEncodeIsIdentity : Prop :=
  ∀ (p : Params) (x : Assembled p.wordBits) (rest : List p.Word), x.wellFormed = true →
    decodeWords p.opcodeMap (encode p.opcodeMap x ++ rest) = .ok (x, rest)

/-- 30_encoding R53, R56: what is decoded from a list of words is written with exactly those words, and has `k` operand
words. -/
def Obligations.EncodeOfDecodeIsIdentity : Prop :=
  ∀ (p : Params) (ws rest : List p.Word) (x : Assembled p.wordBits), decodeWords p.opcodeMap ws = .ok (x, rest) →
    encode p.opcodeMap x ++ rest = ws ∧ x.operands.length = x.op.operandCount

/-! ## The instruction cycle -/

/-- 40_datapath R86: FETCH is `PC.read(); Memory.read(); IR.store()`, and pcAdvance is `PC.internalRead();
ALU.internalStore(1); ALU.inc(); ALU.internalRead(1); PC.internalStore()`, which adds one to pc, leaves intbus2 and slot 1
holding the new pc, and changes nothing else. -/
def Obligations.FetchAndAdvanceMicroSequences : Prop :=
  ∀ p : Params,
  (∀ s t : CoreState p, memoryRead s.regs.pc (s.portRead .pc) = .ok () t → fetch s = .ok () (t.portStore .ir)) ∧
  (∀ (s t : CoreState p) (r : FaultRecord p.wordBits),
    memoryRead s.regs.pc (s.portRead .pc) = .error r t → fetch s = .error r t) ∧
  (∀ s : CoreState p, advance s =
    .ok () (((((s.internalRead .pc).aluInternalStore .slot1).aluInc).aluInternalRead .slot1).internalStore .pc)) ∧
  (∀ s : CoreState p, advance s = .ok ()
    { s with
      regs := s.regs.set .pc (s.regs.pc + 1)
      dp := { s.dp with intbus2 := s.regs.pc + 1, aluSlot1 := s.regs.pc + 1 } })

/-- 41_control_unit R88: FETCH writes the opcode word into IR, leaves pc at the opcode address, and changes no other
register and no memory; where pc is outside memory it raises OutOfBoundsAddress with `value = a`. -/
def Obligations.FetchReadsOpcodeIntoIr : Prop :=
  ∀ (p : Params) (s : CoreState p), s.Idle →
    (inMemory s.regs.pc = true → ∃ t, fetch s = .ok () t ∧
      t.regs = s.regs.set .ir (s.mem.read s.regs.pc) ∧ t.regs.pc = s.regs.pc ∧ t.mem = s.mem ∧ t.ctrl = s.ctrl) ∧
    (inMemory s.regs.pc = false → ∃ t,
      fetch s = .error ⟨.outOfBoundsAddress, s.regs.pc, s.regs.pc⟩ t ∧ t.regs = s.regs ∧ t.mem = s.mem)

/-- 41_control_unit R87 to R90: where the word at pc decodes to `i`, a step is `exec i`, in the state FETCH leaves (IR and
the external bus hold the word) with the control unit in EXECUTE. -/
def Obligations.StepRunsDecodedInstruction : Prop :=
  ∀ (p : Params) (s : CoreState p) (x : p.Word) (i : Instr), s.Idle → s.ctrl = .fetch → s.peek s.regs.pc = some x →
    decode p.opcodeMap x = some i →
    step ⟨p, s⟩ = exec i ⟨p, { s with
      regs := s.regs.set .ir x
      dp := { s.dp with extbus := x }
      ctrl := .execute }⟩

/-- 30_encoding R61: the words outside the opcode map, which under the default map are all but 1 to 22; DECODE halts on
them. UnknownOpcode is a halt and no fault: pc stays at the word, IR holds it, and no other register and no memory word
changes (41_control_unit R89). -/
def Obligations.UnrecognizedWordHalts : Prop :=
  (∀ (p : Params) (x : p.Word), decode p.opcodeMap x = none ↔ ∀ i : Instr, x ≠ i.opcodeWord p.opcodeMap) ∧
  (∀ (w : Nat) (x : Word w), 32 ≤ w → (decode (OpcodeMap.default w) x = none ↔ x.toInt < 1 ∨ 22 < x.toInt)) ∧
  ErrorKind.unknownOpcode.errorClass = .halt ∧
  ∀ (p : Params) (s : CoreState p) (x : p.Word), s.Idle → s.ctrl = .fetch → s.peek s.regs.pc = some x →
    decode p.opcodeMap x = none →
    ∃ t : CoreState p, step ⟨p, s⟩ = .next ⟨p, t⟩ ∧ t.ctrl = .halt ∧ t.regs = s.regs.set .ir x ∧ t.regs.pc = s.regs.pc ∧
      t.mem = s.mem

/-- 41_control_unit R88, 20_memory R42: a step whose fetch is outside memory enters FAULT with the record
`(OutOfBoundsAddress, a, a)`, and changes no register and no memory. -/
def Obligations.FetchOutsideMemoryFaults : Prop :=
  ∀ (p : Params) (s : CoreState p), s.Idle → s.ctrl = .fetch → s.peek s.regs.pc = none →
    ∃ t : CoreState p, step ⟨p, s⟩ = .next ⟨p, t⟩ ∧
      t.ctrl = .fault ⟨.outOfBoundsAddress, s.regs.pc, s.regs.pc⟩ ∧ t.regs = s.regs ∧ t.mem = s.mem

/-- 41_control_unit R87: HALT and FAULT are terminal; the machine takes no further step (that `step` answers these named
stops is the model's reading, log 6). -/
def Obligations.TerminalStatesTakeNoStep : Prop :=
  ∀ (p : Params) (s : CoreState p), (s.ctrl = .halt → step ⟨p, s⟩ = .fault .halted) ∧
    (∀ r, s.ctrl = .fault r → step ⟨p, s⟩ = .fault (.faulted r.kind r.value.toInt r.addr.toInt))

/-- 60_exceptions R134: no instruction stops the model: executing it always answers a next state, from every state; a fatal
error is the entry into FAULT. -/
def Obligations.ExecutionAlwaysAnswersNext : Prop :=
  ∀ (p : Params) (i : Instr) (s : CoreState p),
    ∃ t : CoreState p, exec i ⟨p, s⟩ = .next ⟨p, t⟩ ∧ (t.ctrl = .fetch ∨ ∃ r, t.ctrl = .fault r)

/-- 00_scope R6: the parameters belong to the machine, and no instruction and no step changes them. -/
def Obligations.ParametersNeverChange : Prop :=
  (∀ (i : Instr) (s t : State), exec i s = .next t → t.params = s.params) ∧
  (∀ s t : State, step s = .next t → t.params = s.params)

/-- 00_scope R6: the values this spec gives the parameters, at which `State.reset` stands (log 1), and the constraints,
which hold of every machine's. -/
def Obligations.ParameterDefaultsAndConstraints : Prop :=
  (State.reset.params = Params.default ∧ Params.default.wordBits = 32 ∧ Params.default.memorySize = 128 ∧
    Config.numRegs = 9 ∧ (∀ (n : Nat) (i : Instr), Instr.all[n]? = some i →
      (i.opcodeWord Params.default.opcodeMap).toNat = n + 1) ∧
    Params.default.stackLow.toInt = 0 ∧ Params.default.imageSentinel.toInt = -1) ∧
  ∀ p : Params, 32 ≤ p.wordBits ∧ 1 ≤ p.memorySize ∧ p.memorySize < 2 ^ (p.wordBits - 1) ∧
    (∀ i j : Instr, i.opcodeWord p.opcodeMap = j.opcodeWord p.opcodeMap → i = j) ∧ 0 ≤ p.stackLow.toInt

/-! ## Components and primitives -/

/-- 40_datapath R73: `getBit` and `setBit`, for the two flag bits only, each 0 or 1: bit 0 is ZERO and bit 1 is NEGATIVE;
`getBit` returns that bit, `setBit` sets it, and no other bit of the word changes. -/
def Obligations.FlagBitAccess : Prop :=
  ∀ (p : Params) (f : p.Word) (v : Bool),
    getFlag f .zero = f.getLsbD 0 ∧ getFlag f .negative = f.getLsbD 1 ∧
    (∀ n, (setFlag f .zero v).getLsbD n = if n = 0 then v else f.getLsbD n) ∧
    (∀ n, (setFlag f .negative v).getLsbD n = if n = 1 then v else f.getLsbD n)

/-- 41_control_unit R96: SetFlags makes Z say that the result is zero and N that it is negative, never both, and changes no
other bit of Flags and no other register. -/
def Obligations.SetFlagsFromResult : Prop :=
  ∀ (p : Params) (x : RegFile p.wordBits) (v : p.Word),
    (getFlag (x.setFlags v).flags .zero = true ↔ v = 0) ∧
    (getFlag (x.setFlags v).flags .negative = true ↔ v.toInt < 0) ∧
    ¬ (getFlag (x.setFlags v).flags .zero = true ∧ getFlag (x.setFlags v).flags .negative = true) ∧
    (∀ n, 2 ≤ n → (x.setFlags v).flags.getLsbD n = x.flags.getLsbD n) ∧
    (∀ q, q ≠ .flags → (x.setFlags v).get q = x.get q)

/-- 40_datapath R70, R71, R74, R75: a register's `read` and `store` act on extbus and its `internalRead` and
`internalStore` on the segment of its internal port, which is intbus2 for PC and what `WIRING` says for the others (R68);
the ALU's `store` takes a slot from intbus1 and its `internalStore` from intbus2, its `read` drives intbus1 with a slot
and its `internalRead` intbus2. Nothing else changes. -/
def Obligations.PortTransfers : Prop :=
  ∀ (p : Params) (s : CoreState p),
    (∀ r : RegName, s.portRead r = { s with dp := { s.dp with extbus := s.regs.get r } } ∧
      s.portStore r = { s with regs := s.regs.set r s.dp.extbus }) ∧
    (∀ port : InternalPort,
      s.internalRead port = { s with dp := s.dp.put (port.bus p.wiring) (s.regs.get port.register) } ∧
      s.internalStore port = { s with regs := s.regs.set port.register (s.dp.get (port.bus p.wiring)) }) ∧
    InternalPort.pc.bus p.wiring = .int2 ∧ InternalPort.pc.register = .pc ∧
    s.aluStore .slot0 = { s with dp := { s.dp with aluSlot0 := s.dp.intbus1 } } ∧
    s.aluStore .slot1 = { s with dp := { s.dp with aluSlot1 := s.dp.intbus1 } } ∧
    s.aluInternalStore .slot0 = { s with dp := { s.dp with aluSlot0 := s.dp.intbus2 } } ∧
    s.aluInternalStore .slot1 = { s with dp := { s.dp with aluSlot1 := s.dp.intbus2 } } ∧
    s.aluRead .slot0 = { s with dp := { s.dp with intbus1 := s.dp.aluSlot0 } } ∧
    s.aluRead .slot1 = { s with dp := { s.dp with intbus1 := s.dp.aluSlot1 } } ∧
    s.aluInternalRead .slot0 = { s with dp := { s.dp with intbus2 := s.dp.aluSlot0 } } ∧
    s.aluInternalRead .slot1 = { s with dp := { s.dp with intbus2 := s.dp.aluSlot1 } }

/-- 40_datapath R76, 00_scope R8: the ALU's operations on its slots, in Word arithmetic: the result is the wrapped sum,
difference or increment of the signed values, slot 0 (the minuend) stays, and no register, memory word or bus changes. -/
def Obligations.AluComputesOnSlots : Prop :=
  ∀ (p : Params) (s : CoreState p),
    (s.aluOperate .add).dp = { s.dp with aluSlot1 := s.dp.aluSlot0 + s.dp.aluSlot1 } ∧
    (s.aluOperate .sub).dp = { s.dp with aluSlot1 := s.dp.aluSlot0 - s.dp.aluSlot1 } ∧
    s.aluInc.dp = { s.dp with aluSlot1 := s.dp.aluSlot1 + 1 } ∧
    (s.aluOperate .add).dp.aluSlot1.toInt = (s.dp.aluSlot0.toInt + s.dp.aluSlot1.toInt).bmod (2 ^ p.wordBits) ∧
    (s.aluOperate .sub).dp.aluSlot1.toInt = (s.dp.aluSlot0.toInt - s.dp.aluSlot1.toInt).bmod (2 ^ p.wordBits) ∧
    s.aluInc.dp.aluSlot1.toInt = (s.dp.aluSlot1.toInt + 1).bmod (2 ^ p.wordBits) ∧
    (∀ op, (s.aluOperate op).regs = s.regs ∧ (s.aluOperate op).mem = s.mem) ∧
    s.aluInc.regs = s.regs ∧ s.aluInc.mem = s.mem

/-- 40_datapath R80, R81, R82: the memory interface's `store()` takes an address, then data; `read()` is one call that
leaves the phase, and is a protocol violation in the data phase. That an address which fails the check is in the latch at
the raise follows R80's text and not R83's "latches nothing": the model's choice (log 9). -/
def Obligations.MemoryInterfacePhases : Prop :=
  ∀ (p : Params) (s : CoreState p) (a : p.Word),
    (s.dp.memPhase = .awaitingAddress → inMemory s.dp.extbus = true →
      memoryStore a s = .ok ()
        { s with dp := { s.dp with latchedAddress := s.dp.extbus, memPhase := .awaitingData } }) ∧
    (s.dp.memPhase = .awaitingAddress → inMemory s.dp.extbus = false →
      memoryStore a s = .error ⟨.outOfBoundsAddress, s.dp.extbus, a⟩
        { s with dp := { s.dp with latchedAddress := s.dp.extbus } }) ∧
    (s.dp.memPhase = .awaitingData →
      memoryStore a s = .ok ()
        { s with
          mem := s.mem.write s.dp.latchedAddress s.dp.extbus
          dp := { s.dp with memPhase := .awaitingAddress } }) ∧
    (s.dp.memPhase = .awaitingAddress → inMemory s.dp.extbus = true →
      memoryRead a s = .ok () { s with dp := { s.dp with extbus := s.mem.read s.dp.extbus } }) ∧
    (s.dp.memPhase = .awaitingAddress → inMemory s.dp.extbus = false →
      memoryRead a s = .error ⟨.outOfBoundsAddress, s.dp.extbus, a⟩ s) ∧
    (s.dp.memPhase = .awaitingData →
      memoryRead a s = .error ⟨.memoryProtocolError, s.dp.latchedAddress, a⟩ s)

/-- 20_memory R42: an access is legal iff its address, as a signed number, lies in `[0, MEMORY_SIZE)`; an illegal one raises
OutOfBoundsAddress, changes no memory and no register, and returns nothing. -/
def Obligations.AccessIsBoundsChecked : Prop :=
  ∀ (p : Params) (s : CoreState p) (a addr v : p.Word), s.Idle →
    (0 ≤ addr.toInt ∧ addr.toInt < p.memorySize →
      (∃ t, memRead a addr s = .ok (s.mem.read addr) t ∧ t.regs = s.regs ∧ t.mem = s.mem ∧ t.Idle) ∧
      (∃ t, memWrite a addr v s = .ok () t ∧ t.regs = s.regs ∧ t.mem = s.mem.write addr v ∧ t.Idle)) ∧
    (¬ (0 ≤ addr.toInt ∧ addr.toInt < p.memorySize) →
      (∃ t, memRead a addr s = .error ⟨.outOfBoundsAddress, addr, a⟩ t ∧ t.regs = s.regs ∧ t.mem = s.mem) ∧
      (∃ t, memWrite a addr v s = .error ⟨.outOfBoundsAddress, addr, a⟩ t ∧ t.regs = s.regs ∧ t.mem = s.mem))

/-- 20_memory R44, R47: a word written is read back, every other word and every byte outside it stays, and the memory keeps
its canonical form. -/
def Obligations.WriteThenReadMemory : Prop :=
  ∀ (p : Params) (M : Memory) (addr v : p.Word), M.wf p = true → inMemory addr = true →
    (M.write addr v).read addr = v ∧
    (∀ other, other ≠ addr → (M.write addr v).read other = M.read other) ∧
    (∀ n, n / wordBytes p.wordBits ≠ addr.toNat → (M.write addr v).byte n = M.byte n) ∧
    (M.write addr v).wf p = true

/-- 41_control_unit R95: right after a register operand word is read, and before the index is used, an index outside
`[0, 9)` raises InvalidRegisterIndex; any other is one of the nine registers' indices. -/
def Obligations.RegisterOperandIsChecked : Prop :=
  ∀ (p : Params) (s : CoreState p) (a w : p.Word), s.Idle → s.peek s.regs.pc = some w →
    ((0 ≤ w.toInt ∧ w.toInt < 9) →
      ∃ t, registerOperand a s = .ok w t ∧ t.regs = s.regs ∧ t.mem = s.mem ∧ ∃ r : RegName, w = r.index) ∧
    (¬ (0 ≤ w.toInt ∧ w.toInt < 9) →
      ∃ t, registerOperand a s = .error ⟨.invalidRegisterIndex, w, a⟩ t ∧ t.regs = s.regs ∧ t.mem = s.mem)

/-- 46_call_ret R126: push checks StackTop against `STACK_LOW`, writes the word at StackTop, and then decrements StackTop;
the write is checked against memory. -/
def Obligations.PushWritesThenDecrements : Prop :=
  ∀ (p : Params) (s : CoreState p) (a v : p.Word), s.Idle →
    (s.regs.stackTop.slt p.stackLow = true →
      ∃ t, push a v s = .error ⟨.stackOverflow, s.regs.stackTop, a⟩ t ∧ t.regs = s.regs ∧ t.mem = s.mem) ∧
    (s.regs.stackTop.slt p.stackLow = false → inMemory s.regs.stackTop = false →
      ∃ t, push a v s = .error ⟨.outOfBoundsAddress, s.regs.stackTop, a⟩ t ∧ t.regs = s.regs ∧ t.mem = s.mem) ∧
    (s.regs.stackTop.slt p.stackLow = false → inMemory s.regs.stackTop = true →
      ∃ t, push a v s = .ok () t ∧ t.regs = s.regs.set .stackTop (s.regs.stackTop - 1) ∧
        t.mem = s.mem.write s.regs.stackTop v)

/-- 46_call_ret R127: pop raises StackUnderflow where StackTop is not below StackBottom; else it reads the word above
StackTop and increments StackTop, which stays where the read is out of bounds. -/
def Obligations.PopIncrementsThenReads : Prop :=
  ∀ (p : Params) (s : CoreState p) (a : p.Word), s.Idle →
    (s.regs.stackTop.slt s.regs.stackBottom = false →
      ∃ t, pop a s = .error ⟨.stackUnderflow, s.regs.stackTop, a⟩ t ∧ t.regs = s.regs ∧ t.mem = s.mem) ∧
    (s.regs.stackTop.slt s.regs.stackBottom = true → inMemory (s.regs.stackTop + 1) = false →
      ∃ t, pop a s = .error ⟨.outOfBoundsAddress, s.regs.stackTop + 1, a⟩ t ∧ t.regs = s.regs ∧ t.mem = s.mem) ∧
    (s.regs.stackTop.slt s.regs.stackBottom = true → inMemory (s.regs.stackTop + 1) = true →
      ∃ t, pop a s = .ok (s.mem.read (s.regs.stackTop + 1)) t ∧
        t.regs = s.regs.set .stackTop (s.regs.stackTop + 1) ∧ t.mem = s.mem)

/-! ## Results: what an instruction that completes does, for every form -/

/-- 42_add_sub R105, R109: add and sub, register to register, for every pair of registers. A read of index 4 gives `a + 2`;
flags, then the write-back, then the exit advance. -/
def Obligations.ArithmeticRegRegResult : Prop :=
  ∀ (p : Params) (s : CoreState p) (src dst : RegName), s.Idle →
    s.peek (s.regs.pc + 1) = some src.index → s.peek (s.regs.pc + 2) = some dst.index →
    let x := s.regs.set .pc (s.regs.pc + 2)
    let added := (x.setFlags (x.get dst + x.get src)).set dst (x.get dst + x.get src)
    let subtracted := (x.setFlags (x.get dst - x.get src)).set dst (x.get dst - x.get src)
    exec .addRegReg ⟨p, s⟩ = .next ⟨p, s.continuesWith (added.set .pc (added.pc + 1)) s.mem⟩ ∧
    exec .subRegReg ⟨p, s⟩ = .next ⟨p, s.continuesWith (subtracted.set .pc (subtracted.pc + 1)) s.mem⟩

/-- 42_add_sub R108, R112: add and sub, immediate to register, for every immediate and every register. -/
def Obligations.ArithmeticImmRegResult : Prop :=
  ∀ (p : Params) (s : CoreState p) (imm : p.Word) (dst : RegName), s.Idle →
    s.peek (s.regs.pc + 1) = some imm → s.peek (s.regs.pc + 2) = some dst.index →
    let x := s.regs.set .pc (s.regs.pc + 2)
    let added := (x.setFlags (x.get dst + imm)).set dst (x.get dst + imm)
    let subtracted := (x.setFlags (x.get dst - imm)).set dst (x.get dst - imm)
    exec .addImmReg ⟨p, s⟩ = .next ⟨p, s.continuesWith (added.set .pc (added.pc + 1)) s.mem⟩ ∧
    exec .subImmReg ⟨p, s⟩ = .next ⟨p, s.continuesWith (subtracted.set .pc (subtracted.pc + 1)) s.mem⟩

/-- 42_add_sub R106, R110: add and sub, memory to register. `M` is the memory once the scratch save has put `a + 1` at
StackTop; the address word, the data word and the register index are read from it, so every aliasing case of
41_control_unit R100 is covered. -/
def Obligations.ArithmeticMemRegResult : Prop :=
  ∀ (p : Params) (s : CoreState p) (dst : RegName), s.Idle → s.mem.wf p = true →
    inMemory s.regs.stackTop = true → inMemory (s.regs.pc + 1) = true → inMemory (s.regs.pc + 2) = true →
    let M := s.mem.write s.regs.stackTop (s.regs.pc + 1)
    inMemory (M.read (s.regs.pc + 1)) = true → M.read (s.regs.pc + 2) = dst.index →
    let v := M.read (M.read (s.regs.pc + 1))
    let x := s.regs.set .pc (s.regs.pc + 2)
    let added := (x.setFlags (x.get dst + v)).set dst (x.get dst + v)
    let subtracted := (x.setFlags (x.get dst - v)).set dst (x.get dst - v)
    exec .addMemReg ⟨p, s⟩ = .next ⟨p, s.continuesWith (added.set .pc (added.pc + 1)) M⟩ ∧
    exec .subMemReg ⟨p, s⟩ = .next ⟨p, s.continuesWith (subtracted.set .pc (subtracted.pc + 1)) M⟩

/-- 42_add_sub R107, R111: add and sub, register to memory. The source is captured before the scratch save puts `a + 2` at
StackTop; `m` is the address word read after it. pc goes on from the word at StackTop, plus 1, which is `a + 3` unless the
store hit the scratch cell (41_control_unit R100). -/
def Obligations.ArithmeticRegMemResult : Prop :=
  ∀ (p : Params) (s : CoreState p) (src : RegName), s.Idle →
    s.peek (s.regs.pc + 1) = some src.index → inMemory (s.regs.pc + 2) = true → inMemory s.regs.stackTop = true →
    let M := s.mem.write s.regs.stackTop (s.regs.pc + 2)
    let m := M.read (s.regs.pc + 2)
    inMemory m = true →
    let x := s.regs.set .pc (s.regs.pc + 2)
    let sum := M.read m + x.get src
    let difference := M.read m - x.get src
    exec .addRegMem ⟨p, s⟩ = .next ⟨p, s.continuesWith
      ((x.setFlags sum).set .pc ((M.write m sum).read s.regs.stackTop + 1)) (M.write m sum)⟩ ∧
    exec .subRegMem ⟨p, s⟩ = .next ⟨p, s.continuesWith
      ((x.setFlags difference).set .pc ((M.write m difference).read s.regs.stackTop + 1)) (M.write m difference)⟩

/-- 43_move R113, R116: the register and immediate moves, for every form; no flag changes but by a destination of index 6,
which is written as data. -/
def Obligations.MoveToRegisterResult : Prop :=
  ∀ (p : Params) (s : CoreState p) (dst : RegName), s.Idle → s.peek (s.regs.pc + 2) = some dst.index →
    let x := s.regs.set .pc (s.regs.pc + 2)
    (∀ src : RegName, s.peek (s.regs.pc + 1) = some src.index →
      let y := x.set dst (x.get src)
      exec .moveRegReg ⟨p, s⟩ = .next ⟨p, s.continuesWith (y.set .pc (y.pc + 1)) s.mem⟩) ∧
    (∀ imm : p.Word, s.peek (s.regs.pc + 1) = some imm →
      let y := x.set dst imm
      exec .moveImmReg ⟨p, s⟩ = .next ⟨p, s.continuesWith (y.set .pc (y.pc + 1)) s.mem⟩)

/-- 43_move R114: the load, with the scratch save; every aliasing case is covered, as in the arithmetic form. -/
def Obligations.MoveMemRegResult : Prop :=
  ∀ (p : Params) (s : CoreState p) (dst : RegName), s.Idle → s.mem.wf p = true →
    inMemory s.regs.stackTop = true → inMemory (s.regs.pc + 1) = true → inMemory (s.regs.pc + 2) = true →
    let M := s.mem.write s.regs.stackTop (s.regs.pc + 1)
    inMemory (M.read (s.regs.pc + 1)) = true → M.read (s.regs.pc + 2) = dst.index →
    let y := (s.regs.set .pc (s.regs.pc + 2)).set dst (M.read (M.read (s.regs.pc + 1)))
    exec .moveMemReg ⟨p, s⟩ = .next ⟨p, s.continuesWith (y.set .pc (y.pc + 1)) M⟩

/-- 43_move R115: the store, with the scratch save; every aliasing case is covered. -/
def Obligations.MoveRegMemResult : Prop :=
  ∀ (p : Params) (s : CoreState p) (src : RegName), s.Idle →
    s.peek (s.regs.pc + 1) = some src.index → inMemory (s.regs.pc + 2) = true → inMemory s.regs.stackTop = true →
    let M := s.mem.write s.regs.stackTop (s.regs.pc + 2)
    let m := M.read (s.regs.pc + 2)
    inMemory m = true →
    let x := s.regs.set .pc (s.regs.pc + 2)
    exec .moveRegMem ⟨p, s⟩ = .next ⟨p, s.continuesWith
      (x.set .pc ((M.write m (x.get src)).read s.regs.stackTop + 1)) (M.write m (x.get src))⟩

/-- 44_inc R117: increment, for every register; index 4 reads `a + 1`. -/
def Obligations.IncResult : Prop :=
  ∀ (p : Params) (s : CoreState p) (r : RegName), s.Idle → s.peek (s.regs.pc + 1) = some r.index →
    let x := s.regs.set .pc (s.regs.pc + 1)
    let y := (x.setFlags (x.get r + 1)).set r (x.get r + 1)
    exec .inc ⟨p, s⟩ = .next ⟨p, s.continuesWith (y.set .pc (y.pc + 1)) s.mem⟩

/-- 45_jumps R119, R120, R121: jmp, jz and jn: their words of the default map, what they do (pc takes the target, or goes
past the operand, and nothing else changes), and their one exception, raised whether or not the branch would be taken. -/
def Obligations.FlagJumpResult : Prop :=
  (Instr.jmp.opcodeWord (OpcodeMap.default 32) = 14 ∧ Instr.jz.opcodeWord (OpcodeMap.default 32) = 15 ∧
    Instr.jn.opcodeWord (OpcodeMap.default 32) = 16 ∧ ∀ i : Instr, i ∈ [.jmp, .jz, .jn] → i.operandKinds = [.target]) ∧
  ∀ (p : Params) (s : CoreState p), s.Idle →
    (∀ t : p.Word, s.peek (s.regs.pc + 1) = some t →
      exec .jmp ⟨p, s⟩ = .next ⟨p, s.continuesWith (s.regs.set .pc t) s.mem⟩ ∧
      exec .jz ⟨p, s⟩ = .next ⟨p, s.continuesWith
        (s.regs.set .pc (if s.regs.flags.getLsbD 0 then t else s.regs.pc + 2)) s.mem⟩ ∧
      exec .jn ⟨p, s⟩ = .next ⟨p, s.continuesWith
        (s.regs.set .pc (if s.regs.flags.getLsbD 1 then t else s.regs.pc + 2)) s.mem⟩) ∧
    (s.peek (s.regs.pc + 1) = none → ∀ i : Instr, i ∈ [.jmp, .jz, .jn] →
      exec i ⟨p, s⟩ =
        .next ⟨p, s.faultsWith ⟨.outOfBoundsAddress, s.regs.pc + 1, s.regs.pc⟩ (s.regs.pc + 1) s.mem⟩)

/-- 45_jumps R122 to R125: the compare jumps, for every pair of registers: flags from the wrapped difference on both paths,
and the condition table of R118. Index 4 reads `a + 3`. -/
def Obligations.CompareJumpResult : Prop :=
  ∀ (p : Params) (s : CoreState p) (rA rB : RegName) (t : p.Word), s.Idle →
    s.peek (s.regs.pc + 1) = some rA.index → s.peek (s.regs.pc + 2) = some rB.index →
    s.peek (s.regs.pc + 3) = some t →
    let x := s.regs.set .pc (s.regs.pc + 3)
    let d := x.get rA - x.get rB
    exec .jeq ⟨p, s⟩ = .next ⟨p, s.continuesWith
      ((x.setFlags d).set .pc (if d = 0 then t else s.regs.pc + 4)) s.mem⟩ ∧
    exec .jneq ⟨p, s⟩ = .next ⟨p, s.continuesWith
      ((x.setFlags d).set .pc (if d ≠ 0 then t else s.regs.pc + 4)) s.mem⟩ ∧
    exec .jgt ⟨p, s⟩ = .next ⟨p, s.continuesWith
      ((x.setFlags d).set .pc (if 0 < d.toInt then t else s.regs.pc + 4)) s.mem⟩ ∧
    exec .jlw ⟨p, s⟩ = .next ⟨p, s.continuesWith
      ((x.setFlags d).set .pc (if d.toInt < 0 then t else s.regs.pc + 4)) s.mem⟩

/-- 46_call_ret R128: call pushes the address after its operand and jumps; no flag and no other register changes. -/
def Obligations.CallResult : Prop :=
  ∀ (p : Params) (s : CoreState p) (t : p.Word), s.Idle → s.peek (s.regs.pc + 1) = some t →
    s.regs.stackTop.slt p.stackLow = false → inMemory s.regs.stackTop = true →
    exec .call ⟨p, s⟩ = .next ⟨p, s.continuesWith
      ((s.regs.set .stackTop (s.regs.stackTop - 1)).set .pc t)
      (s.mem.write s.regs.stackTop (s.regs.pc + 2))⟩

/-- 46_call_ret R129: ret pops the return address into pc as it is; no flag, no memory word and no other register
changes. -/
def Obligations.RetResult : Prop :=
  ∀ (p : Params) (s : CoreState p), s.Idle → s.regs.stackTop.slt s.regs.stackBottom = true →
    inMemory (s.regs.stackTop + 1) = true →
    exec .ret ⟨p, s⟩ = .next ⟨p, s.continuesWith
      ((s.regs.set .stackTop (s.regs.stackTop + 1)).set .pc (s.mem.read (s.regs.stackTop + 1))) s.mem⟩

/-! ## Frames: what stays -/

/-- 20_memory R44, 70_reset_and_hazards R168: an instruction that stores nothing leaves every byte of memory, whether it
completes or faults. -/
def Obligations.NonStoringFormsKeepMemory : Prop :=
  ∀ (p : Params) (i : Instr) (s t : CoreState p), storesNothing i = true → s.Idle → exec i ⟨p, s⟩ = .next ⟨p, t⟩ →
    ∀ n, t.mem.byte n = s.mem.byte n

/-- 42_add_sub R106, R110; 43_move R114; 46_call_ret R128: the loads store at StackTop only (the scratch cell), and so does
call (the return address); every byte outside that word stays. -/
def Obligations.LoadsAndCallStoreAtStackTopOnly : Prop :=
  ∀ (p : Params) (i : Instr) (s t : CoreState p), i ∈ [.addMemReg, .subMemReg, .moveMemReg, .call] → s.Idle →
    s.mem.wf p = true →
    exec i ⟨p, s⟩ = .next ⟨p, t⟩ → ∀ n, n / wordBytes p.wordBits ≠ s.regs.stackTop.toNat → t.mem.byte n = s.mem.byte n

/-- 42_add_sub R107, R111; 43_move R115: the stores write the scratch cell at StackTop and the word at the address operand,
read once the scratch save is made; every byte outside those two words stays. -/
def Obligations.StoresWriteScratchAndDestinationOnly : Prop :=
  ∀ (p : Params) (i : Instr) (s t : CoreState p), i ∈ [.addRegMem, .subRegMem, .moveRegMem] → s.Idle → s.mem.wf p = true →
    exec i ⟨p, s⟩ = .next ⟨p, t⟩ →
    ∀ n, n / wordBytes p.wordBits ≠ s.regs.stackTop.toNat →
      n / wordBytes p.wordBits ≠ ((s.mem.write s.regs.stackTop (s.regs.pc + 2)).read (s.regs.pc + 2)).toNat →
      t.mem.byte n = s.mem.byte n

/-- 42_add_sub, 43_move, 44_inc: an instruction with a register destination, when it completes, leaves every register but
pc, Flags and that destination. The destination index is the last operand word, read after the scratch save where there is
one. -/
def Obligations.RegisterDestinationFrame : Prop :=
  ∀ (p : Params) (s t : CoreState p) (q : RegName), s.Idle → s.mem.wf p = true → q ≠ .pc → q ≠ .flags → t.ctrl = .fetch →
    (∀ i : Instr, i ∈ [.addRegReg, .addImmReg, .subRegReg, .subImmReg, .moveRegReg, .moveImmReg] →
      exec i ⟨p, s⟩ = .next ⟨p, t⟩ → s.mem.read (s.regs.pc + 2) ≠ q.index → t.regs.get q = s.regs.get q) ∧
    (∀ i : Instr, i ∈ [.addMemReg, .subMemReg, .moveMemReg] →
      exec i ⟨p, s⟩ = .next ⟨p, t⟩ →
      (s.mem.write s.regs.stackTop (s.regs.pc + 1)).read (s.regs.pc + 2) ≠ q.index → t.regs.get q = s.regs.get q) ∧
    (exec .inc ⟨p, s⟩ = .next ⟨p, t⟩ → s.mem.read (s.regs.pc + 1) ≠ q.index → t.regs.get q = s.regs.get q)

/-- 42_add_sub R107, R111; 43_move R115; 45_jumps R118; 46_call_ret R128, R129: an instruction with no register destination
leaves every register but pc, Flags (arithmetic and compare jumps only) and StackTop (call and ret only). -/
def Obligations.NoRegisterDestinationFrame : Prop :=
  ∀ (p : Params) (s t : CoreState p), s.Idle → t.ctrl = .fetch →
    (∀ (i : Instr) (q : RegName), i ∈ [.addRegMem, .subRegMem, .jeq, .jneq, .jgt, .jlw] → q ≠ .pc → q ≠ .flags →
      exec i ⟨p, s⟩ = .next ⟨p, t⟩ → t.regs.get q = s.regs.get q) ∧
    (∀ (i : Instr) (q : RegName), i ∈ [.moveRegMem, .jmp, .jz, .jn] → q ≠ .pc →
      exec i ⟨p, s⟩ = .next ⟨p, t⟩ → t.regs.get q = s.regs.get q) ∧
    (∀ (i : Instr) (q : RegName), i ∈ [.call, .ret] → q ≠ .pc → q ≠ .stackTop →
      exec i ⟨p, s⟩ = .next ⟨p, t⟩ → t.regs.get q = s.regs.get q)

/-- 41_control_unit R96, R97; 10_state R23, R24: an instruction that sets flags, when its destination is not Flags itself,
leaves bits 31..2 of the Flags word; a move whose destination is not Flags leaves the whole word. -/
def Obligations.FlagsFrame : Prop :=
  ∀ (p : Params) (s t : CoreState p), s.Idle → s.mem.wf p = true → t.ctrl = .fetch →
    (∀ i : Instr, i ∈ [.addRegReg, .addImmReg, .subRegReg, .subImmReg] → exec i ⟨p, s⟩ = .next ⟨p, t⟩ →
      s.mem.read (s.regs.pc + 2) ≠ RegName.flags.index →
      ∀ n, 2 ≤ n → t.regs.flags.getLsbD n = s.regs.flags.getLsbD n) ∧
    (∀ i : Instr, i ∈ [.addMemReg, .subMemReg] → exec i ⟨p, s⟩ = .next ⟨p, t⟩ →
      (s.mem.write s.regs.stackTop (s.regs.pc + 1)).read (s.regs.pc + 2) ≠ RegName.flags.index →
      ∀ n, 2 ≤ n → t.regs.flags.getLsbD n = s.regs.flags.getLsbD n) ∧
    (exec .inc ⟨p, s⟩ = .next ⟨p, t⟩ → s.mem.read (s.regs.pc + 1) ≠ RegName.flags.index →
      ∀ n, 2 ≤ n → t.regs.flags.getLsbD n = s.regs.flags.getLsbD n) ∧
    (∀ i : Instr, i ∈ [.addRegMem, .subRegMem, .jeq, .jneq, .jgt, .jlw] → exec i ⟨p, s⟩ = .next ⟨p, t⟩ →
      ∀ n, 2 ≤ n → t.regs.flags.getLsbD n = s.regs.flags.getLsbD n) ∧
    (∀ i : Instr, i ∈ [.moveRegReg, .moveImmReg] → exec i ⟨p, s⟩ = .next ⟨p, t⟩ →
      s.mem.read (s.regs.pc + 2) ≠ RegName.flags.index → t.regs.flags = s.regs.flags) ∧
    (exec .moveMemReg ⟨p, s⟩ = .next ⟨p, t⟩ →
      (s.mem.write s.regs.stackTop (s.regs.pc + 1)).read (s.regs.pc + 2) ≠ RegName.flags.index →
      t.regs.flags = s.regs.flags)

/-- 41_control_unit R94: an instruction that does not transfer control, does not name index 4 as its destination and does
not alias the scratch cell ends with pc at the address after its last operand word. -/
def Obligations.SequentialNextPc : Prop :=
  ∀ (p : Params) (s t : CoreState p), s.Idle → s.mem.wf p = true → t.ctrl = .fetch →
    (∀ i : Instr, i ∈ [.addRegReg, .addImmReg, .subRegReg, .subImmReg, .moveRegReg, .moveImmReg] →
      exec i ⟨p, s⟩ = .next ⟨p, t⟩ → s.mem.read (s.regs.pc + 2) ≠ RegName.pc.index → t.regs.pc = s.regs.pc + 3) ∧
    (∀ i : Instr, i ∈ [.addMemReg, .subMemReg, .moveMemReg] → exec i ⟨p, s⟩ = .next ⟨p, t⟩ →
      s.regs.stackTop ≠ s.regs.pc + 1 → s.regs.stackTop ≠ s.regs.pc + 2 →
      s.mem.read (s.regs.pc + 2) ≠ RegName.pc.index → t.regs.pc = s.regs.pc + 3) ∧
    (∀ i : Instr, i ∈ [.addRegMem, .subRegMem, .moveRegMem] → exec i ⟨p, s⟩ = .next ⟨p, t⟩ →
      s.regs.stackTop ≠ s.regs.pc + 2 → s.mem.read (s.regs.pc + 2) ≠ s.regs.stackTop →
      t.regs.pc = s.regs.pc + 3) ∧
    (exec .inc ⟨p, s⟩ = .next ⟨p, t⟩ → s.mem.read (s.regs.pc + 1) ≠ RegName.pc.index → t.regs.pc = s.regs.pc + 2)

/-! ## Faults: which, in which order -/

/-- 42_add_sub R105, R109; 43_move R113; 60_exceptions R135: the exceptions of the register forms, in the order they are
checked, and the whole state each leaves: only pc has moved (60_exceptions R134). -/
def Obligations.RegRegFaultOrder : Prop :=
  ∀ (p : Params) (i : Instr) (s : CoreState p), i ∈ [.addRegReg, .subRegReg, .moveRegReg] → s.Idle →
    let a := s.regs.pc
    (s.peek (a + 1) = none → exec i ⟨p, s⟩ = .next ⟨p, s.faultsWith ⟨.outOfBoundsAddress, a + 1, a⟩ (a + 1) s.mem⟩) ∧
    (∀ x, s.peek (a + 1) = some x → RegName.ofIndex x = none →
      exec i ⟨p, s⟩ = .next ⟨p, s.faultsWith ⟨.invalidRegisterIndex, x, a⟩ (a + 1) s.mem⟩) ∧
    (∀ r : RegName, s.peek (a + 1) = some r.index → s.peek (a + 2) = none →
      exec i ⟨p, s⟩ = .next ⟨p, s.faultsWith ⟨.outOfBoundsAddress, a + 2, a⟩ (a + 2) s.mem⟩) ∧
    (∀ (r : RegName) (x : p.Word), s.peek (a + 1) = some r.index → s.peek (a + 2) = some x → RegName.ofIndex x = none →
      exec i ⟨p, s⟩ = .next ⟨p, s.faultsWith ⟨.invalidRegisterIndex, x, a⟩ (a + 2) s.mem⟩)

/-- 42_add_sub R108, R112; 43_move R116: the exceptions of the immediate forms, in order, and the whole state each leaves:
only pc has moved (60_exceptions R134). -/
def Obligations.ImmRegFaultOrder : Prop :=
  ∀ (p : Params) (i : Instr) (s : CoreState p), i ∈ [.addImmReg, .subImmReg, .moveImmReg] → s.Idle →
    let a := s.regs.pc
    (s.peek (a + 1) = none → exec i ⟨p, s⟩ = .next ⟨p, s.faultsWith ⟨.outOfBoundsAddress, a + 1, a⟩ (a + 1) s.mem⟩) ∧
    (∀ v, s.peek (a + 1) = some v → s.peek (a + 2) = none →
      exec i ⟨p, s⟩ = .next ⟨p, s.faultsWith ⟨.outOfBoundsAddress, a + 2, a⟩ (a + 2) s.mem⟩) ∧
    (∀ v x, s.peek (a + 1) = some v → s.peek (a + 2) = some x → RegName.ofIndex x = none →
      exec i ⟨p, s⟩ = .next ⟨p, s.faultsWith ⟨.invalidRegisterIndex, x, a⟩ (a + 2) s.mem⟩)

/-- 42_add_sub R106, R110; 43_move R114: the exceptions of the memory-to-register forms, in order (the scratch cell, the
address word, the data word, the register word, its index), and the whole state each leaves: pc has moved, and once the
scratch save is made its cell holds `a + 1` (60_exceptions R134). -/
def Obligations.MemRegFaultOrder : Prop :=
  ∀ (p : Params) (i : Instr) (s : CoreState p), i ∈ [.addMemReg, .subMemReg, .moveMemReg] → s.Idle → s.mem.wf p = true →
    let a := s.regs.pc
    let cell := s.regs.stackTop
    let M := s.mem.write cell (a + 1)
    let m := M.read (a + 1)
    (inMemory cell = false → exec i ⟨p, s⟩ = .next ⟨p, s.faultsWith ⟨.outOfBoundsAddress, cell, a⟩ (a + 1) s.mem⟩) ∧
    (inMemory cell = true → inMemory (a + 1) = false →
      exec i ⟨p, s⟩ = .next ⟨p, s.faultsWith ⟨.outOfBoundsAddress, a + 1, a⟩ (a + 1) M⟩) ∧
    (inMemory cell = true → inMemory (a + 1) = true → inMemory m = false →
      exec i ⟨p, s⟩ = .next ⟨p, s.faultsWith ⟨.outOfBoundsAddress, m, a⟩ m M⟩) ∧
    (inMemory cell = true → inMemory (a + 1) = true → inMemory m = true → inMemory (a + 2) = false →
      exec i ⟨p, s⟩ = .next ⟨p, s.faultsWith ⟨.outOfBoundsAddress, a + 2, a⟩ (a + 2) M⟩) ∧
    (inMemory cell = true → inMemory (a + 1) = true → inMemory m = true → inMemory (a + 2) = true →
      RegName.ofIndex (M.read (a + 2)) = none →
      exec i ⟨p, s⟩ = .next ⟨p, s.faultsWith ⟨.invalidRegisterIndex, M.read (a + 2), a⟩ (a + 2) M⟩)

/-- 42_add_sub R107, R111; 43_move R115: the exceptions of the register-to-memory forms, in order (the register word, its
index, the scratch cell, the address word, the data address), and the whole state each leaves: pc has moved, and once the
scratch save is made its cell holds `a + 2` (60_exceptions R134). The address word can be out of bounds only after the
save. -/
def Obligations.RegMemFaultOrder : Prop :=
  ∀ (p : Params) (i : Instr) (s : CoreState p), i ∈ [.addRegMem, .subRegMem, .moveRegMem] → s.Idle →
    let a := s.regs.pc
    let cell := s.regs.stackTop
    let M := s.mem.write cell (a + 2)
    let m := M.read (a + 2)
    (s.peek (a + 1) = none → exec i ⟨p, s⟩ = .next ⟨p, s.faultsWith ⟨.outOfBoundsAddress, a + 1, a⟩ (a + 1) s.mem⟩) ∧
    (∀ x, s.peek (a + 1) = some x → RegName.ofIndex x = none →
      exec i ⟨p, s⟩ = .next ⟨p, s.faultsWith ⟨.invalidRegisterIndex, x, a⟩ (a + 1) s.mem⟩) ∧
    (∀ r : RegName, s.peek (a + 1) = some r.index → inMemory cell = false →
      exec i ⟨p, s⟩ = .next ⟨p, s.faultsWith ⟨.outOfBoundsAddress, cell, a⟩ (a + 2) s.mem⟩) ∧
    (∀ r : RegName, s.peek (a + 1) = some r.index → inMemory cell = true → inMemory (a + 2) = false →
      exec i ⟨p, s⟩ = .next ⟨p, s.faultsWith ⟨.outOfBoundsAddress, a + 2, a⟩ (a + 2) M⟩) ∧
    (∀ r : RegName, s.peek (a + 1) = some r.index → inMemory cell = true → inMemory (a + 2) = true → inMemory m = false →
      exec i ⟨p, s⟩ = .next ⟨p, s.faultsWith ⟨.outOfBoundsAddress, m, a⟩ m M⟩)

/-- 44_inc R117; 45_jumps R119 to R125: the exceptions of inc and of the jumps, in order, and the whole state each leaves:
only pc has moved (60_exceptions R134). The target word is read whether or not the branch is taken. -/
def Obligations.IncAndJumpFaultOrder : Prop :=
  ∀ (p : Params) (s : CoreState p), s.Idle →
    let a := s.regs.pc
    (∀ i : Instr, i ∈ [.inc, .jmp, .jz, .jn, .jeq, .jneq, .jgt, .jlw] → s.peek (a + 1) = none →
      exec i ⟨p, s⟩ = .next ⟨p, s.faultsWith ⟨.outOfBoundsAddress, a + 1, a⟩ (a + 1) s.mem⟩) ∧
    (∀ (i : Instr) (x : p.Word), i ∈ [.inc, .jeq, .jneq, .jgt, .jlw] → s.peek (a + 1) = some x →
      RegName.ofIndex x = none →
      exec i ⟨p, s⟩ = .next ⟨p, s.faultsWith ⟨.invalidRegisterIndex, x, a⟩ (a + 1) s.mem⟩) ∧
    (∀ (i : Instr) (rA : RegName), i ∈ [.jeq, .jneq, .jgt, .jlw] → s.peek (a + 1) = some rA.index →
      (s.peek (a + 2) = none →
        exec i ⟨p, s⟩ = .next ⟨p, s.faultsWith ⟨.outOfBoundsAddress, a + 2, a⟩ (a + 2) s.mem⟩) ∧
      (∀ x, s.peek (a + 2) = some x → RegName.ofIndex x = none →
        exec i ⟨p, s⟩ = .next ⟨p, s.faultsWith ⟨.invalidRegisterIndex, x, a⟩ (a + 2) s.mem⟩) ∧
      (∀ rB : RegName, s.peek (a + 2) = some rB.index → s.peek (a + 3) = none →
        exec i ⟨p, s⟩ = .next ⟨p, s.faultsWith ⟨.outOfBoundsAddress, a + 3, a⟩ (a + 3) s.mem⟩))

/-- 46_call_ret R128, R129: the exceptions of call and ret, in order, and the whole state each leaves: only pc has moved,
and neither has stored anything (60_exceptions R134). -/
def Obligations.CallAndRetFaultOrder : Prop :=
  ∀ (p : Params) (s : CoreState p), s.Idle →
    let a := s.regs.pc
    let top := s.regs.stackTop
    (s.peek (a + 1) = none → exec .call ⟨p, s⟩ = .next ⟨p, s.faultsWith ⟨.outOfBoundsAddress, a + 1, a⟩ (a + 1) s.mem⟩) ∧
    (inMemory (a + 1) = true → top.slt p.stackLow = true →
      exec .call ⟨p, s⟩ = .next ⟨p, s.faultsWith ⟨.stackOverflow, top, a⟩ (a + 1) s.mem⟩) ∧
    (inMemory (a + 1) = true → top.slt p.stackLow = false → inMemory top = false →
      exec .call ⟨p, s⟩ = .next ⟨p, s.faultsWith ⟨.outOfBoundsAddress, top, a⟩ (a + 1) s.mem⟩) ∧
    (top.slt s.regs.stackBottom = false →
      exec .ret ⟨p, s⟩ = .next ⟨p, s.faultsWith ⟨.stackUnderflow, top, a⟩ (a + 1) s.mem⟩) ∧
    (top.slt s.regs.stackBottom = true → inMemory (top + 1) = false →
      exec .ret ⟨p, s⟩ = .next ⟨p, s.faultsWith ⟨.outOfBoundsAddress, top + 1, a⟩ (a + 1) s.mem⟩)

/-- 60_exceptions R134; 41_control_unit R98: a fault keeps every write made before the raise. Every fault of a load whose
scratch save succeeded (the address word, the data word, the register word, its index) leaves the saved pc `a + 1` in the
scratch cell, and every fault of a store after its save (the address word, the data address) leaves `a + 2` there; no other
word of memory and no register but pc has changed. (R136 asks a proof about a program to treat a fault as a bad outcome and
not to lean on the state it leaves; log 18.) -/
def Obligations.FaultKeepsEarlierWrites : Prop :=
  ∀ (p : Params) (i : Instr) (s t : CoreState p) (r : FaultRecord p.wordBits), s.Idle → s.mem.wf p = true →
    inMemory s.regs.stackTop = true → exec i ⟨p, s⟩ = .next ⟨p, t⟩ → t.ctrl = .fault r →
    (i ∈ [.addMemReg, .subMemReg, .moveMemReg] →
      t.mem = s.mem.write s.regs.stackTop (s.regs.pc + 1) ∧ t.mem.read s.regs.stackTop = s.regs.pc + 1 ∧
      ∀ q, q ≠ .pc → t.regs.get q = s.regs.get q) ∧
    (∀ src : RegName, i ∈ [.addRegMem, .subRegMem, .moveRegMem] → s.peek (s.regs.pc + 1) = some src.index →
      t.mem = s.mem.write s.regs.stackTop (s.regs.pc + 2) ∧ t.mem.read s.regs.stackTop = s.regs.pc + 2 ∧
      ∀ q, q ≠ .pc → t.regs.get q = s.regs.get q)

/-- 42_add_sub R105 to R112; 43_move R113 to R116; 44_inc R117; 45_jumps R119 to R125; 46_call_ret R126 to R129: in the order
of these microprograms (with 41_control_unit R97, R99) no instruction writes a register but pc before the last point at which
it can fault. So where any of the 22 ends in FAULT, which keeps exactly what was written (60_exceptions R134), every other
register, Flags included, is as before. (R136 asks a proof about a program not to lean on that; log 18.) -/
def Obligations.FaultLeavesRegistersButPc : Prop :=
  ∀ (p : Params) (i : Instr) (s t : CoreState p) (r : FaultRecord p.wordBits), s.Idle → s.mem.wf p = true →
    exec i ⟨p, s⟩ = .next ⟨p, t⟩ → t.ctrl = .fault r → ∀ q, q ≠ .pc → t.regs.get q = s.regs.get q

/-! ## Reset and loading -/

/-- 10_state R37, 70_reset_and_hazards R147, R149: reset with a given `STACK_INIT`: every register at the spec's value,
StackTop and StackBottom at `STACK_INIT`, every memory word zero, the control unit in FETCH, the interface awaiting an
address, buses, slots, selector and latch zero. `State.reset` is that state under the default parameters (log 1) at the
model's own choice of `STACK_INIT` (DESIGN CHOICE, log 2), which this statement does not name. -/
def Obligations.ResetGivesStatedValues : Prop :=
  State.reset = ⟨Params.default, CoreState.resetWith Config.stackInit⟩ ∧
  ∀ (p : Params) (stackInit : p.Word),
    let s := CoreState.resetWith stackInit
    (∀ r : RegName, r ≠ .stackBottom → r ≠ .stackTop → s.regs.get r = 0) ∧
    s.regs.stackBottom = stackInit ∧ s.regs.stackTop = stackInit ∧
    (∀ addr, inMemory addr = true → s.peek addr = some 0) ∧
    s.ctrl = .fetch ∧ s.Idle ∧
    s.dp.extbus = 0 ∧ s.dp.intbus1 = 0 ∧ s.dp.intbus2 = 0 ∧ s.dp.aluSlot0 = 0 ∧ s.dp.aluSlot1 = 0 ∧
    s.dp.selector = 0 ∧ s.dp.latchedAddress = 0

/-- 70_reset_and_hazards R148, R149: loading an image whose pairs, up to the sentinel, all lie in memory: each word holds
the last value the pairs give it, or zero, and the rest is the reset state with the image's stack pointer. That neither
the address beside the sentinel (`addr₀`, in memory or not) nor any pair after it (`rest`) is checked is the model's
choice (log 14). -/
def Obligations.LoadedImageMemory : Prop :=
  ∀ (p : Params) (pairs rest : List (p.Word × p.Word)) (addr₀ stackInit : p.Word),
    (∀ q ∈ pairs, q.2 ≠ p.imageSentinel ∧ inMemory q.1 = true) →
    ∃ M, load (p := p) ⟨pairs ++ (addr₀, p.imageSentinel) :: rest, stackInit⟩ =
        .loaded { CoreState.resetWith stackInit with mem := M } ∧
      M.wf p = true ∧
      ∀ addr, inMemory addr = true →
        M.read addr = ((pairs.reverse.find? fun p => p.1 == addr).map (·.2)).getD 0

/-- 70_reset_and_hazards R148: a pair before the sentinel whose address lies outside memory makes the image malformed.
That the diagnostic is the first such address is the model's choice (log 14). -/
def Obligations.MalformedImageIsRefused : Prop :=
  ∀ (p : Params) (before rest : List (p.Word × p.Word)) (addr v stackInit : p.Word),
    (∀ q ∈ before, q.2 ≠ p.imageSentinel ∧ inMemory q.1 = true) →
    v ≠ p.imageSentinel → inMemory addr = false →
    load (p := p) ⟨before ++ (addr, v) :: rest, stackInit⟩ = .malformed .malformedProgramImage addr

/-! ## Invariants and whole-machine properties -/

/-- The invariant of an instruction boundary holds at reset, under any parameters and with any `STACK_INIT`. -/
def Obligations.InvariantHoldsAtReset : Prop :=
  State.reset.Inv ∧ ∀ (p : Params) (stackInit : p.Word), (State.resetWith p stackInit).Inv

/-- The invariant holds of every state an image leaves. -/
def Obligations.InvariantHoldsAfterLoad : Prop :=
  ∀ (p : Params) (image : Image p.wordBits) (s : CoreState p), load image = .loaded s → s.Inv

/-- Every step keeps the invariant, from every state that has it, under any parameters: the memory stays canonical and
inside its address space (20_memory R42), the memory interface awaits an address (10_state R36, 40_datapath R84), HALT is
at an unrecognised word that IR holds (41_control_unit R89), and a fault record is sound: its kind is one the
microprograms raise, never MemoryProtocolError; its value breaks that kind's rule (an address outside memory; a StackTop
below `STACK_LOW`; a StackTop not below StackBottom; no register's index), the two stack values being StackTop as the
fault left it; and its address lies in memory or, for a fetch fault, is the value itself (60_exceptions R132, R133). -/
def Obligations.StepKeepsInvariant : Prop :=
  ∀ s t : State, s.Inv → step s = .next t → t.Inv

/-- 10_state R36: no instruction reads a bus, an ALU slot, the selector or the latched address before writing it: from two
states that differ only there (and in the control state), every instruction answers the very same next state, with the
memory interface awaiting an address. That the same next state holds the same transients is the model's form of R36's
unspecified contents: free values that depend on the boundary counter alone (log 5). -/
def Obligations.TransientsAreNotArchitectural : Prop :=
  ∀ (p : Params) (i : Instr) (s t : CoreState p), SameButTransients s t → s.Idle →
    ∃ u : CoreState p, exec i ⟨p, s⟩ = .next ⟨p, u⟩ ∧ exec i ⟨p, t⟩ = .next ⟨p, u⟩ ∧ u.Idle

/-- 41_control_unit R101, 10_state R36: a whole step, too, is the same from two states that differ only in the transients
(the same next transients: the free values of log 5). -/
def Obligations.StepIgnoresTransients : Prop :=
  ∀ (p : Params) (s t : CoreState p), SameButTransients s t → s.ctrl = t.ctrl → s.Idle → step ⟨p, s⟩ = step ⟨p, t⟩

/-- 46_call_ret R130: a call that completes, then any body that leaves StackTop as the call left it, StackBottom above it,
and the return cell as it was, and then a ret: pc is the address after the call's operand and StackTop is what it was
before the call. (R130 asks of the body only that it does not lower StackBottom; where the stack held more than
StackBottom allows before the call, ret underflows, so StackBottom above StackTop at the ret is a premise.) -/
def Obligations.CallThenRetReturns : Prop :=
  ∀ (p : Params) (s t u : CoreState p), s.Idle → s.mem.wf p = true → exec .call ⟨p, s⟩ = .next ⟨p, t⟩ → t.ctrl = .fetch →
    u.Idle → u.regs.stackTop = t.regs.stackTop → u.regs.stackTop.slt u.regs.stackBottom = true →
    u.mem.read s.regs.stackTop = t.mem.read s.regs.stackTop →
    ∃ v : CoreState p, exec .ret ⟨p, u⟩ = .next ⟨p, v⟩ ∧ v.ctrl = .fetch ∧ v.regs.pc = s.regs.pc + 2 ∧
      v.regs.stackTop = s.regs.stackTop ∧
      v.regs.flags = u.regs.flags ∧ v.mem = u.mem

/-- 41_control_unit R98; 46_call_ret R130: a load or a store of the body cannot break the return. A load keeps every word
but its scratch cell's, and StackTop unless index 8 is its destination; a store keeps every word that is neither its
scratch cell's nor the one it stores to, and StackTop. -/
def Obligations.MemoryModeKeepsOtherCells : Prop :=
  ∀ (p : Params) (i : Instr) (s t : CoreState p) (cell : p.Word), s.Idle → s.mem.wf p = true →
    exec i ⟨p, s⟩ = .next ⟨p, t⟩ → cell ≠ s.regs.stackTop →
    (i ∈ [.addMemReg, .subMemReg, .moveMemReg] →
      t.mem.read cell = s.mem.read cell ∧
      ((s.mem.write s.regs.stackTop (s.regs.pc + 1)).read (s.regs.pc + 2) ≠ RegName.stackTop.index →
        t.regs.stackTop = s.regs.stackTop)) ∧
    (i ∈ [.addRegMem, .subRegMem, .moveRegMem] →
      (cell ≠ (s.mem.write s.regs.stackTop (s.regs.pc + 2)).read (s.regs.pc + 2) → t.mem.read cell = s.mem.read cell) ∧
      t.regs.stackTop = s.regs.stackTop)
end

