-- ==== Sys2Proof/Laws/Encoding.lean ====
section
/-! SUPPORT. The small lemmas of the opcode map and of well-formedness. -/

namespace Sys2Proof

variable {w : Nat}

theorem Instr.mem_all (i : Instr) : i ∈ Instr.all := by cases i <;> decide

/-- The words of a map are those of the instructions, in order. -/
theorem Instr.all_opcodeWord (m : OpcodeMap w) : Instr.all.map (·.opcodeWord m) = m.words := rfl

/-- A decoded word is the word of what it decodes to. -/
theorem opcodeWord_of_decode {m : OpcodeMap w} {x : Word w} {i : Instr} (h : decode m x = some i) : x = i.opcodeWord m := by
  have := List.find?_some h
  simp only [beq_iff_eq] at this
  exact this.symm

/-- No word of the map is refused. -/
theorem decode_eq_none {m : OpcodeMap w} {x : Word w} : decode m x = none ↔ ∀ i : Instr, x ≠ i.opcodeWord m := by
  simp only [decode, List.find?_eq_none, beq_iff_eq]
  exact ⟨fun h i e => h i i.mem_all e.symm, fun h i _ e => h i e.symm⟩

/-- Under an injective map (30_encoding R59) each opcode word decodes to its instruction. -/
theorem decode_opcodeWord_of_nodup {m : OpcodeMap w} (hm : m.words.Nodup) (i : Instr) :
    decode m (i.opcodeWord m) = some i := by
  cases h : decode m (i.opcodeWord m) with
  | none => exact absurd rfl (decode_eq_none.1 h i)
  | some j =>
    rw [← Instr.all_opcodeWord] at hm
    exact congrArg some (List.inj_on_of_nodup_map hm j.mem_all i.mem_all (opcodeWord_of_decode h).symm)

@[simp] theorem decode_opcodeWord (p : Params) (i : Instr) : decode p.opcodeMap (i.opcodeWord p.opcodeMap) = some i :=
  decode_opcodeWord_of_nodup p.opcodeMap_injective i

/-- As many words as kinds. -/
theorem operandsAdmitted_length {ks : List OperandKind} {ws : List (Word w)} (h : operandsAdmitted ks ws = true) :
    ws.length = ks.length := by
  induction ks generalizing ws with
  | nil => cases ws <;> simp_all [operandsAdmitted]
  | cons k ks ih =>
    cases ws with
    | nil => simp [operandsAdmitted] at h
    | cons w ws =>
      simp only [operandsAdmitted, Bool.and_eq_true] at h
      simp [ih h.2]

end Sys2Proof
end

