-- ==== Sys2Proof/Laws/Params.lean ====
section
/-! SUPPORT. What the constraints on the parameters (spec/00_scope.md R6) say of Words. -/

namespace Sys2Proof

/-- What fits 32 bits fits a Word (00_scope R6). -/
theorem Params.lt_two_pow (p : Params) {n : Nat} (h : n < 2 ^ 32) : n < 2 ^ p.wordBits :=
  Nat.lt_of_lt_of_le h (Nat.pow_le_pow_right (by decide) p.wordBits_ge)

/-- Half a Word's range, and all of it. -/
theorem Params.two_pow (p : Params) : 2 ^ p.wordBits = 2 * 2 ^ (p.wordBits - 1) := by
  have := p.wordBits_ge
  rw [show p.wordBits = (p.wordBits - 1) + 1 by omega, Nat.pow_succ, Nat.mul_comm]; rfl

/-- Half a Word's range holds every small number. -/
theorem Params.lt_half (p : Params) {n : Nat} (h : n < 2 ^ 31) : n < 2 ^ (p.wordBits - 1) :=
  Nat.lt_of_lt_of_le h (Nat.pow_le_pow_right (by decide) (by have := p.wordBits_ge; omega))

/-- A literal as a Word. -/
theorem Params.toNat_ofNat (p : Params) {n : Nat} (h : n < 2 ^ 32) : (BitVec.ofNat p.wordBits n).toNat = n := by
  rw [BitVec.toNat_ofNat, Nat.mod_eq_of_lt (p.lt_two_pow h)]

/-- A nonnegative bound, as signed words compare and as natural numbers do: `0 <=s x <s n` says `x < n`. -/
theorem Params.slt_range (p : Params) (x : p.Word) {n : Nat} (h : n < 2 ^ (p.wordBits - 1)) :
    (!x.slt 0 && x.slt (BitVec.ofNat p.wordBits n)) = decide (x.toNat < n) := by
  have hx := BitVec.toInt_eq_toNat_cond x
  have hlt := x.isLt
  have htwo := p.two_pow
  have hn : (BitVec.ofNat p.wordBits n).toInt = n := by
    rw [BitVec.toInt_eq_toNat_cond, BitVec.toNat_ofNat, Nat.mod_eq_of_lt (by omega), if_pos (by omega)]
  have h0 : (0 : p.Word).toInt = 0 := BitVec.toInt_zero
  simp only [BitVec.slt, hn, h0]
  rw [Bool.eq_iff_iff]
  simp only [Bool.and_eq_true, Bool.not_eq_true', decide_eq_false_iff_not, decide_eq_true_eq]
  split at hx <;> omega

end Sys2Proof
end

