-- ==== Sys2Proof/Laws/Flags.lean ====
section
/-! SUPPORT. The small lemmas of the flag bits and of the flag rule (spec/41_control_unit.md R96). -/

namespace Sys2Proof.Machine

variable {p : Params}

theorem word_one_bit (n : Nat) : (1 : p.Word).getLsbD n = decide (n = 0) := by
  have h := p.wordBits_ge
  rw [show (1 : p.Word) = BitVec.twoPow p.wordBits 0 from BitVec.eq_of_toNat_eq (by simp), BitVec.getLsbD_twoPow]
  by_cases hn : n = 0 <;> simp [hn, eq_comm]
  omega

theorem word_two_bit (n : Nat) : (2 : p.Word).getLsbD n = decide (n = 1) := by
  have h := p.wordBits_ge
  rw [show (2 : p.Word) = BitVec.twoPow p.wordBits 1 from BitVec.eq_of_toNat_eq (by simp), BitVec.getLsbD_twoPow]
  by_cases hn : n = 1 <;> simp [hn, eq_comm]
  omega

/-- The number of a flag's bit (10_state R23). -/
def FlagBit.number : FlagBit → Nat
  | .zero => 0
  | .negative => 1

theorem getFlag_eq_bit (f : p.Word) (i : FlagBit) : getFlag f i = f.getLsbD i.number := by cases i <;> rfl

/-- Setting a flag bit sets that bit of the word and no other. -/
theorem setFlag_bit (f : p.Word) (i : FlagBit) (v : Bool) (n : Nat) (hn : n < p.wordBits) :
    (setFlag f i v).getLsbD n = if n = i.number then v else f.getLsbD n := by
  cases i <;> cases v <;>
    simp only [setFlag, FlagBit.number, BitVec.getLsbD_and, BitVec.getLsbD_or, BitVec.getLsbD_not, word_one_bit,
      word_two_bit, hn, decide_true, Bool.true_and] <;>
    [by_cases h : n = 0; by_cases h : n = 0; by_cases h : n = 1; by_cases h : n = 1] <;> simp [h]

theorem getFlag_setFlag (f : p.Word) (i j : FlagBit) (v : Bool) :
    getFlag (setFlag f i v) j = if j = i then v else getFlag f j := by
  have h := p.wordBits_ge
  rw [getFlag_eq_bit, setFlag_bit f i v _ (by cases j <;> simp only [FlagBit.number] <;> omega), getFlag_eq_bit]
  cases i <;> cases j <;> rfl

/-- The flag rule without its local names. -/
theorem flagsAfter_eq (f v : p.Word) :
    flagsAfter f v =
      if v.slt 0 = true then
        setFlag (if v = 0 then setFlag (setFlag (setFlag f .zero false) .negative false) .zero true
          else setFlag (setFlag f .zero false) .negative false) .negative true
      else if v = 0 then setFlag (setFlag (setFlag f .zero false) .negative false) .zero true
        else setFlag (setFlag f .zero false) .negative false := rfl

/-- Z after the flag rule. -/
theorem getFlag_flagsAfter_zero (f v : p.Word) : getFlag (flagsAfter f v) .zero = decide (v = 0) := by
  rw [flagsAfter_eq]
  by_cases hn : v.slt 0 = true <;> by_cases hz : v = 0 <;>
    simp only [hn, hz, if_true, if_false, getFlag_setFlag, decide_true, decide_false, reduceCtorEq, Bool.false_eq_true]
  all_goals first | rfl | (split <;> simp [getFlag_setFlag])

/-- N after the flag rule. -/
theorem getFlag_flagsAfter_negative (f v : p.Word) : getFlag (flagsAfter f v) .negative = v.slt 0 := by
  rw [flagsAfter_eq]
  by_cases hn : v.slt 0 = true <;> by_cases hz : v = 0 <;>
    simp only [hn, hz, if_true, if_false, getFlag_setFlag, reduceCtorEq, Bool.false_eq_true]
  all_goals first | rfl | (split <;> simp_all [getFlag_setFlag])

/-- The other bits after the flag rule. -/
theorem flagsAfter_high (f v : p.Word) {n : Nat} (h : 2 ≤ n) : (flagsAfter f v).getLsbD n = f.getLsbD n := by
  by_cases hn : n < p.wordBits
  · have h0 : n ≠ FlagBit.zero.number := by simp only [FlagBit.number]; omega
    have h1 : n ≠ FlagBit.negative.number := by simp only [FlagBit.number]; omega
    rw [flagsAfter_eq]
    split <;> split <;> simp only [setFlag_bit _ _ _ n hn, h0, h1, if_false]
  · rw [BitVec.getLsbD_of_ge _ _ (by omega), BitVec.getLsbD_of_ge _ _ (by omega)]

end Sys2Proof.Machine
end

