-- ==== Sys2Proof/Laws/Memory.lean ====
section
/-! SUPPORT. Laws of the memory array: read after write, and the canonical form. -/

namespace Sys2Proof.Machine

variable {p : Params} {w : Nat}

/-! ## Byte cells -/

/-- The keys rise strictly. -/
def Memory.Rising (m : Memory) : Prop := m.Pairwise fun c d => c.1 < d.1

theorem Memory.wf_iff {m : Memory} :
    m.wf p = true ↔ m.Rising ∧ ∀ c ∈ m, c.2 ≠ Memory.unlisted ∧ c.1 < wordBytes p.wordBits * p.memorySize ∧
      c.2.toNat < 2 ^ (p.wordBits - 8 * (c.1 % wordBytes p.wordBits)) := by
  simp [Memory.wf, Memory.Rising, and_assoc]

theorem Memory.rising_of_wf {m : Memory} (hm : m.wf p = true) : m.Rising := (Memory.wf_iff.1 hm).1

theorem Memory.nil_wf : Memory.wf p [] = true := rfl

/-- A cell below every listed key is unlisted. -/
theorem Memory.byte_below {m : Memory} {n : Nat} (h : ∀ c ∈ m, n < c.1) : m.byte n = Memory.unlisted := by
  cases m with
  | nil => rfl
  | cons c rest =>
    obtain ⟨k, b⟩ := c
    have hk : n < k := h (k, b) (by simp)
    simp [Memory.byte, Nat.ne_of_lt hk, hk]

/-- Every cell of a written memory is an old cell or the written one. -/
theorem Memory.mem_setByte {m : Memory} {n : Nat} {v : Byte} {c : Host.Cell} (h : c ∈ m.setByte n v) :
    c ∈ m ∨ (c = (n, v) ∧ v ≠ Memory.unlisted) := by
  induction m with
  | nil =>
    simp only [Memory.setByte] at h
    split at h <;> simp_all
  | cons d rest ih =>
    obtain ⟨k, b⟩ := d
    simp only [Memory.setByte] at h
    split at h
    · split at h <;> simp_all
      tauto
    · split at h
      · split at h <;> simp_all
        tauto
      · simp only [List.mem_cons] at h ⊢
        rcases h with h | h
        · exact .inl (.inl h)
        · rcases ih h with h | h
          · exact .inl (.inr h)
          · exact .inr h

/-- Writing a cell keeps the keys strictly rising. -/
theorem Memory.setByte_rising {m : Memory} (hm : m.Rising) (n : Nat) (v : Byte) :
    (m.setByte n v).Rising := by
  unfold Memory.Rising at *
  induction m with
  | nil =>
    simp only [Memory.setByte]
    split <;> simp
  | cons d rest ih =>
    obtain ⟨k, b⟩ := d
    rw [List.pairwise_cons] at hm
    simp only [Memory.setByte]
    split
    · subst_vars
      split
      · exact hm.2
      · exact List.pairwise_cons.2 ⟨fun c hc => hm.1 c hc, hm.2⟩
    · split
      · split
        · exact List.pairwise_cons.2 hm
        · refine List.pairwise_cons.2 ⟨fun c hc => ?_, List.pairwise_cons.2 hm⟩
          rcases List.mem_cons.1 hc with rfl | hc
          · assumption
          · exact Nat.lt_trans (by assumption) (hm.1 c hc)
      · refine List.pairwise_cons.2 ⟨fun c hc => ?_, ih hm.2⟩
        rcases Memory.mem_setByte hc with hc | ⟨rfl, -⟩
        · exact hm.1 c hc
        · simp only; omega

/-- A cell read after a cell write, in a memory whose keys rise. -/
theorem Memory.byte_setByte {m : Memory} (hm : m.Rising) (n j : Nat) (v : Byte) :
    (m.setByte n v).byte j = if j = n then v else m.byte j := by
  unfold Memory.Rising at hm
  induction m with
  | nil =>
    by_cases hv : v = Memory.unlisted <;> by_cases hj : j = n <;> simp_all [Memory.setByte, Memory.byte]
  | cons d rest ih =>
    obtain ⟨k, b⟩ := d
    rw [List.pairwise_cons] at hm
    have hrest : ∀ i, i ≤ k → Memory.byte rest i = Memory.unlisted := fun i hi =>
      Memory.byte_below fun c hc => Nat.lt_of_le_of_lt hi (hm.1 c hc)
    have ih := ih hm.2
    by_cases hnk : n = k
    · subst hnk
      by_cases hv : v = Memory.unlisted
      · rcases Nat.lt_trichotomy j n with hj | hj | hj
        · simp [Memory.setByte, Memory.byte, hv, hj, Nat.ne_of_lt hj, hrest j (Nat.le_of_lt hj)]
        · simp [Memory.setByte, hv, hj, hrest n]
        · simp [Memory.setByte, Memory.byte, hv, Nat.ne_of_gt hj, Nat.not_lt_of_gt hj]
      · by_cases hj : j = n <;> simp [Memory.setByte, Memory.byte, hv, hj]
    · by_cases hlt : n < k
      · rcases Nat.lt_trichotomy j n with hj | hj | hj
        · by_cases hv : v = Memory.unlisted <;>
            simp [Memory.setByte, Memory.byte, hnk, hlt, hv, hj, Nat.ne_of_lt hj,
              Nat.ne_of_lt (Nat.lt_trans hj hlt), Nat.lt_trans hj hlt]
        · by_cases hv : v = Memory.unlisted <;> simp [Memory.setByte, Memory.byte, hnk, hlt, hv, hj]
        · by_cases hv : v = Memory.unlisted <;>
            simp [Memory.setByte, Memory.byte, hnk, hlt, hv, Nat.ne_of_gt hj, Nat.not_lt_of_gt hj]
      · by_cases hj : j = n
        · subst hj
          simp [Memory.setByte, Memory.byte, hnk, hlt, ih]
        · simp [Memory.setByte, Memory.byte, hnk, hlt, hj, ih]

/-! ## Words of cells -/

theorem wordBytes_pos (h : 0 < w) : 0 < wordBytes w := by unfold wordBytes; omega

/-- The cells of a word have room for it. -/
theorem two_pow_le_cells : 2 ^ w ≤ 256 ^ wordBytes w := by
  rw [show 256 = 2 ^ 8 from rfl, ← Nat.pow_mul]
  exact Nat.pow_le_pow_right (by decide) (by unfold wordBytes; omega)

/-- No cell of a word lies beyond its width. -/
theorem cell_within_word {i : Nat} (h : i < wordBytes w) : 8 * i < w := by unfold wordBytes at h; omega

theorem Memory.readCells_congr {m m' : Memory} {k : Nat} : ∀ {b : Nat},
    (∀ j, b ≤ j → j < b + k → m.byte j = m'.byte j) → m.readCells b k = m'.readCells b k := by
  induction k with
  | zero => intros; rfl
  | succ k ih =>
    intro b h
    simp only [Memory.readCells]
    rw [h b (Nat.le_refl _) (by omega), ih fun j h₁ h₂ => h j (by omega) (by omega)]

theorem Memory.readCells_nil (b k : Nat) : Memory.readCells [] b k = 0 := by
  induction k generalizing b with
  | zero => rfl
  | succ k ih => rw [Memory.readCells, ih]; rfl

theorem Memory.writeCells_rising (k : Nat) : ∀ {m : Memory}, m.Rising → ∀ b n : Nat, (m.writeCells b k n).Rising := by
  induction k with
  | zero => intro m hm _ _; exact hm
  | succ k ih => intro m hm b n; exact ih (Memory.setByte_rising hm _ _) _ _

/-- A cell read after a write of several. -/
theorem Memory.byte_writeCells (k : Nat) : ∀ {m : Memory}, m.Rising → ∀ b n j : Nat,
    (m.writeCells b k n).byte j = if b ≤ j ∧ j < b + k then BitVec.ofNat 8 (n / 256 ^ (j - b)) else m.byte j := by
  induction k with
  | zero => intro m _ b n j; rw [if_neg (by omega)]; rfl
  | succ k ih =>
    intro m hm b n j
    rw [Memory.writeCells, ih (Memory.setByte_rising hm _ _), Memory.byte_setByte hm]
    by_cases hj : j = b
    · subst hj
      rw [if_neg (by omega), if_pos rfl, if_pos (by omega), Nat.sub_self, Nat.pow_zero, Nat.div_one]
    · by_cases h : b + 1 ≤ j ∧ j < b + 1 + k
      · rw [if_pos h, if_pos (by omega), Nat.div_div_eq_div_mul, show j - b = (j - (b + 1)) + 1 by omega, Nat.pow_succ,
          Nat.mul_comm]
      · rw [if_neg h, if_neg hj, if_neg (by omega)]

/-- Cells read after they are written. -/
theorem Memory.readCells_writeCells (k : Nat) : ∀ {m : Memory}, m.Rising → ∀ b n : Nat,
    (m.writeCells b k n).readCells b k = n % 256 ^ k := by
  induction k with
  | zero => intro m _ b n; rw [Nat.pow_zero, Nat.mod_one]; rfl
  | succ k ih =>
    intro m hm b n
    have hs := Memory.setByte_rising hm b (BitVec.ofNat 8 n)
    rw [Memory.writeCells, Memory.readCells, ih hs, Memory.byte_writeCells k hs, if_neg (by omega), Memory.byte_setByte hm,
      if_pos rfl, BitVec.toNat_ofNat, show 256 ^ (k + 1) = 256 * 256 ^ k from Nat.pow_succ', Nat.mod_mul]

/-- Every cell of a memory with several written is an old cell or one of those. -/
theorem Memory.mem_writeCells (k : Nat) : ∀ {m : Memory} {b n : Nat} {c : Host.Cell}, c ∈ m.writeCells b k n →
    c ∈ m ∨ ∃ i, i < k ∧ c = (b + i, BitVec.ofNat 8 (n / 256 ^ i)) ∧ c.2 ≠ Memory.unlisted := by
  induction k with
  | zero => intro m b n c h; exact .inl h
  | succ k ih =>
    intro m b n c h
    rcases ih h with h | ⟨i, hi, rfl, hc⟩
    · rcases Memory.mem_setByte h with h | ⟨rfl, hc⟩
      · exact .inl h
      · exact .inr ⟨0, by omega, by simp, hc⟩
    · refine .inr ⟨i + 1, by omega, ?_, hc⟩
      rw [Nat.div_div_eq_div_mul, Nat.pow_succ, Nat.mul_comm 256, Nat.add_right_comm, Nat.add_assoc]

/-! ## Words -/

/-- The bounds check, in terms of the address as a natural number (20_memory R42). -/
theorem inMemory_iff {addr : p.Word} : inMemory addr = true ↔ addr.toNat < p.memorySize := by
  rw [inMemory, p.slt_range addr p.memorySize_lt, decide_eq_true_iff]

/-- Memory with nothing listed reads as zero. -/
@[simp] theorem Memory.read_nil (addr : Word w) : Memory.read [] addr = 0 := by
  rw [Memory.read, Memory.readCells_nil]; rfl

/-- Every memory operation keeps the canonical form: a write inside memory. -/
theorem Memory.write_wf {m : Memory} (hm : m.wf p = true) {addr : p.Word} (h : inMemory addr = true) (v : p.Word) :
    (m.write addr v).wf p = true := by
  rw [inMemory_iff] at h
  rw [Memory.wf_iff] at hm ⊢
  refine ⟨Memory.writeCells_rising _ hm.1 _ _, fun c hc => ?_⟩
  rcases Memory.mem_writeCells _ hc with hc | ⟨i, hi, rfl, hne⟩
  · exact hm.2 c hc
  · refine ⟨hne, ?_, ?_⟩
    · calc wordBytes p.wordBits * addr.toNat + i < wordBytes p.wordBits * (addr.toNat + 1) := by
            rw [Nat.mul_add, Nat.mul_one]; omega
        _ ≤ _ := Nat.mul_le_mul_left _ h
    · have hb := cell_within_word hi
      rw [Nat.mul_add_mod, Nat.mod_eq_of_lt hi, BitVec.toNat_ofNat]
      refine Nat.lt_of_le_of_lt (Nat.mod_le _ _) (Nat.div_lt_of_lt_mul ?_)
      rw [show 256 = 2 ^ 8 from rfl, ← Nat.pow_mul, ← Nat.pow_add, show 8 * i + (p.wordBits - 8 * i) = p.wordBits by omega]
      exact v.isLt

/-- A word write leaves every cell outside the word alone (20_memory R44). -/
theorem Memory.byte_write_of_ne {m : Memory} (hm : m.Rising) {addr v : Word w} {j : Nat}
    (h : j / wordBytes w ≠ addr.toNat) : (m.write addr v).byte j = m.byte j := by
  rw [Memory.write, Memory.byte_writeCells _ hm, if_neg]
  rintro ⟨h₁, h₂⟩
  exact h (Nat.div_eq_of_lt_le (by rwa [Nat.mul_comm]) (by rwa [Nat.mul_comm, Nat.mul_add, Nat.mul_one]))

/-- A word read after it is written (20_memory R44, R47). -/
theorem Memory.read_write_same {m : Memory} (hm : m.Rising) (addr v : Word w) : (m.write addr v).read addr = v := by
  rw [Memory.read, Memory.write, Memory.readCells_writeCells _ hm,
    Nat.mod_eq_of_lt (Nat.lt_of_lt_of_le v.isLt two_pow_le_cells),
    BitVec.ofNat_toNat, BitVec.setWidth_eq]

/-- A word write leaves every other word alone (20_memory R44). -/
theorem Memory.read_write_of_ne {m : Memory} (hm : m.Rising) {addr other v : Word w} (h : other ≠ addr) :
    (m.write addr v).read other = m.read other := by
  have hn : other.toNat ≠ addr.toNat := fun e => h (BitVec.eq_of_toNat_eq e)
  rw [Memory.read, Memory.read, Memory.readCells_congr]
  intro j h₁ h₂
  refine Memory.byte_write_of_ne hm ?_
  rwa [Nat.div_eq_of_lt_le (by rwa [Nat.mul_comm]) (by rwa [Nat.mul_comm, Nat.mul_add, Nat.mul_one])]

/-- A word read after a word write, in one rule (20_memory R44, R47). -/
theorem Memory.read_write {m : Memory} (hm : m.Rising) (addr other v : Word w) :
    (m.write addr v).read other = if other = addr then v else m.read other := by
  split
  · subst_vars; exact Memory.read_write_same hm _ _
  · exact Memory.read_write_of_ne hm ‹_›

@[simp] theorem CoreState.peek_eq_some {s : CoreState p} {addr v : p.Word} :
    s.peek addr = some v ↔ inMemory addr = true ∧ s.mem.read addr = v := by
  simp [CoreState.peek]

@[simp] theorem CoreState.peek_eq_none {s : CoreState p} {addr : p.Word} : s.peek addr = none ↔ inMemory addr = false := by
  simp [CoreState.peek]

/-- Placing a word keeps the canonical form. -/
theorem CoreState.poke_wf {s : CoreState p} (hs : s.mem.wf p = true) (addr v : p.Word) :
    (s.poke addr v).mem.wf p = true := by
  unfold CoreState.poke
  split
  · exact Memory.write_wf hs ‹_› v
  · exact hs

end Sys2Proof.Machine
end

