-- ==== Sys2Proof/Laws/State.lean ====
section
/-! SUPPORT. The small lemmas of State and its parts: one for each field and update, so that no later proof unfolds a record
update. -/

namespace Sys2Proof.Machine

variable {p : Params} {w : Nat}

/-! ## Register names -/

/-- The number of a register (10_state R17). -/
theorem RegName.index_toNat (r : RegName) : (r.index : p.Word).toNat = (r.index : BitVec 32).toNat := by
  cases r <;> exact p.toNat_ofNat (by decide)

@[simp] theorem RegName.ofIndex_index (r : RegName) : RegName.ofIndex (r.index : p.Word) = some r := by
  rw [RegName.ofIndex, RegName.index_toNat]
  cases r <;> rfl

theorem RegName.index_toNat_lt (r : RegName) : (r.index : p.Word).toNat < Config.numRegs := by
  rw [RegName.index_toNat]
  cases r <;> decide

theorem RegName.ofIndex_isSome {x : p.Word} (h : x.toNat < Config.numRegs) : ∃ r, RegName.ofIndex x = some r := by
  simp only [Config.numRegs] at h
  unfold RegName.ofIndex
  generalize x.toNat = n at h
  interval_cases n <;> exact ⟨_, rfl⟩

theorem RegName.ofIndex_eq_some {x : p.Word} {r : RegName} : RegName.ofIndex x = some r ↔ x = r.index := by
  constructor
  · intro h
    apply BitVec.eq_of_toNat_eq
    rw [RegName.index_toNat]
    simp only [RegName.ofIndex] at h
    split at h <;> first | (injection h with h; subst h; assumption) | cases h
  · rintro rfl; simp

theorem RegName.ofIndex_eq_none {x : p.Word} : RegName.ofIndex x = none ↔ ¬ x.toNat < Config.numRegs := by
  constructor
  · intro h hlt
    obtain ⟨r, hr⟩ := RegName.ofIndex_isSome hlt
    simp [hr] at h
  · intro h
    cases hr : RegName.ofIndex x with
    | none => rfl
    | some r =>
      rw [RegName.ofIndex_eq_some] at hr
      subst hr
      exact absurd r.index_toNat_lt h

/-! ## Register file: read after write -/

@[simp] theorem RegFile.get_set_same (x : RegFile w) (r : RegName) (v : Word w) : (x.set r v).get r = v := by
  cases r <;> rfl

theorem RegFile.get_set_of_ne (x : RegFile w) {q r : RegName} (h : q ≠ r) (v : Word w) : (x.set r v).get q = x.get q := by
  cases q <;> cases r <;> first | rfl | exact absurd rfl h

theorem RegFile.get_set (x : RegFile w) (q r : RegName) (v : Word w) :
    (x.set r v).get q = if q = r then v else x.get q := by
  split
  · subst_vars; simp
  · exact RegFile.get_set_of_ne x ‹_› v

@[simp] theorem RegFile.set_set_same (x : RegFile w) (r : RegName) (v u : Word w) : (x.set r v).set r u = x.set r u := by
  cases r <;> rfl

theorem RegFile.set_set_comm (x : RegFile w) {q r : RegName} (h : q ≠ r) (v u : Word w) :
    (x.set q v).set r u = (x.set r u).set q v := by
  cases q <;> cases r <;> first | rfl | exact absurd rfl h

theorem RegFile.pc_eq_get (x : RegFile w) : x.pc = x.get .pc := rfl
theorem RegFile.ir_eq_get (x : RegFile w) : x.ir = x.get .ir := rfl
theorem RegFile.flags_eq_get (x : RegFile w) : x.flags = x.get .flags := rfl
theorem RegFile.stackBottom_eq_get (x : RegFile w) : x.stackBottom = x.get .stackBottom := rfl
theorem RegFile.stackTop_eq_get (x : RegFile w) : x.stackTop = x.get .stackTop := rfl

@[simp] theorem RegFile.set_pc_pc (x : RegFile w) (v : Word w) : (x.set .pc v).pc = v := rfl
@[simp] theorem RegFile.set_pc_ir (x : RegFile w) (v : Word w) : (x.set .pc v).ir = x.ir := rfl
@[simp] theorem RegFile.set_pc_flags (x : RegFile w) (v : Word w) : (x.set .pc v).flags = x.flags := rfl
@[simp] theorem RegFile.set_pc_stackBottom (x : RegFile w) (v : Word w) : (x.set .pc v).stackBottom = x.stackBottom := rfl
@[simp] theorem RegFile.set_pc_stackTop (x : RegFile w) (v : Word w) : (x.set .pc v).stackTop = x.stackTop := rfl
@[simp] theorem RegFile.set_ir_pc (x : RegFile w) (v : Word w) : (x.set .ir v).pc = x.pc := rfl
@[simp] theorem RegFile.set_ir_ir (x : RegFile w) (v : Word w) : (x.set .ir v).ir = v := rfl
@[simp] theorem RegFile.set_ir_flags (x : RegFile w) (v : Word w) : (x.set .ir v).flags = x.flags := rfl
@[simp] theorem RegFile.set_ir_stackBottom (x : RegFile w) (v : Word w) : (x.set .ir v).stackBottom = x.stackBottom := rfl
@[simp] theorem RegFile.set_ir_stackTop (x : RegFile w) (v : Word w) : (x.set .ir v).stackTop = x.stackTop := rfl
@[simp] theorem RegFile.set_stackTop_pc (x : RegFile w) (v : Word w) : (x.set .stackTop v).pc = x.pc := rfl
@[simp] theorem RegFile.set_stackTop_ir (x : RegFile w) (v : Word w) : (x.set .stackTop v).ir = x.ir := rfl
@[simp] theorem RegFile.set_stackTop_flags (x : RegFile w) (v : Word w) : (x.set .stackTop v).flags = x.flags := rfl
@[simp] theorem RegFile.set_stackTop_stackBottom (x : RegFile w) (v : Word w) :
    (x.set .stackTop v).stackBottom = x.stackBottom := rfl
@[simp] theorem RegFile.set_stackTop_stackTop (x : RegFile w) (v : Word w) : (x.set .stackTop v).stackTop = v := rfl
@[simp] theorem RegFile.setFlags_pc (x : RegFile w) (v : Word w) : (x.setFlags v).pc = x.pc := rfl
@[simp] theorem RegFile.setFlags_ir (x : RegFile w) (v : Word w) : (x.setFlags v).ir = x.ir := rfl
@[simp] theorem RegFile.setFlags_flags (x : RegFile w) (v : Word w) : (x.setFlags v).flags = flagsAfter x.flags v := rfl
@[simp] theorem RegFile.setFlags_stackBottom (x : RegFile w) (v : Word w) :
    (x.setFlags v).stackBottom = x.stackBottom := rfl
@[simp] theorem RegFile.setFlags_stackTop (x : RegFile w) (v : Word w) : (x.setFlags v).stackTop = x.stackTop := rfl

theorem RegFile.get_setFlags (x : RegFile w) (q : RegName) (v : Word w) :
    (x.setFlags v).get q = if q = .flags then flagsAfter x.flags v else x.get q := RegFile.get_set _ _ _ _

/-! ## Datapath and state updates -/

@[simp] theorem CoreState.put_regs (s : CoreState p) (b : Bus) (x : p.Word) : (s.put b x).regs = s.regs := rfl
@[simp] theorem CoreState.put_mem (s : CoreState p) (b : Bus) (x : p.Word) : (s.put b x).mem = s.mem := rfl
@[simp] theorem CoreState.put_ctrl (s : CoreState p) (b : Bus) (x : p.Word) : (s.put b x).ctrl = s.ctrl := rfl
@[simp] theorem CoreState.put_boundaries (s : CoreState p) (b : Bus) (x : p.Word) :
    (s.put b x).boundaries = s.boundaries := rfl
@[simp] theorem CoreState.put_phase (s : CoreState p) (b : Bus) (x : p.Word) : (s.put b x).dp.memPhase = s.dp.memPhase := by
  cases b <;> rfl

/-- A put is seen on its own segment (40_datapath R67). -/
@[simp] theorem Datapath.get_put_same (d : Datapath w) (b : Bus) (x : Word w) : (d.put b x).get b = x := by cases b <;> rfl

/-- A put changes no other segment (40_datapath R69). -/
theorem Datapath.get_put_of_ne (d : Datapath w) {b c : Bus} (h : c ≠ b) (x : Word w) : (d.put b x).get c = d.get c := by
  cases b <;> cases c <;> first | rfl | exact absurd rfl h

/-- A second put destroys the first value (40_datapath R69). -/
@[simp] theorem Datapath.put_put_same (d : Datapath w) (b : Bus) (v x : Word w) : (d.put b v).put b x = d.put b x := by
  cases b <;> rfl

@[simp] theorem CoreState.withCtrl_regs (s : CoreState p) (c : ControlState p.wordBits) :
    (s.withCtrl c).regs = s.regs := rfl
@[simp] theorem CoreState.withCtrl_mem (s : CoreState p) (c : ControlState p.wordBits) : (s.withCtrl c).mem = s.mem := rfl
@[simp] theorem CoreState.withCtrl_ctrl (s : CoreState p) (c : ControlState p.wordBits) : (s.withCtrl c).ctrl = c := rfl
@[simp] theorem CoreState.withCtrl_dp (s : CoreState p) (c : ControlState p.wordBits) : (s.withCtrl c).dp = s.dp := rfl
@[simp] theorem CoreState.withCtrl_boundaries (s : CoreState p) (c : ControlState p.wordBits) :
    (s.withCtrl c).boundaries = s.boundaries := rfl

@[simp] theorem CoreState.endInstruction_regs (s : CoreState p) (c : ControlState p.wordBits) :
    (s.endInstruction c).regs = s.regs := rfl
@[simp] theorem CoreState.endInstruction_mem (s : CoreState p) (c : ControlState p.wordBits) :
    (s.endInstruction c).mem = s.mem := rfl
@[simp] theorem CoreState.endInstruction_ctrl (s : CoreState p) (c : ControlState p.wordBits) :
    (s.endInstruction c).ctrl = c := rfl
@[simp] theorem CoreState.endInstruction_boundaries (s : CoreState p) (c : ControlState p.wordBits) :
    (s.endInstruction c).boundaries = s.boundaries + 1 := rfl
@[simp] theorem CoreState.endInstruction_phase (s : CoreState p) (c : ControlState p.wordBits) :
    (s.endInstruction c).dp.memPhase = s.dp.memPhase := rfl
@[simp] theorem CoreState.endInstruction_peek (s : CoreState p) (c : ControlState p.wordBits) (addr : p.Word) :
    (s.endInstruction c).peek addr = s.peek addr := rfl

/-- The instruction boundary forgets the transients: it depends on the registers, the memory, the phase and the counter. -/
theorem CoreState.endInstruction_congr {s t : CoreState p} (h : SameButTransients s t) (c : ControlState p.wordBits) :
    s.endInstruction c = t.endInstruction c := by
  obtain ⟨h1, h2, h3, h4⟩ := h
  cases s; cases t
  simp_all [CoreState.endInstruction]

theorem SameButTransients.refl (s : CoreState p) : SameButTransients s s := ⟨rfl, rfl, rfl, rfl⟩

end Sys2Proof.Machine
end

