-- ==== Sys2Proof/Laws/Micro.lean ====
section
/-! SUPPORT. How a sequence of micro-operations is reasoned about: what it returns or raises as a function of the register
file and the memory alone, the datapath hidden, and how sequences compose. -/

namespace Sys2Proof.Machine

variable {p : Params} {α β : Type}

/-! ## One micro-operation after another -/

theorem Micro.bind_apply (m : Micro p α) (f : α → Micro p β) (s : CoreState p) :
    (m >>= f) s = match m s with
      | .ok v t => f v t
      | .error r t => .error r t := by
  simp only [bind, EStateM.bind]
  cases m s <;> rfl

@[simp] theorem Micro.map_apply (g : α → β) (m : Micro p α) (s : CoreState p) :
    (g <$> m) s = match m s with
      | .ok v t => .ok (g v) t
      | .error r t => .error r t := by
  simp only [Functor.map, EStateM.map]
  cases m s <;> rfl

@[simp] theorem Micro.pure_apply (v : α) (s : CoreState p) : (pure v : Micro p α) s = .ok v s := rfl
@[simp] theorem Micro.get_apply (s : CoreState p) : (get : Micro p (CoreState p)) s = .ok s s := rfl
@[simp] theorem Micro.set_apply (s t : CoreState p) : (set t : Micro p PUnit) s = .ok () t := rfl
@[simp] theorem Micro.modify_apply (f : CoreState p → CoreState p) (s : CoreState p) :
    (modify f : Micro p PUnit) s = .ok () (f s) := rfl
@[simp] theorem raise_apply (k : ErrorKind) (v a : p.Word) (s : CoreState p) :
    (raise k v a : Micro p α) s = .error ⟨k, v, a⟩ s := rfl

/-! ## Returning and raising, the datapath hidden -/

/-- From registers `x` and memory `M`, with the interface idle, `m` returns `v` and leaves `x'` and `M'` and the interface
idle; the control state and the counter stay. -/
def Micro.Returns (m : Micro p α) (x : RegFile p.wordBits) (M : Memory) (v : α) (x' : RegFile p.wordBits) (M' : Memory) :
    Prop :=
  ∀ s : CoreState p, s.Idle → s.regs = x → s.mem = M →
    ∃ d : Datapath p.wordBits, d.memPhase = .awaitingAddress ∧ m s = .ok v { s with regs := x', mem := M', dp := d }

/-- From registers `x` and memory `M`, with the interface idle, `m` raises `r` and leaves `x'` and `M'` and the interface
idle. -/
def Micro.Raises (m : Micro p α) (x : RegFile p.wordBits) (M : Memory) (r : FaultRecord p.wordBits)
    (x' : RegFile p.wordBits) (M' : Memory) : Prop :=
  ∀ s : CoreState p, s.Idle → s.regs = x → s.mem = M →
    ∃ d : Datapath p.wordBits, d.memPhase = .awaitingAddress ∧ m s = .error r { s with regs := x', mem := M', dp := d }

section Compose
variable {m : Micro p α} {f : α → Micro p β} {x x₁ x₂ : RegFile p.wordBits} {M M₁ M₂ : Memory}
  {v : α} {w : β} {r : FaultRecord p.wordBits}

theorem Micro.Returns.ret (v : α) (x : RegFile p.wordBits) (M : Memory) : Micro.Returns (pure v : Micro p α) x M v x M := by
  rintro s hs rfl rfl
  exact ⟨s.dp, hs, rfl⟩

theorem Micro.Returns.seq (h₁ : m.Returns x M v x₁ M₁) (h₂ : (f v).Returns x₁ M₁ w x₂ M₂) :
    (m >>= f).Returns x M w x₂ M₂ := by
  intro s hs hx hM
  obtain ⟨d, hd, e⟩ := h₁ s hs hx hM
  obtain ⟨d', hd', e'⟩ := h₂ { s with regs := x₁, mem := M₁, dp := d } hd rfl rfl
  exact ⟨d', hd', by rw [Micro.bind_apply, e]; exact e'⟩

theorem Micro.Raises.here (k : ErrorKind) (u a : p.Word) (x : RegFile p.wordBits) (M : Memory) :
    Micro.Raises (raise k u a : Micro p α) x M ⟨k, u, a⟩ x M := by
  rintro s hs rfl rfl
  exact ⟨s.dp, hs, rfl⟩

/-- The first of two raises. -/
theorem Micro.Raises.left (h : m.Raises x M r x₁ M₁) : (m >>= f).Raises x M r x₁ M₁ := by
  intro s hs hx hM
  obtain ⟨d, hd, e⟩ := h s hs hx hM
  exact ⟨d, hd, by rw [Micro.bind_apply, e]⟩

/-- The first of two returns and the second raises. -/
theorem Micro.Raises.right (h₁ : m.Returns x M v x₁ M₁) (h₂ : (f v).Raises x₁ M₁ r x₂ M₂) :
    (m >>= f).Raises x M r x₂ M₂ := by
  intro s hs hx hM
  obtain ⟨d, hd, e⟩ := h₁ s hs hx hM
  obtain ⟨d', hd', e'⟩ := h₂ { s with regs := x₁, mem := M₁, dp := d } hd rfl rfl
  exact ⟨d', hd', by rw [Micro.bind_apply, e]; exact e'⟩

end Compose

/-! ## EXECUTE, once the microprogram's effect is known -/

/-- A microprogram that returns: EXECUTE answers the next FETCH. -/
theorem execute_of_returns {f : (p : Params) → p.Word → Micro p Unit} {s : CoreState p} {x' : RegFile p.wordBits}
    {M' : Memory}
    (hs : s.Idle) (h : (f p s.regs.pc).Returns s.regs s.mem () x' M') :
    execute f ⟨p, s⟩ = .next ⟨p, s.continuesWith x' M'⟩ := by
  obtain ⟨d, hd, e⟩ := h s hs rfl rfl
  simp only [execute, CoreState.execute, e]
  refine congrArg (fun t => Host.Outcome.next (State.mk p t))
    (CoreState.endInstruction_congr (s := ⟨x', M', s.ctrl, d, s.boundaries⟩)
    (t := ⟨x', M', s.ctrl, s.dp, s.boundaries⟩) ⟨rfl, rfl, hd.trans hs.symm, rfl⟩ _)

/-- A microprogram that raises: EXECUTE answers FAULT with the record. -/
theorem execute_of_raises {f : (p : Params) → p.Word → Micro p Unit} {s : CoreState p} {x' : RegFile p.wordBits}
    {M' : Memory}
    {r : FaultRecord p.wordBits} (hs : s.Idle) (h : (f p s.regs.pc).Raises s.regs s.mem r x' M') :
    execute f ⟨p, s⟩ = .next ⟨p, ({ s with regs := x', mem := M' } : CoreState p).enterFault r⟩ := by
  obtain ⟨d, hd, e⟩ := h s hs rfl rfl
  simp only [execute, CoreState.execute, e]
  refine congrArg (fun t => Host.Outcome.next (State.mk p t))
    (CoreState.endInstruction_congr (s := ⟨x', M', s.ctrl, d, s.boundaries⟩)
    (t := ⟨x', M', s.ctrl, s.dp, s.boundaries⟩) ⟨rfl, rfl, hd.trans hs.symm, rfl⟩ _)

theorem next_inj {s t : CoreState p} (h : (Host.Outcome.next ⟨p, s⟩ : Host.Outcome State Fault Refusal) = .next ⟨p, t⟩) :
    s = t := by
  injection h with h
  injection h

/-! ## Whatever happens: what every microprogram keeps -/

/-- What a microprogram of the instruction at some address keeps of the memory, and what it says in a fault record,
beside the registers at the raise. -/
structure Discipline (p : Params) where
  keeps : Memory → Prop
  reports : FaultRecord p.wordBits → RegFile p.wordBits → Prop

/-- From every memory that is kept, `m` returns or raises, as a function of the registers and the memory alone; the memory
it leaves is kept, and what it raises is said. -/
def Micro.Follows (m : Micro p α) (D : Discipline p) : Prop :=
  ∀ x M, D.keeps M →
    (∃ v x' M', m.Returns x M v x' M' ∧ D.keeps M') ∨
    (∃ r x' M', m.Raises x M r x' M' ∧ D.keeps M' ∧ D.reports r x')

theorem Micro.Follows.ret (D : Discipline p) (v : α) : Micro.Follows (pure v : Micro p α) D :=
  fun x M hM => .inl ⟨v, x, M, Micro.Returns.ret v x M, hM⟩

theorem Micro.Follows.seq {D : Discipline p} {m : Micro p α} {f : α → Micro p β} (h₁ : m.Follows D)
    (h₂ : ∀ v, (f v).Follows D) :
    (m >>= f).Follows D := by
  intro x M hM
  rcases h₁ x M hM with ⟨v, x₁, M₁, hr, hk⟩ | ⟨r, x₁, M₁, hr, hk, hs⟩
  · rcases h₂ v x₁ M₁ hk with ⟨w, x₂, M₂, hr', hk'⟩ | ⟨r, x₂, M₂, hr', hk', hs'⟩
    · exact .inl ⟨w, x₂, M₂, hr.seq hr', hk'⟩
    · exact .inr ⟨r, x₂, M₂, Micro.Raises.right hr hr', hk', hs'⟩
  · exact .inr ⟨r, x₁, M₁, Micro.Raises.left hr, hk, hs⟩

theorem Micro.Follows.ite {D : Discipline p} {c : Prop} [Decidable c] {m n : Micro p α} (h₁ : m.Follows D)
    (h₂ : n.Follows D) :
    (if c then m else n).Follows D := by
  split
  · exact h₁
  · exact h₂

theorem Micro.Follows.here {D : Discipline p} {k : ErrorKind} {u a : p.Word} (h : ∀ x, D.reports ⟨k, u, a⟩ x) :
    Micro.Follows (raise k u a : Micro p α) D :=
  fun x M hM => .inr ⟨_, x, M, Micro.Raises.here k u a x M, hM, h x⟩

end Sys2Proof.Machine
end

