-- ==== Sys2Proof/Laws/Ops.lean ====
section
/-! SUPPORT. What each shared operation returns or raises, as a function of the register file and the memory: the
register-transfer reading of spec/41_control_unit.md that the datapath sequences of Machine/Ops.lean carry out. -/

namespace Sys2Proof.Machine

variable {p : Params} {α : Type} {x : RegFile p.wordBits} {M : Memory}

/-! ## Memory -/

theorem memRead_returns (a : p.Word) {addr : p.Word} (h : inMemory addr = true) (x : RegFile p.wordBits) (M : Memory) :
    (memRead a addr).Returns x M (M.read addr) x M := by
  rintro s hs rfl rfl
  refine ⟨s.dp.put .ext (s.mem.read addr), hs, ?_⟩
  simp [memRead, memoryRead, Micro.bind_apply, CoreState.put, Datapath.put, CoreState.busWord, Datapath.get, hs, h]

theorem memRead_raises (a : p.Word) {addr : p.Word} (h : inMemory addr = false) (x : RegFile p.wordBits) (M : Memory) :
    (memRead a addr).Raises x M ⟨.outOfBoundsAddress, addr, a⟩ x M := by
  rintro s hs rfl rfl
  refine ⟨s.dp.put .ext addr, hs, ?_⟩
  simp [memRead, memoryRead, Micro.bind_apply, CoreState.put, Datapath.put, hs, h]

theorem memWrite_returns (a : p.Word) {addr : p.Word} (h : inMemory addr = true) (v : p.Word) (x : RegFile p.wordBits)
    (M : Memory) :
    (memWrite a addr v).Returns x M () x (M.write addr v) := by
  rintro s hs rfl rfl
  refine ⟨{ s.dp with extbus := v, latchedAddress := addr, memPhase := .awaitingAddress }, rfl, ?_⟩
  simp [memWrite, memoryStore, Micro.bind_apply, CoreState.put, Datapath.put, hs, h]

theorem memWrite_raises (a : p.Word) {addr : p.Word} (h : inMemory addr = false) (v : p.Word) (x : RegFile p.wordBits)
    (M : Memory) :
    (memWrite a addr v).Raises x M ⟨.outOfBoundsAddress, addr, a⟩ x M := by
  rintro s hs rfl rfl
  refine ⟨{ s.dp with extbus := addr, latchedAddress := addr }, hs, ?_⟩
  simp [memWrite, memoryStore, Micro.bind_apply, CoreState.put, Datapath.put, hs, h]

/-! ## Registers -/

theorem readPort_returns (r : RegName) (x : RegFile p.wordBits) (M : Memory) : (readPort r).Returns x M (x.get r) x M := by
  rintro s hs rfl rfl
  exact ⟨s.dp.put .ext (s.regs.get r), hs, rfl⟩

theorem writePort_returns (r : RegName) (v : p.Word) (x : RegFile p.wordBits) (M : Memory) :
    (writePort r v).Returns x M () (x.set r v) M := by
  rintro s hs rfl rfl
  exact ⟨s.dp.put .ext v, hs, rfl⟩

theorem setPc_returns (v : p.Word) (x : RegFile p.wordBits) (M : Memory) : (setPc v).Returns x M () (x.set .pc v) M :=
  writePort_returns .pc v x M

theorem select_returns (w : p.Word) (x : RegFile p.wordBits) (M : Memory) :
    Micro.Returns (modify (·.select w)) x M () x M := by
  rintro s hs rfl rfl
  exact ⟨{ s.dp with selector := w }, hs, rfl⟩

/-- An indexed operation of an external port is that operation on the register the selector names. -/
theorem indexed_apply (a : p.Word) (operation : CoreState p → RegName → CoreState p) (s : CoreState p) :
    indexed a operation s = match RegName.ofIndex s.selected with
      | some r => .ok () (operation s r)
      | none => .error ⟨.invalidRegisterIndex, s.selected, a⟩ s := by
  simp only [indexed, selectedRegister, Micro.bind_apply, Micro.get_apply]
  cases RegName.ofIndex s.selected <;> rfl

/-- The internal port an index gives is the port of the register it names. -/
theorem InternalPort.ofIndexed_register (named : Option RegName) (h : named ≠ some .ir) :
    (InternalPort.ofIndexed named h).map InternalPort.register = named := by
  rcases named with _ | r
  · rfl
  · cases r <;> first | rfl | exact absurd rfl h

/-- An indexed operation of an internal port is that operation on the port of the register the index names. -/
theorem internalIndexed_apply (a index : p.Word) (h : RegName.ofIndex index ≠ some .ir)
    (operation : CoreState p → InternalPort → CoreState p) (s : CoreState p) :
    internalIndexed a index h operation s = match InternalPort.ofIndexed (RegName.ofIndex index) h with
      | some port => .ok () (operation (s.select index) port)
      | none => .error ⟨.invalidRegisterIndex, index, a⟩ (s.select index) := by
  simp only [internalIndexed, Micro.bind_apply, Micro.modify_apply]
  cases InternalPort.ofIndexed (RegName.ofIndex index) h <;> rfl

theorem readReg_returns (a : p.Word) (r : RegName) (x : RegFile p.wordBits) (M : Memory) :
    (readReg a r.index).Returns x M (x.get r) x M := by
  rintro s hs rfl rfl
  refine ⟨{ s.dp with selector := r.index, extbus := s.regs.get r }, hs, ?_⟩
  simp [readReg, indexed_apply, Micro.bind_apply, CoreState.select, CoreState.selected, CoreState.portRead, CoreState.put,
    Datapath.put, CoreState.busWord, Datapath.get]

theorem readReg_raises (a : p.Word) {w : p.Word} (h : RegName.ofIndex w = none) (x : RegFile p.wordBits) (M : Memory) :
    (readReg a w).Raises x M ⟨.invalidRegisterIndex, w, a⟩ x M := by
  rintro s hs rfl rfl
  refine ⟨{ s.dp with selector := w }, hs, ?_⟩
  simp [readReg, indexed_apply, Micro.bind_apply, CoreState.select, CoreState.selected, h]

theorem writeReg_returns (a : p.Word) (r : RegName) (v : p.Word) (x : RegFile p.wordBits) (M : Memory) :
    (writeReg a r.index v).Returns x M () (x.set r v) M := by
  rintro s hs rfl rfl
  refine ⟨{ s.dp with selector := r.index, extbus := v }, hs, ?_⟩
  simp [writeReg, indexed_apply, Micro.bind_apply, CoreState.select, CoreState.selected, CoreState.portStore, CoreState.put,
    Datapath.put, CoreState.busWord, Datapath.get]

theorem writeReg_raises (a : p.Word) {w : p.Word} (h : RegName.ofIndex w = none) (v : p.Word) (x : RegFile p.wordBits)
    (M : Memory) :
    (writeReg a w v).Raises x M ⟨.invalidRegisterIndex, w, a⟩ x M := by
  rintro s hs rfl rfl
  refine ⟨{ s.dp with selector := w, extbus := v }, hs, ?_⟩
  simp [writeReg, indexed_apply, Micro.bind_apply, CoreState.select, CoreState.selected, CoreState.put, Datapath.put, h]

/-! ## ALU, flags, pc -/

theorem alu_returns (op : AluOp) (u v : p.Word) (x : RegFile p.wordBits) (M : Memory) :
    (alu op u v).Returns x M (op.apply u v) x M := by
  rintro s hs rfl rfl
  exact ⟨{ s.dp with intbus1 := op.apply u v, aluSlot0 := u, aluSlot1 := op.apply u v }, hs, rfl⟩

theorem aluIncrement_returns (u : p.Word) (x : RegFile p.wordBits) (M : Memory) :
    (aluIncrement u).Returns x M (u + 1) x M := by
  rintro s hs rfl rfl
  exact ⟨{ s.dp with intbus1 := u + 1, aluSlot1 := u + 1 }, hs, rfl⟩

theorem setFlags_returns (v : p.Word) (x : RegFile p.wordBits) (M : Memory) :
    (setFlags v).Returns x M () (x.setFlags v) M := by
  rintro s hs rfl rfl
  exact ⟨s.dp, hs, rfl⟩

/-- pcAdvance, to the last bus and slot (40_datapath R86). -/
theorem advance_apply (s : CoreState p) :
    advance s = .ok () { s with
      regs := s.regs.set .pc (s.regs.pc + 1)
      dp := { s.dp with intbus2 := s.regs.pc + 1, aluSlot1 := s.regs.pc + 1 } } := rfl

theorem advance_returns (x : RegFile p.wordBits) (M : Memory) : advance.Returns x M () (x.set .pc (x.pc + 1)) M := by
  rintro s hs rfl rfl
  exact ⟨{ s.dp with intbus2 := s.regs.pc + 1, aluSlot1 := s.regs.pc + 1 }, hs, advance_apply s⟩

theorem jumpIf_returns (c : Bool) (t : p.Word) (x : RegFile p.wordBits) (M : Memory) :
    (jumpIf c t).Returns x M () (x.set .pc (if c then t else x.pc + 1)) M := by
  cases c
  · exact advance_returns x M
  · exact setPc_returns t x M

/-- Reading the flags, as the jumps do. -/
theorem getState_flags_returns {β : Type} {f : p.Word → Micro p β} {w : β} {x' : RegFile p.wordBits} {M' : Memory}
    (h : (f x.flags).Returns x M w x' M') :
    Micro.Returns (do let s ← get; f s.regs.flags) x M w x' M' := by
  rintro s hs rfl rfl
  exact h s hs rfl rfl

/-! ## Operands -/

theorem operandWord_returns (a : p.Word) {x : RegFile p.wordBits} (h : inMemory x.pc = true) (M : Memory) :
    (operandWord a).Returns x M (M.read x.pc) x M :=
  (readPort_returns .pc x M).seq (memRead_returns a h x M)

theorem operandWord_raises (a : p.Word) {x : RegFile p.wordBits} (h : inMemory x.pc = false) (M : Memory) :
    (operandWord a).Raises x M ⟨.outOfBoundsAddress, x.pc, a⟩ x M :=
  Micro.Raises.right (readPort_returns .pc x M) (memRead_raises a h x M)

/-- A word is a register index, as signed words compare, exactly when it is one as a natural number. -/
theorem register_index_in_range (r : p.Word) :
    (r.slt 0 || !r.slt (BitVec.ofNat p.wordBits Config.numRegs)) = !decide (r.toNat < Config.numRegs) := by
  have h := p.slt_range r (n := Config.numRegs) (p.lt_half (by decide))
  rw [← h]
  cases r.slt 0 <;> simp

/-- The check of 41_control_unit R95: it passes exactly the words that name a register. -/
theorem checkReg_eq (a r : p.Word) :
    checkReg a r = if (RegName.ofIndex r).isSome then pure () else raise .invalidRegisterIndex r a := by
  unfold checkReg
  rw [register_index_in_range]
  by_cases h : r.toNat < Config.numRegs
  · obtain ⟨q, hq⟩ := RegName.ofIndex_isSome h
    simp [h, hq]
  · simp [h, RegName.ofIndex_eq_none.2 h]

theorem checkReg_index (a : p.Word) (r : RegName) : checkReg a r.index = pure () := by simp [checkReg_eq]

theorem checkReg_none (a : p.Word) {w : p.Word} (h : RegName.ofIndex w = none) :
    checkReg a w = raise .invalidRegisterIndex w a := by simp [checkReg_eq, h]

theorem registerOperand_returns (a : p.Word) {x : RegFile p.wordBits} {M : Memory} {r : RegName} (h : inMemory x.pc = true)
    (hr : M.read x.pc = r.index) : (registerOperand a).Returns x M r.index x M := by
  refine (operandWord_returns a h M).seq ?_
  rw [hr, checkReg_index]
  exact (Micro.Returns.ret () x M).seq (Micro.Returns.ret _ x M)

theorem registerOperand_raises_oob (a : p.Word) {x : RegFile p.wordBits} (h : inMemory x.pc = false) (M : Memory) :
    (registerOperand a).Raises x M ⟨.outOfBoundsAddress, x.pc, a⟩ x M :=
  Micro.Raises.left (operandWord_raises a h M)

theorem registerOperand_raises_index (a : p.Word) {x : RegFile p.wordBits} {M : Memory} (h : inMemory x.pc = true)
    (hr : RegName.ofIndex (M.read x.pc) = none) :
    (registerOperand a).Raises x M ⟨.invalidRegisterIndex, M.read x.pc, a⟩ x M := by
  refine Micro.Raises.right (operandWord_returns a h M) ?_
  rw [checkReg_none a hr]
  exact Micro.Raises.left (Micro.Raises.here _ _ _ x M)

/-! ## Scratch save, stack -/

theorem save_returns (a : p.Word) {x : RegFile p.wordBits} (h : inMemory x.stackTop = true) (M : Memory) :
    (save a).Returns x M () x (M.write x.stackTop x.pc) :=
  (readPort_returns .stackTop x M).seq ((readPort_returns .pc x M).seq (memWrite_returns a h x.pc x M))

theorem save_raises (a : p.Word) {x : RegFile p.wordBits} (h : inMemory x.stackTop = false) (M : Memory) :
    (save a).Raises x M ⟨.outOfBoundsAddress, x.stackTop, a⟩ x M :=
  Micro.Raises.right (readPort_returns .stackTop x M)
    (Micro.Raises.right (readPort_returns .pc x M) (memWrite_raises a h x.pc x M))

theorem restore_returns (a : p.Word) {x : RegFile p.wordBits} (h : inMemory x.stackTop = true) (M : Memory) :
    (restore a).Returns x M () (x.set .pc (M.read x.stackTop)) M :=
  (readPort_returns .stackTop x M).seq ((memRead_returns a h x M).seq (setPc_returns _ x M))

theorem enterMemoryOperand_returns (a : p.Word) {x : RegFile p.wordBits} (h : inMemory x.stackTop = true)
    (hp : inMemory x.pc = true) (M : Memory) :
    (enterMemoryOperand a).Returns x M ()
      (x.set .pc ((M.write x.stackTop x.pc).read x.pc)) (M.write x.stackTop x.pc) :=
  (save_returns a h M).seq ((operandWord_returns a hp _).seq (setPc_returns _ x _))

theorem writeAtPc_returns (a v : p.Word) {x : RegFile p.wordBits} (h : inMemory x.pc = true) (M : Memory) :
    (writeAtPc a v).Returns x M () x (M.write x.pc v) :=
  (readPort_returns .pc x M).seq (memWrite_returns a h v x M)

/-- A push that fits (46_call_ret R126). -/
theorem push_returns (a v : p.Word) {x : RegFile p.wordBits} (hlow : x.stackTop.slt p.stackLow = false)
    (h : inMemory x.stackTop = true) (M : Memory) :
    (push a v).Returns x M () (x.set .stackTop (x.stackTop - 1)) (M.write x.stackTop v) := by
  refine (readPort_returns .stackTop x M).seq ?_
  have e : x.get .stackTop = x.stackTop := rfl
  simp only [e, hlow, Bool.false_eq_true, if_false]
  exact (memWrite_returns a h v x M).seq
    ((alu_returns .sub x.stackTop 1 x _).seq (writePort_returns .stackTop _ x _))

theorem push_raises_overflow (a v : p.Word) {x : RegFile p.wordBits} (hlow : x.stackTop.slt p.stackLow = true)
    (M : Memory) :
    (push a v).Raises x M ⟨.stackOverflow, x.stackTop, a⟩ x M := by
  refine Micro.Raises.right (readPort_returns .stackTop x M) ?_
  have e : x.get .stackTop = x.stackTop := rfl
  simp only [e, hlow, if_true]
  exact Micro.Raises.left (Micro.Raises.here _ _ _ x M)

theorem push_raises_oob (a v : p.Word) {x : RegFile p.wordBits} (hlow : x.stackTop.slt p.stackLow = false)
    (h : inMemory x.stackTop = false) (M : Memory) :
    (push a v).Raises x M ⟨.outOfBoundsAddress, x.stackTop, a⟩ x M := by
  refine Micro.Raises.right (readPort_returns .stackTop x M) ?_
  have e : x.get .stackTop = x.stackTop := rfl
  simp only [e, hlow, Bool.false_eq_true, if_false]
  exact Micro.Raises.left (memWrite_raises a h v x M)

/-- A pop that finds a word (46_call_ret R127). -/
theorem pop_returns (a : p.Word) {x : RegFile p.wordBits} (hne : x.stackTop.slt x.stackBottom = true)
    (h : inMemory (x.stackTop + 1) = true) (M : Memory) :
    (pop a).Returns x M (M.read (x.stackTop + 1)) (x.set .stackTop (x.stackTop + 1)) M := by
  refine (readPort_returns .stackTop x M).seq ((readPort_returns .stackBottom x M).seq ?_)
  have e : x.get .stackTop = x.stackTop := rfl
  have e' : x.get .stackBottom = x.stackBottom := rfl
  simp only [e, e', hne, Bool.not_true, Bool.false_eq_true, if_false]
  exact (aluIncrement_returns _ x M).seq ((memRead_returns a h x M).seq
    ((writePort_returns .stackTop _ x M).seq (Micro.Returns.ret _ _ M)))

theorem pop_raises_underflow (a : p.Word) {x : RegFile p.wordBits} (hne : x.stackTop.slt x.stackBottom = false)
    (M : Memory) :
    (pop a).Raises x M ⟨.stackUnderflow, x.stackTop, a⟩ x M := by
  refine Micro.Raises.right (readPort_returns .stackTop x M) (Micro.Raises.right (readPort_returns .stackBottom x M) ?_)
  have e : x.get .stackTop = x.stackTop := rfl
  have e' : x.get .stackBottom = x.stackBottom := rfl
  simp only [e, e', hne, Bool.not_false, if_true]
  exact Micro.Raises.left (Micro.Raises.here _ _ _ x M)

theorem pop_raises_oob (a : p.Word) {x : RegFile p.wordBits} (hne : x.stackTop.slt x.stackBottom = true)
    (h : inMemory (x.stackTop + 1) = false) (M : Memory) :
    (pop a).Raises x M ⟨.outOfBoundsAddress, x.stackTop + 1, a⟩ x M := by
  refine Micro.Raises.right (readPort_returns .stackTop x M) (Micro.Raises.right (readPort_returns .stackBottom x M) ?_)
  have e : x.get .stackTop = x.stackTop := rfl
  have e' : x.get .stackBottom = x.stackBottom := rfl
  simp only [e, e', hne, Bool.not_true, Bool.false_eq_true, if_false]
  exact Micro.Raises.right (aluIncrement_returns _ x M) (Micro.Raises.left (memRead_raises a h x M))

/-! ## FETCH -/

/-- A FETCH inside memory (41_control_unit R88), to the last bus. -/
theorem fetch_ok {s : CoreState p} (hs : s.Idle) (h : inMemory s.regs.pc = true) :
    fetch s = .ok () { s with
      regs := s.regs.set .ir (s.mem.read s.regs.pc)
      dp := { s.dp with extbus := s.mem.read s.regs.pc } } := by
  have e : s.regs.get .pc = s.regs.pc := rfl
  simp [fetch, memoryRead, Micro.bind_apply, CoreState.portRead, CoreState.portStore, CoreState.put,
    Datapath.put, CoreState.busWord,
    Datapath.get, hs, h, e]

theorem fetch_raises {s : CoreState p} (hs : s.Idle) (h : inMemory s.regs.pc = false) :
    fetch s = .error ⟨.outOfBoundsAddress, s.regs.pc, s.regs.pc⟩ (s.put .ext s.regs.pc) := by
  have e : s.regs.get .pc = s.regs.pc := rfl
  simp [fetch, memoryRead, Micro.bind_apply, CoreState.portRead, CoreState.put, Datapath.put, hs, h, e]

end Sys2Proof.Machine
end

