-- ==== Sys2Proof/Laws/Follows.lean ====
section
/-! SUPPORT. What every microprogram keeps and what it can raise, said once: each primitive follows every discipline that
fits the instruction's address, and so does each microprogram, sequence by sequence. -/

namespace Sys2Proof.Machine

variable {p : Params}

/-- A discipline fits the microprograms of the instruction at `a` that store nothing: it reports what the primitives can
raise (60_exceptions R132, R133). -/
structure Discipline.FitsReads (D : Discipline p) (a : p.Word) : Prop where
  outOfBounds : ∀ {addr : p.Word}, inMemory addr = false → ∀ x, D.reports ⟨.outOfBoundsAddress, addr, a⟩ x
  badIndex : ∀ {w : p.Word}, RegName.ofIndex w = none → ∀ x, D.reports ⟨.invalidRegisterIndex, w, a⟩ x
  overflow : ∀ {x : RegFile p.wordBits}, x.stackTop.slt p.stackLow = true → D.reports ⟨.stackOverflow, x.stackTop, a⟩ x
  underflow : ∀ {x : RegFile p.wordBits}, x.stackTop.slt x.stackBottom = false →
    D.reports ⟨.stackUnderflow, x.stackTop, a⟩ x

/-- A discipline fits every microprogram of the instruction at `a`: it also keeps a memory written inside its bounds. -/
structure Discipline.Fits (D : Discipline p) (a : p.Word) : Prop extends D.FitsReads a where
  write : ∀ {M : Memory} {addr : p.Word} (v : p.Word), D.keeps M → inMemory addr = true → D.keeps (M.write addr v)

section Primitives
variable {D : Discipline p} {a : p.Word}

theorem memRead_follows (h : D.FitsReads a) (addr : p.Word) : (memRead a addr).Follows D := fun x M hM => by
  by_cases hb : inMemory addr = true
  · exact .inl ⟨_, _, _, memRead_returns a hb x M, hM⟩
  · rw [Bool.not_eq_true] at hb
    exact .inr ⟨_, _, _, memRead_raises a hb x M, hM, h.outOfBounds hb x⟩

theorem memWrite_follows (h : D.Fits a) (addr v : p.Word) : (memWrite a addr v).Follows D := fun x M hM => by
  by_cases hb : inMemory addr = true
  · exact .inl ⟨_, _, _, memWrite_returns a hb v x M, h.write v hM hb⟩
  · rw [Bool.not_eq_true] at hb
    exact .inr ⟨_, _, _, memWrite_raises a hb v x M, hM, h.outOfBounds hb x⟩

theorem readPort_follows (r : RegName) : (readPort r).Follows D := fun x M hM =>
  .inl ⟨_, _, _, readPort_returns r x M, hM⟩

theorem writePort_follows (r : RegName) (v : p.Word) : (writePort r v).Follows D := fun x M hM =>
  .inl ⟨_, _, _, writePort_returns r v x M, hM⟩

theorem readReg_follows (h : D.FitsReads a) (w : p.Word) : (readReg a w).Follows D := fun x M hM => by
  cases hr : RegName.ofIndex w with
  | none => exact .inr ⟨_, _, _, readReg_raises a hr x M, hM, h.badIndex hr x⟩
  | some r =>
    rw [RegName.ofIndex_eq_some] at hr
    subst hr
    exact .inl ⟨_, _, _, readReg_returns a r x M, hM⟩

theorem writeReg_follows (h : D.FitsReads a) (w v : p.Word) : (writeReg a w v).Follows D := fun x M hM => by
  cases hr : RegName.ofIndex w with
  | none => exact .inr ⟨_, _, _, writeReg_raises a hr v x M, hM, h.badIndex hr x⟩
  | some r =>
    rw [RegName.ofIndex_eq_some] at hr
    subst hr
    exact .inl ⟨_, _, _, writeReg_returns a r v x M, hM⟩

theorem alu_follows (op : AluOp) (u v : p.Word) : (alu op u v).Follows D := fun x M hM =>
  .inl ⟨_, _, _, alu_returns op u v x M, hM⟩

theorem aluIncrement_follows (u : p.Word) : (aluIncrement u).Follows D := fun x M hM =>
  .inl ⟨_, _, _, aluIncrement_returns u x M, hM⟩

theorem setFlags_follows (v : p.Word) : (setFlags v).Follows D := fun x M hM =>
  .inl ⟨_, _, _, setFlags_returns v x M, hM⟩

theorem advance_follows : advance.Follows D := fun x M hM => .inl ⟨_, _, _, advance_returns x M, hM⟩

theorem setPc_follows (v : p.Word) : (setPc v).Follows D := writePort_follows .pc v

theorem jumpIf_follows (c : Bool) (t : p.Word) : (jumpIf c t).Follows D := fun x M hM =>
  .inl ⟨_, _, _, jumpIf_returns c t x M, hM⟩

theorem jumpOnFlags_follows (taken : p.Word → Bool) (t : p.Word) :
    Micro.Follows (do jumpIf (taken (← get).regs.flags) t) D := fun x M hM =>
  .inl ⟨_, _, _, getState_flags_returns (f := fun f => jumpIf (taken f) t) (jumpIf_returns _ t x M), hM⟩

theorem operandWord_follows (h : D.FitsReads a) : (operandWord a).Follows D :=
  (readPort_follows .pc).seq fun here => memRead_follows h here

theorem checkReg_follows (h : D.FitsReads a) (w : p.Word) : (checkReg a w).Follows D := by
  cases hr : RegName.ofIndex w with
  | none => rw [checkReg_none a hr]; exact Micro.Follows.here (h.badIndex hr)
  | some r =>
    rw [RegName.ofIndex_eq_some] at hr
    subst hr
    rw [checkReg_index]
    exact Micro.Follows.ret D ()

theorem registerOperand_follows (h : D.FitsReads a) : (registerOperand a).Follows D :=
  (operandWord_follows h).seq fun w => (checkReg_follows h w).seq fun _ => Micro.Follows.ret D w

theorem save_follows (h : D.Fits a) : (save a).Follows D :=
  (readPort_follows .stackTop).seq fun c => (readPort_follows .pc).seq fun here => memWrite_follows h c here

theorem restore_follows (h : D.FitsReads a) : (restore a).Follows D :=
  (readPort_follows .stackTop).seq fun c => (memRead_follows h c).seq fun saved => setPc_follows saved

theorem enterMemoryOperand_follows (h : D.Fits a) : (enterMemoryOperand a).Follows D :=
  (save_follows h).seq fun _ => (operandWord_follows h.toFitsReads).seq fun m => setPc_follows m

theorem writeAtPc_follows (h : D.Fits a) (v : p.Word) : (writeAtPc a v).Follows D :=
  (readPort_follows .pc).seq fun here => memWrite_follows h here v

theorem push_follows (h : D.Fits a) (v : p.Word) : (push a v).Follows D := fun x M hM => by
  by_cases hlow : x.stackTop.slt p.stackLow = true
  · exact .inr ⟨_, _, _, push_raises_overflow a v hlow M, hM, h.overflow hlow⟩
  · rw [Bool.not_eq_true] at hlow
    by_cases hb : inMemory x.stackTop = true
    · exact .inl ⟨_, _, _, push_returns a v hlow hb M, h.write v hM hb⟩
    · rw [Bool.not_eq_true] at hb
      exact .inr ⟨_, _, _, push_raises_oob a v hlow hb M, hM, h.outOfBounds hb x⟩

theorem pop_follows (h : D.FitsReads a) : (pop a).Follows D := fun x M hM => by
  by_cases hne : x.stackTop.slt x.stackBottom = true
  · by_cases hb : inMemory (x.stackTop + 1) = true
    · exact .inl ⟨_, _, _, pop_returns a hne hb M, hM⟩
    · rw [Bool.not_eq_true] at hb
      exact .inr ⟨_, _, _, pop_raises_oob a hne hb M, hM, h.outOfBounds hb x⟩
  · rw [Bool.not_eq_true] at hne
    exact .inr ⟨_, _, _, pop_raises_underflow a hne M, hM, h.underflow hne⟩

end Primitives

section Microprograms
variable {D : Discipline p} {a : p.Word}

theorem arithmeticToRegister_follows (h : D.FitsReads a) (op : AluOp) (d v : p.Word) :
    (arithmeticToRegister op a d v).Follows D :=
  (readReg_follows h d).seq fun _ => (alu_follows op _ _).seq fun res => (setFlags_follows res).seq fun _ =>
    (writeReg_follows h d res).seq fun _ => advance_follows

theorem arithmeticRegReg_follows (h : D.FitsReads a) (op : AluOp) : (arithmeticRegReg op a).Follows D :=
  advance_follows.seq fun _ => (registerOperand_follows h).seq fun s => advance_follows.seq fun _ =>
    (registerOperand_follows h).seq fun d => (readReg_follows h s).seq fun v => arithmeticToRegister_follows h op d v

theorem arithmeticImmReg_follows (h : D.FitsReads a) (op : AluOp) : (arithmeticImmReg op a).Follows D :=
  advance_follows.seq fun _ => (operandWord_follows h).seq fun i => advance_follows.seq fun _ =>
    (registerOperand_follows h).seq fun r => arithmeticToRegister_follows h op r i

theorem memorySource_follows (h : D.Fits a) : (memorySource a).Follows D :=
  advance_follows.seq fun _ => (enterMemoryOperand_follows h).seq fun _ => (operandWord_follows h.toFitsReads).seq fun _ =>
    (restore_follows h.toFitsReads).seq fun _ => advance_follows.seq fun _ =>
      (registerOperand_follows h.toFitsReads).seq fun _ =>
      Micro.Follows.ret D _

theorem arithmeticMemReg_follows (h : D.Fits a) (op : AluOp) : (arithmeticMemReg op a).Follows D :=
  (memorySource_follows h).seq fun src => arithmeticToRegister_follows h.toFitsReads op src.2 src.1

theorem registerSourceToMemory_follows (h : D.Fits a) : (registerSourceToMemory a).Follows D :=
  advance_follows.seq fun _ => (registerOperand_follows h.toFitsReads).seq fun r => advance_follows.seq fun _ =>
    (readReg_follows h.toFitsReads r).seq fun u => (enterMemoryOperand_follows h).seq fun _ => Micro.Follows.ret D u

theorem arithmeticRegMem_follows (h : D.Fits a) (op : AluOp) : (arithmeticRegMem op a).Follows D :=
  (registerSourceToMemory_follows h).seq fun u => (operandWord_follows h.toFitsReads).seq fun v =>
    (alu_follows op v u).seq fun res =>
    (setFlags_follows res).seq fun _ => (writeAtPc_follows h res).seq fun _ => (restore_follows h.toFitsReads).seq fun _ =>
      advance_follows

theorem incRegister_follows (h : D.FitsReads a) : (incRegister a).Follows D :=
  advance_follows.seq fun _ => (registerOperand_follows h).seq fun r => (readReg_follows h r).seq fun x =>
    (aluIncrement_follows x).seq fun res => (setFlags_follows res).seq fun _ => (writeReg_follows h r res).seq fun _ =>
      advance_follows

theorem moveRegisterToRegister_follows (h : D.FitsReads a) : (moveRegisterToRegister a).Follows D :=
  advance_follows.seq fun _ => (registerOperand_follows h).seq fun s => advance_follows.seq fun _ =>
    (registerOperand_follows h).seq fun d => (readReg_follows h s).seq fun v => (writeReg_follows h d v).seq fun _ =>
      advance_follows

theorem moveMemoryToRegister_follows (h : D.Fits a) : (moveMemoryToRegister a).Follows D :=
  (memorySource_follows h).seq fun src => (writeReg_follows h.toFitsReads src.2 src.1).seq fun _ => advance_follows

theorem moveRegisterToMemory_follows (h : D.Fits a) : (moveRegisterToMemory a).Follows D :=
  (registerSourceToMemory_follows h).seq fun u => (writeAtPc_follows h u).seq fun _ =>
    (restore_follows h.toFitsReads).seq fun _ =>
    advance_follows

theorem moveImmediateToRegister_follows (h : D.FitsReads a) : (moveImmediateToRegister a).Follows D :=
  advance_follows.seq fun _ => (operandWord_follows h).seq fun i => advance_follows.seq fun _ =>
    (registerOperand_follows h).seq fun r => (writeReg_follows h r i).seq fun _ => advance_follows

theorem jumpAlways_follows (h : D.FitsReads a) : (jumpAlways a).Follows D :=
  advance_follows.seq fun _ => (operandWord_follows h).seq fun t => setPc_follows t

theorem flagJump_follows (h : D.FitsReads a) (taken : p.Word → Bool) : (flagJump taken a).Follows D :=
  advance_follows.seq fun _ => (operandWord_follows h).seq fun t => jumpOnFlags_follows taken t

theorem compareJump_follows (h : D.FitsReads a) (taken : p.Word → Bool) : (compareJump taken a).Follows D :=
  advance_follows.seq fun _ => (registerOperand_follows h).seq fun rA => advance_follows.seq fun _ =>
    (registerOperand_follows h).seq fun rB => advance_follows.seq fun _ => (operandWord_follows h).seq fun t =>
      (readReg_follows h rA).seq fun x => (readReg_follows h rB).seq fun y => (alu_follows .sub x y).seq fun d =>
        (setFlags_follows d).seq fun _ => jumpOnFlags_follows taken t

theorem callSubroutine_follows (h : D.Fits a) : (callSubroutine a).Follows D :=
  advance_follows.seq fun _ => (operandWord_follows h.toFitsReads).seq fun t => (readPort_follows .pc).seq fun here =>
    (aluIncrement_follows here).seq fun ra => (push_follows h ra).seq fun _ => setPc_follows t

theorem returnFromSubroutine_follows (h : D.FitsReads a) : (returnFromSubroutine a).Follows D :=
  advance_follows.seq fun _ => (pop_follows h).seq fun v => setPc_follows v

end Microprograms

/-! ## Instructions -/

/-- The microprogram of each instruction. -/
def microprogram (i : Instr) (p : Params) : p.Word → Micro p Unit :=
  match i with
  | .addRegReg => arithmeticRegReg .add
  | .addMemReg => arithmeticMemReg .add
  | .addRegMem => arithmeticRegMem .add
  | .addImmReg => arithmeticImmReg .add
  | .subRegReg => arithmeticRegReg .sub
  | .subMemReg => arithmeticMemReg .sub
  | .subRegMem => arithmeticRegMem .sub
  | .subImmReg => arithmeticImmReg .sub
  | .moveRegReg => moveRegisterToRegister
  | .moveMemReg => moveMemoryToRegister
  | .moveRegMem => moveRegisterToMemory
  | .moveImmReg => moveImmediateToRegister
  | .inc => incRegister
  | .jmp => jumpAlways
  | .jz => flagJump takenIfZero
  | .jn => flagJump takenIfNegative
  | .jeq => compareJump takenIfZero
  | .jneq => compareJump takenIfNotZero
  | .jgt => compareJump takenIfPositive
  | .jlw => compareJump takenIfNegative
  | .call => callSubroutine
  | .ret => returnFromSubroutine

/-- An instruction is EXECUTE of its microprogram. -/
theorem exec_eq_execute (i : Instr) (s : State) : exec i s = execute (microprogram i) s := by cases i <;> rfl

/-- An instruction whose microprogram returns. -/
theorem exec_of_returns {i : Instr} {s : CoreState p} {x' : RegFile p.wordBits} {M' : Memory} (hs : s.Idle)
    (h : (microprogram i p s.regs.pc).Returns s.regs s.mem () x' M') : exec i ⟨p, s⟩ = .next ⟨p, s.continuesWith x' M'⟩ :=
  (exec_eq_execute i _).trans (execute_of_returns hs h)

/-- An instruction whose microprogram raises. -/
theorem exec_of_raises {i : Instr} {s : CoreState p} {x' : RegFile p.wordBits} {M' : Memory} {r : FaultRecord p.wordBits}
    (hs : s.Idle) (h : (microprogram i p s.regs.pc).Raises s.regs s.mem r x' M') :
    exec i ⟨p, s⟩ = .next ⟨p, ({ s with regs := x', mem := M' } : CoreState p).enterFault r⟩ :=
  (exec_eq_execute i _).trans (execute_of_raises hs h)

/-- The one next state of an instruction whose microprogram returns. -/
theorem exec_next_of_returns {i : Instr} {s t : CoreState p} {x' : RegFile p.wordBits} {M' : Memory}
    (e : exec i ⟨p, s⟩ = .next ⟨p, t⟩) (hs : s.Idle) (h : (microprogram i p s.regs.pc).Returns s.regs s.mem () x' M') :
    t = s.continuesWith x' M' :=
  (next_inj ((exec_of_returns hs h).symm.trans e)).symm

/-- The one next state of an instruction whose microprogram raises. -/
theorem exec_next_of_raises {i : Instr} {s t : CoreState p} {x' : RegFile p.wordBits} {M' : Memory}
    {r : FaultRecord p.wordBits} (e : exec i ⟨p, s⟩ = .next ⟨p, t⟩) (hs : s.Idle)
    (h : (microprogram i p s.regs.pc).Raises s.regs s.mem r x' M') : t.ctrl = .fault r ∧ t.regs = x' ∧ t.mem = M' := by
  have := next_inj ((exec_of_raises hs h).symm.trans e)
  subst this
  exact ⟨rfl, rfl, rfl⟩

/-- Every microprogram follows every discipline that fits its address. -/
theorem microprogram_follows (i : Instr) {D : Discipline p} {a : p.Word} (h : D.Fits a) :
    (microprogram i p a).Follows D := by
  cases i
  case addRegReg => exact arithmeticRegReg_follows h.toFitsReads .add
  case addMemReg => exact arithmeticMemReg_follows h .add
  case addRegMem => exact arithmeticRegMem_follows h .add
  case addImmReg => exact arithmeticImmReg_follows h.toFitsReads .add
  case subRegReg => exact arithmeticRegReg_follows h.toFitsReads .sub
  case subMemReg => exact arithmeticMemReg_follows h .sub
  case subRegMem => exact arithmeticRegMem_follows h .sub
  case subImmReg => exact arithmeticImmReg_follows h.toFitsReads .sub
  case moveRegReg => exact moveRegisterToRegister_follows h.toFitsReads
  case moveMemReg => exact moveMemoryToRegister_follows h
  case moveRegMem => exact moveRegisterToMemory_follows h
  case moveImmReg => exact moveImmediateToRegister_follows h.toFitsReads
  case inc => exact incRegister_follows h.toFitsReads
  case jmp => exact jumpAlways_follows h.toFitsReads
  case jz => exact flagJump_follows h.toFitsReads takenIfZero
  case jn => exact flagJump_follows h.toFitsReads takenIfNegative
  case jeq => exact compareJump_follows h.toFitsReads takenIfZero
  case jneq => exact compareJump_follows h.toFitsReads takenIfNotZero
  case jgt => exact compareJump_follows h.toFitsReads takenIfPositive
  case jlw => exact compareJump_follows h.toFitsReads takenIfNegative
  case call => exact callSubroutine_follows h
  case ret => exact returnFromSubroutine_follows h.toFitsReads

/-- The microprogram of an instruction that stores nothing follows every discipline that fits its reads. -/
theorem microprogram_follows_reads {i : Instr} (hi : storesNothing i = true) {D : Discipline p} {a : p.Word}
    (h : D.FitsReads a) : (microprogram i p a).Follows D := by
  cases i
  case addRegReg => exact arithmeticRegReg_follows h .add
  case addImmReg => exact arithmeticImmReg_follows h .add
  case subRegReg => exact arithmeticRegReg_follows h .sub
  case subImmReg => exact arithmeticImmReg_follows h .sub
  case moveRegReg => exact moveRegisterToRegister_follows h
  case moveImmReg => exact moveImmediateToRegister_follows h
  case inc => exact incRegister_follows h
  case jmp => exact jumpAlways_follows h
  case jz => exact flagJump_follows h takenIfZero
  case jn => exact flagJump_follows h takenIfNegative
  case jeq => exact compareJump_follows h takenIfZero
  case jneq => exact compareJump_follows h takenIfNotZero
  case jgt => exact compareJump_follows h takenIfPositive
  case jlw => exact compareJump_follows h takenIfNegative
  case ret => exact returnFromSubroutine_follows h
  all_goals exact absurd hi (by decide)

/-- The discipline that asks nothing: it says only that the datapath plays no part. -/
def Discipline.none (p : Params) : Discipline p := { keeps := fun _ => True, reports := fun _ _ => True }

theorem Discipline.none_fits (a : p.Word) : (Discipline.none p).Fits a :=
  ⟨⟨fun _ _ => trivial, fun _ _ => trivial, fun _ => trivial, fun _ => trivial⟩, fun _ _ _ => trivial⟩

/-- The discipline of the instruction at `a`: canonical memory, and a record that names `a` and is sound. -/
def Discipline.sound (a : p.Word) : Discipline p :=
  { keeps := fun M => M.wf p = true, reports := fun r x => r.addr = a ∧ r.sound x = true }

theorem Discipline.sound_fits {a : p.Word} (ha : inMemory a = true) : (Discipline.sound a).Fits a where
  write v hM h := Memory.write_wf hM h v
  outOfBounds h _ := ⟨rfl, by simp [FaultRecord.sound, h, ha]⟩
  badIndex h _ := ⟨rfl, by simp [FaultRecord.sound, h, ha]⟩
  overflow h := ⟨rfl, by simp [FaultRecord.sound, h, ha]⟩
  underflow h := ⟨rfl, by simp [FaultRecord.sound, h, ha]⟩

end Sys2Proof.Machine
end

