-- ==== Sys2Proof/Laws/Microprograms.lean ====
section
/-! SUPPORT. What each shared microprogram can do, said once: when it returns and what it leaves, and, where it raises, what
it has stored by then. -/

namespace Sys2Proof.Machine

variable {p : Params} {x : RegFile p.wordBits} {M : Memory}

@[simp] theorem RegFile.set_pc_get_pc (x : RegFile p.wordBits) (v : p.Word) : (x.set .pc v).get .pc = v := rfl

/-- Two advances in a row. -/
theorem RegFile.advance_twice (x : RegFile p.wordBits) (v : p.Word) :
    (x.set .pc v).set .pc ((x.set .pc v).pc + 1) = x.set .pc (v + 1) := rfl

/-- One more word on. -/
theorem word_add_ofNat_one (v : p.Word) (n : Nat) :
    v + BitVec.ofNat p.wordBits n + 1 = v + BitVec.ofNat p.wordBits (n + 1) := by
  rw [add_assoc, BitVec.ofNat_add]; rfl

theorem word_add_one_one (v : p.Word) : v + 1 + 1 = v + 2 := word_add_ofNat_one v 1

theorem word_add_two_one (v : p.Word) : v + 2 + 1 = v + 3 := word_add_ofNat_one v 2

theorem word_add_three_one (v : p.Word) : v + 3 + 1 = v + 4 := word_add_ofNat_one v 3

/-- The second advance of a microprogram. -/
theorem advance_returns_two (x : RegFile p.wordBits) (M : Memory) :
    advance.Returns (x.set .pc (x.pc + 1)) M () (x.set .pc (x.pc + 2)) M := by
  have h := advance_returns (x.set .pc (x.pc + 1)) M
  rwa [RegFile.set_pc_pc, RegFile.set_set_same, word_add_one_one] at h

/-- The third advance of a microprogram. -/
theorem advance_returns_three (x : RegFile p.wordBits) (M : Memory) :
    advance.Returns (x.set .pc (x.pc + 2)) M () (x.set .pc (x.pc + 3)) M := by
  have h := advance_returns (x.set .pc (x.pc + 2)) M
  rwa [RegFile.set_pc_pc, RegFile.set_set_same, word_add_two_one] at h

/-- What an R operand can do: it returns the index of a register where pc points at one in memory, and else it raises,
storing nothing. -/
theorem registerOperand_cases (a : p.Word) (x : RegFile p.wordBits) (M : Memory) :
    (∃ r : RegName, inMemory x.pc = true ∧ M.read x.pc = r.index ∧ (registerOperand a).Returns x M r.index x M) ∨
    (∀ r : RegName, inMemory x.pc = true → M.read x.pc ≠ r.index) ∧ ∃ e, (registerOperand a).Raises x M e x M := by
  by_cases h : inMemory x.pc = true
  · cases hr : RegName.ofIndex (M.read x.pc) with
    | none =>
      exact .inr ⟨fun r _ e => by simp [RegName.ofIndex_eq_some.2 e] at hr, _, registerOperand_raises_index a h hr⟩
    | some r =>
      rw [RegName.ofIndex_eq_some] at hr
      exact .inl ⟨r, h, hr, registerOperand_returns a h hr⟩
  · rw [Bool.not_eq_true] at h
    exact .inr ⟨fun r h' => by simp [h] at h', _, registerOperand_raises_oob a h M⟩

/-- What an operand read can do. -/
theorem operandWord_cases (a : p.Word) (x : RegFile p.wordBits) (M : Memory) :
    (inMemory x.pc = true ∧ (operandWord a).Returns x M (M.read x.pc) x M) ∨
    ∃ e, (operandWord a).Raises x M e x M := by
  by_cases h : inMemory x.pc = true
  · exact .inl ⟨h, operandWord_returns a h M⟩
  · rw [Bool.not_eq_true] at h
    exact .inr ⟨_, operandWord_raises a h M⟩

/-- The registers that an arithmetic instruction leaves, from those it read its destination in. -/
def RegFile.writeBack (x : RegFile p.wordBits) (d : RegName) (res : p.Word) : RegFile p.wordBits :=
  let y := (x.setFlags res).set d res
  y.set .pc (y.pc + 1)

/-- The registers that a move leaves. -/
def RegFile.moveBack (x : RegFile p.wordBits) (d : RegName) (v : p.Word) : RegFile p.wordBits :=
  let y := x.set d v
  y.set .pc (y.pc + 1)

theorem arithmeticToRegister_returns (op : AluOp) (a : p.Word) (d : RegName) (v : p.Word) (x : RegFile p.wordBits)
    (M : Memory) :
    (arithmeticToRegister op a d.index v).Returns x M () (x.writeBack d (op.apply (x.get d) v)) M :=
  (readReg_returns a d x M).seq ((alu_returns op _ _ x M).seq ((setFlags_returns _ x M).seq
    ((writeReg_returns a d _ _ M).seq (advance_returns _ M))))

theorem arithmeticRegReg_returns (op : AluOp) (a : p.Word) {s d : RegName} (h₁ : inMemory (x.pc + 1) = true)
    (hs : M.read (x.pc + 1) = s.index) (h₂ : inMemory (x.pc + 2) = true) (hd : M.read (x.pc + 2) = d.index) :
    (arithmeticRegReg op a).Returns x M ()
      ((x.set .pc (x.pc + 2)).writeBack d
        (op.apply ((x.set .pc (x.pc + 2)).get d) ((x.set .pc (x.pc + 2)).get s))) M :=
  (advance_returns x M).seq
    ((registerOperand_returns a (x := x.set .pc (x.pc + 1)) h₁ hs).seq ((advance_returns_two x M).seq
    ((registerOperand_returns a (x := x.set .pc (x.pc + 2)) h₂ hd).seq
      ((readReg_returns a s _ M).seq (arithmeticToRegister_returns op a d _ _ M)))))

theorem arithmeticImmReg_returns (op : AluOp) (a : p.Word) {d : RegName} (h₁ : inMemory (x.pc + 1) = true)
    (h₂ : inMemory (x.pc + 2) = true) (hd : M.read (x.pc + 2) = d.index) :
    (arithmeticImmReg op a).Returns x M ()
      ((x.set .pc (x.pc + 2)).writeBack d
        (op.apply ((x.set .pc (x.pc + 2)).get d) (M.read (x.pc + 1)))) M :=
  (advance_returns x M).seq ((operandWord_returns a (x := x.set .pc (x.pc + 1)) h₁ M).seq ((advance_returns_two x M).seq
    ((registerOperand_returns a (x := x.set .pc (x.pc + 2)) h₂ hd).seq (arithmeticToRegister_returns op a d _ _ M))))

/-- The memory source of a `*MemReg` instruction: what it returns when every access is inside memory. -/
theorem memorySource_returns (a : p.Word) {d : RegName} (hM : M.wf p = true) (hS : inMemory x.stackTop = true)
    (h₁ : inMemory (x.pc + 1) = true)
    (hm : inMemory ((M.write x.stackTop (x.pc + 1)).read (x.pc + 1)) = true)
    (h₂ : inMemory (x.pc + 2) = true)
    (hd : (M.write x.stackTop (x.pc + 1)).read (x.pc + 2) = d.index) :
    (memorySource a).Returns x M
      ((M.write x.stackTop (x.pc + 1)).read ((M.write x.stackTop (x.pc + 1)).read (x.pc + 1)), d.index)
      (x.set .pc (x.pc + 2)) (M.write x.stackTop (x.pc + 1)) := by
  have hr := restore_returns a (x := x.set .pc ((M.write x.stackTop (x.pc + 1)).read (x.pc + 1))) hS
    (M.write x.stackTop (x.pc + 1))
  rw [RegFile.set_pc_stackTop, RegFile.set_set_same, Memory.read_write_same (Memory.rising_of_wf hM)] at hr
  exact (advance_returns x M).seq ((enterMemoryOperand_returns a (x := x.set .pc (x.pc + 1)) hS h₁ M).seq
    ((operandWord_returns a (x := x.set .pc _) hm _).seq (hr.seq ((advance_returns_two x _).seq
      ((registerOperand_returns a (x := x.set .pc (x.pc + 2)) h₂ hd).seq (Micro.Returns.ret _ _ _))))))

/-- What the memory source can do: the case above, or a raise, by when pc has moved and the scratch cell is stored where
it is in memory. -/
theorem memorySource_cases (a : p.Word) (hM : M.wf p = true) (x : RegFile p.wordBits) :
    (∃ d : RegName, inMemory x.stackTop = true ∧ inMemory (x.pc + 1) = true ∧
      inMemory ((M.write x.stackTop (x.pc + 1)).read (x.pc + 1)) = true ∧ inMemory (x.pc + 2) = true ∧
      (M.write x.stackTop (x.pc + 1)).read (x.pc + 2) = d.index ∧
      (memorySource a).Returns x M
        ((M.write x.stackTop (x.pc + 1)).read ((M.write x.stackTop (x.pc + 1)).read (x.pc + 1)), d.index)
        (x.set .pc (x.pc + 2)) (M.write x.stackTop (x.pc + 1))) ∨
    ∃ e u M', (memorySource a).Raises x M e (x.set .pc u) M' ∧
      (inMemory x.stackTop = false ∧ M' = M ∨ M' = M.write x.stackTop (x.pc + 1)) := by
  by_cases hS : inMemory x.stackTop = true
  swap
  · rw [Bool.not_eq_true] at hS
    exact .inr ⟨_, _, _, Micro.Raises.right (advance_returns x M)
      (Micro.Raises.left (Micro.Raises.left (save_raises a (x := x.set .pc (x.pc + 1)) hS M))), .inl ⟨hS, rfl⟩⟩
  have hsave := save_returns a (x := x.set .pc (x.pc + 1)) hS M
  by_cases h₁ : inMemory (x.pc + 1) = true
  swap
  · rw [Bool.not_eq_true] at h₁
    exact .inr ⟨_, _, _, Micro.Raises.right (advance_returns x M) (Micro.Raises.left
      (Micro.Raises.right hsave (Micro.Raises.left (operandWord_raises a (x := x.set .pc (x.pc + 1)) h₁ _)))),
      .inr rfl⟩
  have henter := enterMemoryOperand_returns a (x := x.set .pc (x.pc + 1)) hS h₁ M
  by_cases hm : inMemory ((M.write x.stackTop (x.pc + 1)).read (x.pc + 1)) = true
  swap
  · rw [Bool.not_eq_true] at hm
    exact .inr ⟨_, _, _, Micro.Raises.right (advance_returns x M) (Micro.Raises.right henter
      (Micro.Raises.left (operandWord_raises a (x := x.set .pc _) hm _))), .inr rfl⟩
  have hread := operandWord_returns a (x := x.set .pc ((M.write x.stackTop (x.pc + 1)).read (x.pc + 1))) hm
    (M.write x.stackTop (x.pc + 1))
  have hr := restore_returns a (x := x.set .pc ((M.write x.stackTop (x.pc + 1)).read (x.pc + 1))) hS
    (M.write x.stackTop (x.pc + 1))
  rw [RegFile.set_pc_stackTop, RegFile.set_set_same, Memory.read_write_same (Memory.rising_of_wf hM)] at hr
  rcases registerOperand_cases a (x.set .pc (x.pc + 2)) (M.write x.stackTop (x.pc + 1)) with
    ⟨d, h₂, hd, -⟩ | ⟨-, e, he⟩
  · exact .inl ⟨d, hS, h₁, hm, h₂, hd, memorySource_returns a hM hS h₁ hm h₂ hd⟩
  · exact .inr ⟨_, _, _, Micro.Raises.right (advance_returns x M) (Micro.Raises.right henter
      (Micro.Raises.right hread (Micro.Raises.right hr (Micro.Raises.right (advance_returns_two x _)
        (Micro.Raises.left he))))), .inr rfl⟩

theorem arithmeticMemReg_returns (op : AluOp) (a : p.Word) {d : RegName} {v : p.Word} {M' : Memory}
    (h : (memorySource a).Returns x M (v, d.index) (x.set .pc (x.pc + 2)) M') :
    (arithmeticMemReg op a).Returns x M ()
      ((x.set .pc (x.pc + 2)).writeBack d (op.apply ((x.set .pc (x.pc + 2)).get d) v)) M' :=
  h.seq (arithmeticToRegister_returns op a d v _ M')

/-- The register source of a `*RegMem` instruction, with pc then at the destination's address. -/
theorem registerSourceToMemory_returns (a : p.Word) {r : RegName} (h₁ : inMemory (x.pc + 1) = true)
    (hr : M.read (x.pc + 1) = r.index) (hS : inMemory x.stackTop = true) (h₂ : inMemory (x.pc + 2) = true) :
    (registerSourceToMemory a).Returns x M ((x.set .pc (x.pc + 2)).get r)
      (x.set .pc ((M.write x.stackTop (x.pc + 2)).read (x.pc + 2))) (M.write x.stackTop (x.pc + 2)) :=
  (advance_returns x M).seq
    ((registerOperand_returns a (x := x.set .pc (x.pc + 1)) h₁ hr).seq ((advance_returns_two x M).seq
    ((readReg_returns a r _ M).seq ((enterMemoryOperand_returns a (x := x.set .pc (x.pc + 2)) hS h₂ M).seq
      (Micro.Returns.ret _ _ _)))))

/-- What the register source can do: the case above, or a raise, by when pc has moved and the scratch cell is stored where
it is in memory and the register operand is good. -/
theorem registerSourceToMemory_cases (a : p.Word) (x : RegFile p.wordBits) (M : Memory) :
    (∃ r : RegName, inMemory (x.pc + 1) = true ∧ M.read (x.pc + 1) = r.index ∧ inMemory x.stackTop = true ∧
      inMemory (x.pc + 2) = true ∧
      (registerSourceToMemory a).Returns x M ((x.set .pc (x.pc + 2)).get r)
        (x.set .pc ((M.write x.stackTop (x.pc + 2)).read (x.pc + 2))) (M.write x.stackTop (x.pc + 2))) ∨
    ∃ e u M', (registerSourceToMemory a).Raises x M e (x.set .pc u) M' ∧
      ((inMemory x.stackTop = false ∨ ∀ r : RegName, inMemory (x.pc + 1) = true → M.read (x.pc + 1) ≠ r.index) ∧ M' = M ∨
        M' = M.write x.stackTop (x.pc + 2)) := by
  rcases registerOperand_cases a (x.set .pc (x.pc + 1)) M with ⟨r, h₁, hr, hop⟩ | ⟨hbad, e, he⟩
  swap
  · exact .inr ⟨_, _, _, Micro.Raises.right (advance_returns x M) (Micro.Raises.left he), .inl ⟨.inr hbad, rfl⟩⟩
  have hreg := readReg_returns a r (x.set .pc (x.pc + 2)) M
  by_cases hS : inMemory x.stackTop = true
  swap
  · rw [Bool.not_eq_true] at hS
    exact .inr ⟨_, _, _, Micro.Raises.right (advance_returns x M) (Micro.Raises.right hop
      (Micro.Raises.right (advance_returns_two x M) (Micro.Raises.right hreg
        (Micro.Raises.left (Micro.Raises.left (save_raises a (x := x.set .pc (x.pc + 2)) hS M)))))), .inl ⟨.inl hS, rfl⟩⟩
  have hsave := save_returns a (x := x.set .pc (x.pc + 2)) hS M
  by_cases h₂ : inMemory (x.pc + 2) = true
  swap
  · rw [Bool.not_eq_true] at h₂
    exact .inr ⟨_, _, _, Micro.Raises.right (advance_returns x M) (Micro.Raises.right hop
      (Micro.Raises.right (advance_returns_two x M) (Micro.Raises.right hreg
        (Micro.Raises.left (Micro.Raises.right hsave (Micro.Raises.left
          (operandWord_raises a (x := x.set .pc (x.pc + 2)) h₂ _))))))), .inr rfl⟩
  exact .inl ⟨r, h₁, hr, hS, h₂, registerSourceToMemory_returns a h₁ hr hS h₂⟩

/-- The end of a `*RegMem` instruction: the restore and the exit advance. -/
theorem restoreAndAdvance_returns (a : p.Word) (hS : inMemory x.stackTop = true) (M : Memory) (v : p.Word) :
    Micro.Returns (do restore a; advance) (x.set .pc v) M () (x.set .pc (M.read x.stackTop + 1)) M := by
  have hr := restore_returns a (x := x.set .pc v) hS M
  rw [RegFile.set_pc_stackTop, RegFile.set_set_same] at hr
  have h := advance_returns (x.set .pc (M.read x.stackTop)) M
  rw [RegFile.set_pc_pc, RegFile.set_set_same] at h
  exact hr.seq h

theorem arithmeticRegMem_returns (op : AluOp) (a : p.Word) {u m : p.Word} {M₁ : Memory}
    (h : (registerSourceToMemory a).Returns x M u (x.set .pc m) M₁) (hS : inMemory x.stackTop = true)
    (hm : inMemory m = true) :
    (arithmeticRegMem op a).Returns x M ()
      ((x.setFlags (op.apply (M₁.read m) u)).set .pc
        ((M₁.write m (op.apply (M₁.read m) u)).read x.stackTop + 1))
      (M₁.write m (op.apply (M₁.read m) u)) :=
  h.seq ((operandWord_returns a (x := x.set .pc m) hm M₁).seq ((alu_returns op _ _ _ M₁).seq
    ((setFlags_returns _ _ M₁).seq ((writeAtPc_returns a _ (x := (x.set .pc m).setFlags _) hm M₁).seq
      (restoreAndAdvance_returns a (x := x.setFlags _) hS _ m)))))

theorem moveRegisterToMemory_returns (a : p.Word) {u m : p.Word} {M₁ : Memory}
    (h : (registerSourceToMemory a).Returns x M u (x.set .pc m) M₁) (hS : inMemory x.stackTop = true)
    (hm : inMemory m = true) :
    (moveRegisterToMemory a).Returns x M () (x.set .pc ((M₁.write m u).read x.stackTop + 1)) (M₁.write m u) :=
  h.seq ((writeAtPc_returns a u (x := x.set .pc m) hm M₁).seq (restoreAndAdvance_returns a hS _ m))

theorem incRegister_returns (a : p.Word) {r : RegName} (h : inMemory (x.pc + 1) = true)
    (hr : M.read (x.pc + 1) = r.index) :
    (incRegister a).Returns x M ()
      ((x.set .pc (x.pc + 1)).writeBack r ((x.set .pc (x.pc + 1)).get r + 1)) M :=
  (advance_returns x M).seq ((registerOperand_returns a (x := x.set .pc (x.pc + 1)) h hr).seq ((readReg_returns a r _ M).seq
    ((aluIncrement_returns _ _ M).seq ((setFlags_returns _ _ M).seq ((writeReg_returns a r _ _ M).seq
      (advance_returns _ M))))))

theorem moveRegisterToRegister_returns (a : p.Word) {s d : RegName} (h₁ : inMemory (x.pc + 1) = true)
    (hs : M.read (x.pc + 1) = s.index) (h₂ : inMemory (x.pc + 2) = true) (hd : M.read (x.pc + 2) = d.index) :
    (moveRegisterToRegister a).Returns x M ()
      ((x.set .pc (x.pc + 2)).moveBack d ((x.set .pc (x.pc + 2)).get s)) M :=
  (advance_returns x M).seq
    ((registerOperand_returns a (x := x.set .pc (x.pc + 1)) h₁ hs).seq ((advance_returns_two x M).seq
    ((registerOperand_returns a (x := x.set .pc (x.pc + 2)) h₂ hd).seq
      ((readReg_returns a s _ M).seq ((writeReg_returns a d _ _ M).seq
      (advance_returns _ M))))))

theorem moveImmediateToRegister_returns (a : p.Word) {d : RegName} (h₁ : inMemory (x.pc + 1) = true)
    (h₂ : inMemory (x.pc + 2) = true) (hd : M.read (x.pc + 2) = d.index) :
    (moveImmediateToRegister a).Returns x M ()
      ((x.set .pc (x.pc + 2)).moveBack d (M.read (x.pc + 1))) M :=
  (advance_returns x M).seq ((operandWord_returns a (x := x.set .pc (x.pc + 1)) h₁ M).seq ((advance_returns_two x M).seq
    ((registerOperand_returns a (x := x.set .pc (x.pc + 2)) h₂ hd).seq
      ((writeReg_returns a d _ _ M).seq (advance_returns _ M)))))

theorem moveMemoryToRegister_returns (a : p.Word) {d : RegName} {v : p.Word} {M' : Memory}
    (h : (memorySource a).Returns x M (v, d.index) (x.set .pc (x.pc + 2)) M') :
    (moveMemoryToRegister a).Returns x M () ((x.set .pc (x.pc + 2)).moveBack d v) M' :=
  h.seq ((writeReg_returns a d v _ M').seq (advance_returns _ M'))

theorem jumpAlways_returns (a : p.Word) (h : inMemory (x.pc + 1) = true) (M : Memory) :
    (jumpAlways a).Returns x M () (x.set .pc (M.read (x.pc + 1))) M := by
  have hp := setPc_returns (M.read (x.pc + 1)) (x.set .pc (x.pc + 1)) M
  rw [RegFile.set_set_same] at hp
  exact (advance_returns x M).seq ((operandWord_returns a (x := x.set .pc (x.pc + 1)) h M).seq hp)

theorem flagJump_returns (taken : p.Word → Bool) (a : p.Word) (h : inMemory (x.pc + 1) = true) (M : Memory) :
    (flagJump taken a).Returns x M ()
      (x.set .pc (if taken x.flags then M.read (x.pc + 1) else x.pc + 2)) M := by
  have hj := jumpIf_returns (taken x.flags) (M.read (x.pc + 1)) (x.set .pc (x.pc + 1)) M
  rw [RegFile.set_set_same, RegFile.set_pc_pc, word_add_one_one] at hj
  exact (advance_returns x M).seq ((operandWord_returns a (x := x.set .pc (x.pc + 1)) h M).seq
    (getState_flags_returns (f := fun f => jumpIf (taken f) _) hj))

theorem compareJump_returns (taken : p.Word → Bool) (a : p.Word) {rA rB : RegName} (h₁ : inMemory (x.pc + 1) = true)
    (hA : M.read (x.pc + 1) = rA.index) (h₂ : inMemory (x.pc + 2) = true) (hB : M.read (x.pc + 2) = rB.index)
    (h₃ : inMemory (x.pc + 3) = true) :
    let y := x.set .pc (x.pc + 3)
    let d := y.get rA - y.get rB
    (compareJump taken a).Returns x M ()
      ((y.setFlags d).set .pc (if taken (flagsAfter x.flags d) then M.read (x.pc + 3) else x.pc + 4)) M := by
  intro y d
  have hj := jumpIf_returns (taken (flagsAfter x.flags d)) (M.read (x.pc + 3)) (y.setFlags d) M
  rw [RegFile.setFlags_pc, RegFile.set_pc_pc, word_add_three_one] at hj
  exact (advance_returns x M).seq
    ((registerOperand_returns a (x := x.set .pc (x.pc + 1)) h₁ hA).seq ((advance_returns_two x M).seq
    ((registerOperand_returns a (x := x.set .pc (x.pc + 2)) h₂ hB).seq ((advance_returns_three x M).seq
      ((operandWord_returns a (x := y) h₃ M).seq ((readReg_returns a rA y M).seq ((readReg_returns a rB y M).seq
        ((alu_returns .sub _ _ y M).seq ((setFlags_returns d y M).seq
          (getState_flags_returns (f := fun f => jumpIf (taken f) _) hj))))))))))

theorem callSubroutine_returns (a : p.Word) (h : inMemory (x.pc + 1) = true)
    (hlow : x.stackTop.slt p.stackLow = false) (hS : inMemory x.stackTop = true) (M : Memory) :
    (callSubroutine a).Returns x M ()
      ((x.set .stackTop (x.stackTop - 1)).set .pc (M.read (x.pc + 1))) (M.write x.stackTop (x.pc + 2)) := by
  have hinc := aluIncrement_returns (x.pc + 1) (x.set .pc (x.pc + 1)) M
  rw [word_add_one_one] at hinc
  have hp := push_returns a (x.pc + 2) (x := x.set .pc (x.pc + 1)) hlow hS M
  exact (advance_returns x M).seq ((operandWord_returns a (x := x.set .pc (x.pc + 1)) h M).seq
    ((readPort_returns .pc _ M).seq (hinc.seq (hp.seq (setPc_returns _ _ _)))))

theorem returnFromSubroutine_returns (a : p.Word) (hne : x.stackTop.slt x.stackBottom = true)
    (h : inMemory (x.stackTop + 1) = true) (M : Memory) :
    (returnFromSubroutine a).Returns x M ()
      ((x.set .stackTop (x.stackTop + 1)).set .pc (M.read (x.stackTop + 1))) M :=
  (advance_returns x M).seq ((pop_returns a (x := x.set .pc (x.pc + 1)) hne h M).seq (setPc_returns _ _ M))

/-! ## Everything a microprogram can do -/

/-- The start of the register forms: both indices are read, or it raises and stores nothing, whatever follows. -/
theorem twoRegisters_cases (a : p.Word) (x : RegFile p.wordBits) (M : Memory) :
    (∃ s d : RegName, inMemory (x.pc + 1) = true ∧ M.read (x.pc + 1) = s.index ∧ inMemory (x.pc + 2) = true ∧
      M.read (x.pc + 2) = d.index) ∨
    ∃ e u, ∀ f : p.Word → p.Word → Micro p Unit, Micro.Raises (do
      advance
      let s ← registerOperand a
      advance
      let d ← registerOperand a
      f s d) x M e (x.set .pc u) M := by
  rcases registerOperand_cases a (x.set .pc (x.pc + 1)) M with ⟨s, h₁, hs, hop⟩ | ⟨-, e, he⟩
  · rcases registerOperand_cases a (x.set .pc (x.pc + 2)) M with ⟨d, h₂, hd, -⟩ | ⟨-, e, he⟩
    · exact .inl ⟨s, d, h₁, hs, h₂, hd⟩
    · exact .inr ⟨e, _, fun _ => Micro.Raises.right (advance_returns x M) (Micro.Raises.right hop
        (Micro.Raises.right (advance_returns_two x M) (Micro.Raises.left he)))⟩
  · exact .inr ⟨e, _, fun _ => Micro.Raises.right (advance_returns x M) (Micro.Raises.left he)⟩

/-- The start of the immediate forms: both words are read, or it raises and stores nothing, whatever follows. -/
theorem plainAndRegister_cases (a : p.Word) (x : RegFile p.wordBits) (M : Memory) :
    (∃ d : RegName, inMemory (x.pc + 1) = true ∧ inMemory (x.pc + 2) = true ∧ M.read (x.pc + 2) = d.index) ∨
    ∃ e u, ∀ f : p.Word → p.Word → Micro p Unit, Micro.Raises (do
      advance
      let i ← plainOperand a
      advance
      let d ← registerOperand a
      f i d) x M e (x.set .pc u) M := by
  rcases operandWord_cases a (x.set .pc (x.pc + 1)) M with ⟨h₁, hop⟩ | ⟨e, he⟩
  · rcases registerOperand_cases a (x.set .pc (x.pc + 2)) M with ⟨d, h₂, hd, -⟩ | ⟨-, e, he⟩
    · exact .inl ⟨d, h₁, h₂, hd⟩
    · exact .inr ⟨e, _, fun _ => Micro.Raises.right (advance_returns x M) (Micro.Raises.right hop
        (Micro.Raises.right (advance_returns_two x M) (Micro.Raises.left he)))⟩
  · exact .inr ⟨e, _, fun _ => Micro.Raises.right (advance_returns x M) (Micro.Raises.left he)⟩

/-- The start of a one-operand instruction whose operand is a register. -/
theorem oneRegister_cases (a : p.Word) (x : RegFile p.wordBits) (M : Memory) :
    (∃ r : RegName, inMemory (x.pc + 1) = true ∧ M.read (x.pc + 1) = r.index) ∨
    ∃ e u, ∀ f : p.Word → Micro p Unit, Micro.Raises (do
      advance
      let r ← registerOperand a
      f r) x M e (x.set .pc u) M := by
  rcases registerOperand_cases a (x.set .pc (x.pc + 1)) M with ⟨s, h₁, hs, -⟩ | ⟨-, e, he⟩
  · exact .inl ⟨s, h₁, hs⟩
  · exact .inr ⟨e, _, fun _ => Micro.Raises.right (advance_returns x M) (Micro.Raises.left he)⟩

/-- The start of a one-operand instruction whose operand is taken as it is. -/
theorem onePlain_cases (a : p.Word) (x : RegFile p.wordBits) (M : Memory) :
    inMemory (x.pc + 1) = true ∨
    ∃ e u, ∀ f : p.Word → Micro p Unit, Micro.Raises (do
      advance
      let t ← plainOperand a
      f t) x M e (x.set .pc u) M := by
  rcases operandWord_cases a (x.set .pc (x.pc + 1)) M with ⟨h₁, -⟩ | ⟨e, he⟩
  · exact .inl h₁
  · exact .inr ⟨e, _, fun _ => Micro.Raises.right (advance_returns x M) (Micro.Raises.left he)⟩

/-- The start of a compare jump: both indices and the target are read, or it raises and stores nothing, whatever follows. -/
theorem compareOperands_cases (a : p.Word) (x : RegFile p.wordBits) (M : Memory) :
    (∃ rA rB : RegName, inMemory (x.pc + 1) = true ∧ M.read (x.pc + 1) = rA.index ∧ inMemory (x.pc + 2) = true ∧
      M.read (x.pc + 2) = rB.index ∧ inMemory (x.pc + 3) = true) ∨
    ∃ e u, ∀ f : p.Word → p.Word → p.Word → Micro p Unit, Micro.Raises (do
      advance
      let rA ← registerOperand a
      advance
      let rB ← registerOperand a
      advance
      let t ← plainOperand a
      f rA rB t) x M e (x.set .pc u) M := by
  rcases registerOperand_cases a (x.set .pc (x.pc + 1)) M with ⟨rA, h₁, hA, hop⟩ | ⟨-, e, he⟩
  · rcases registerOperand_cases a (x.set .pc (x.pc + 2)) M with ⟨rB, h₂, hB, hop'⟩ | ⟨-, e, he⟩
    · rcases operandWord_cases a (x.set .pc (x.pc + 3)) M with ⟨h₃, -⟩ | ⟨e, he⟩
      · exact .inl ⟨rA, rB, h₁, hA, h₂, hB, h₃⟩
      · exact .inr ⟨e, _, fun _ => Micro.Raises.right (advance_returns x M) (Micro.Raises.right hop
          (Micro.Raises.right (advance_returns_two x M) (Micro.Raises.right hop'
            (Micro.Raises.right (advance_returns_three x M) (Micro.Raises.left he)))))⟩
    · exact .inr ⟨e, _, fun _ => Micro.Raises.right (advance_returns x M) (Micro.Raises.right hop
        (Micro.Raises.right (advance_returns_two x M) (Micro.Raises.left he)))⟩
  · exact .inr ⟨e, _, fun _ => Micro.Raises.right (advance_returns x M) (Micro.Raises.left he)⟩

/-- Everything call can do: it completes, or it raises and stores nothing. -/
theorem callSubroutine_cases (a : p.Word) (x : RegFile p.wordBits) (M : Memory) :
    (inMemory (x.pc + 1) = true ∧ x.stackTop.slt p.stackLow = false ∧ inMemory x.stackTop = true) ∨
    ∃ e u, (callSubroutine a).Raises x M e (x.set .pc u) M := by
  rcases operandWord_cases a (x.set .pc (x.pc + 1)) M with ⟨h₁, hop⟩ | ⟨e, he⟩
  · have hinc := aluIncrement_returns (x.pc + 1) (x.set .pc (x.pc + 1)) M
    have stop : ∀ {e}, (push a (x.pc + 1 + 1)).Raises (x.set .pc (x.pc + 1)) M e (x.set .pc (x.pc + 1)) M →
        (callSubroutine a).Raises x M e (x.set .pc (x.pc + 1)) M := fun hp =>
      Micro.Raises.right (advance_returns x M) (Micro.Raises.right hop (Micro.Raises.right (readPort_returns .pc _ M)
        (Micro.Raises.right hinc (Micro.Raises.left hp))))
    by_cases hlow : x.stackTop.slt p.stackLow = true
    · exact .inr ⟨_, _, stop (push_raises_overflow a _ (x := x.set .pc (x.pc + 1)) hlow M)⟩
    · rw [Bool.not_eq_true] at hlow
      by_cases hS : inMemory x.stackTop = true
      · exact .inl ⟨h₁, hlow, hS⟩
      · rw [Bool.not_eq_true] at hS
        exact .inr ⟨_, _, stop (push_raises_oob a _ (x := x.set .pc (x.pc + 1)) hlow hS M)⟩
  · exact .inr ⟨e, _, Micro.Raises.right (advance_returns x M) (Micro.Raises.left he)⟩

/-- Everything ret can do: it completes, or it raises and stores nothing. -/
theorem returnFromSubroutine_cases (a : p.Word) (x : RegFile p.wordBits) (M : Memory) :
    (x.stackTop.slt x.stackBottom = true ∧ inMemory (x.stackTop + 1) = true) ∨
    ∃ e u, (returnFromSubroutine a).Raises x M e (x.set .pc u) M := by
  by_cases hne : x.stackTop.slt x.stackBottom = true
  · by_cases hS : inMemory (x.stackTop + 1) = true
    · exact .inl ⟨hne, hS⟩
    · rw [Bool.not_eq_true] at hS
      exact .inr ⟨_, _, Micro.Raises.right (advance_returns x M)
        (Micro.Raises.left (pop_raises_oob a (x := x.set .pc (x.pc + 1)) hne hS M))⟩
  · rw [Bool.not_eq_true] at hne
    exact .inr ⟨_, _, Micro.Raises.right (advance_returns x M)
      (Micro.Raises.left (pop_raises_underflow a (x := x.set .pc (x.pc + 1)) hne M))⟩

end Sys2Proof.Machine
end

