-- ==== Sys2Proof/Laws/PerInstr.lean ====
section
/-! SUPPORT. One lemma for each constructor of Instr. -/

/-- Under every opcode map each instruction has one opcode word, which decodes to it, and at most three operand words
(30_encoding R53, R54, R59). -/
def Sys2Proof.Laws.OpcodeWord.Statement (i : Sys2Proof.Instr) : Prop :=
  (∀ p : Sys2Proof.Params, Sys2Proof.decode p.opcodeMap (i.opcodeWord p.opcodeMap) = some i) ∧ i.operandCount ≤ 3

theorem Sys2Proof.Laws.OpcodeWord.addRegReg : Sys2Proof.Laws.OpcodeWord.Statement .addRegReg :=
  ⟨fun p => Sys2Proof.decode_opcodeWord p _, by decide⟩
theorem Sys2Proof.Laws.OpcodeWord.addMemReg : Sys2Proof.Laws.OpcodeWord.Statement .addMemReg :=
  ⟨fun p => Sys2Proof.decode_opcodeWord p _, by decide⟩
theorem Sys2Proof.Laws.OpcodeWord.addRegMem : Sys2Proof.Laws.OpcodeWord.Statement .addRegMem :=
  ⟨fun p => Sys2Proof.decode_opcodeWord p _, by decide⟩
theorem Sys2Proof.Laws.OpcodeWord.addImmReg : Sys2Proof.Laws.OpcodeWord.Statement .addImmReg :=
  ⟨fun p => Sys2Proof.decode_opcodeWord p _, by decide⟩
theorem Sys2Proof.Laws.OpcodeWord.subRegReg : Sys2Proof.Laws.OpcodeWord.Statement .subRegReg :=
  ⟨fun p => Sys2Proof.decode_opcodeWord p _, by decide⟩
theorem Sys2Proof.Laws.OpcodeWord.subMemReg : Sys2Proof.Laws.OpcodeWord.Statement .subMemReg :=
  ⟨fun p => Sys2Proof.decode_opcodeWord p _, by decide⟩
theorem Sys2Proof.Laws.OpcodeWord.subRegMem : Sys2Proof.Laws.OpcodeWord.Statement .subRegMem :=
  ⟨fun p => Sys2Proof.decode_opcodeWord p _, by decide⟩
theorem Sys2Proof.Laws.OpcodeWord.subImmReg : Sys2Proof.Laws.OpcodeWord.Statement .subImmReg :=
  ⟨fun p => Sys2Proof.decode_opcodeWord p _, by decide⟩
theorem Sys2Proof.Laws.OpcodeWord.moveRegReg : Sys2Proof.Laws.OpcodeWord.Statement .moveRegReg :=
  ⟨fun p => Sys2Proof.decode_opcodeWord p _, by decide⟩
theorem Sys2Proof.Laws.OpcodeWord.moveMemReg : Sys2Proof.Laws.OpcodeWord.Statement .moveMemReg :=
  ⟨fun p => Sys2Proof.decode_opcodeWord p _, by decide⟩
theorem Sys2Proof.Laws.OpcodeWord.moveRegMem : Sys2Proof.Laws.OpcodeWord.Statement .moveRegMem :=
  ⟨fun p => Sys2Proof.decode_opcodeWord p _, by decide⟩
theorem Sys2Proof.Laws.OpcodeWord.moveImmReg : Sys2Proof.Laws.OpcodeWord.Statement .moveImmReg :=
  ⟨fun p => Sys2Proof.decode_opcodeWord p _, by decide⟩
theorem Sys2Proof.Laws.OpcodeWord.inc : Sys2Proof.Laws.OpcodeWord.Statement .inc :=
  ⟨fun p => Sys2Proof.decode_opcodeWord p _, by decide⟩
theorem Sys2Proof.Laws.OpcodeWord.jmp : Sys2Proof.Laws.OpcodeWord.Statement .jmp :=
  ⟨fun p => Sys2Proof.decode_opcodeWord p _, by decide⟩
theorem Sys2Proof.Laws.OpcodeWord.jz : Sys2Proof.Laws.OpcodeWord.Statement .jz :=
  ⟨fun p => Sys2Proof.decode_opcodeWord p _, by decide⟩
theorem Sys2Proof.Laws.OpcodeWord.jn : Sys2Proof.Laws.OpcodeWord.Statement .jn :=
  ⟨fun p => Sys2Proof.decode_opcodeWord p _, by decide⟩
theorem Sys2Proof.Laws.OpcodeWord.jeq : Sys2Proof.Laws.OpcodeWord.Statement .jeq :=
  ⟨fun p => Sys2Proof.decode_opcodeWord p _, by decide⟩
theorem Sys2Proof.Laws.OpcodeWord.jneq : Sys2Proof.Laws.OpcodeWord.Statement .jneq :=
  ⟨fun p => Sys2Proof.decode_opcodeWord p _, by decide⟩
theorem Sys2Proof.Laws.OpcodeWord.jgt : Sys2Proof.Laws.OpcodeWord.Statement .jgt :=
  ⟨fun p => Sys2Proof.decode_opcodeWord p _, by decide⟩
theorem Sys2Proof.Laws.OpcodeWord.jlw : Sys2Proof.Laws.OpcodeWord.Statement .jlw :=
  ⟨fun p => Sys2Proof.decode_opcodeWord p _, by decide⟩
theorem Sys2Proof.Laws.OpcodeWord.call : Sys2Proof.Laws.OpcodeWord.Statement .call :=
  ⟨fun p => Sys2Proof.decode_opcodeWord p _, by decide⟩
theorem Sys2Proof.Laws.OpcodeWord.ret : Sys2Proof.Laws.OpcodeWord.Statement .ret :=
  ⟨fun p => Sys2Proof.decode_opcodeWord p _, by decide⟩
end

