-- ==== Sys2Proof/Machine/Assembler.lean ====
section
/-! DEFINITION. The assembler syntax of spec/30_encoding.md R64 and its directives (R65): a source text, as characters, to
the `(address, Word)` pairs that a program image holds (spec/70_reset_and_hazards.md R148). What R64 leaves open, and the
`address:` line heads of the listings of spec/95_test_vectors.md, are in log 16. -/

namespace Sys2Proof.Machine

variable {p : Params} {w : Nat}

/-- A piece of source text. -/
abbrev Text := List Char

/-- Why a source text is not assembled (log 16). -/
inductive AssemblyError where
  /-- The first word of a statement is no mnemonic and no directive. -/
  | unknownMnemonic (word : Text)
  /-- The statement has another number of operands than its mnemonic takes (30_encoding R54). -/
  | wrongOperandCount (word : Text)
  /-- Not `%` and a register's name or index (30_encoding R64). -/
  | badRegister (operand : Text)
  /-- Not a signed decimal integer that a Word can hold. -/
  | badNumber (operand : Text)
  /-- A name that no line defines. -/
  | undefinedLabel (operand : Text)
  /-- A name that two lines define. -/
  | duplicateLabel (name : Text)
  /-- The text before a line's `:` can be no name. -/
  | badLabel (name : Text)
  deriving DecidableEq, Repr

/-- The mnemonic of an instruction (30_encoding R54, R64). -/
def mnemonicText : Instr → String
  | .addRegReg => "addRegReg" | .addMemReg => "addMemReg" | .addRegMem => "addRegMem" | .addImmReg => "addImmReg"
  | .subRegReg => "subRegReg" | .subMemReg => "subMemReg" | .subRegMem => "subRegMem" | .subImmReg => "subImmReg"
  | .moveRegReg => "moveRegReg" | .moveMemReg => "moveMemReg" | .moveRegMem => "moveRegMem"
  | .moveImmReg => "moveImmReg"
  | .inc => "inc"
  | .jmp => "jmp" | .jz => "jz" | .jn => "jn" | .jeq => "jeq" | .jneq => "jneq" | .jgt => "jgt" | .jlw => "jlw"
  | .call => "call" | .ret => "ret"

/-- The registers with their names (30_encoding R64). -/
def registerNames : List (String × RegName) :=
  [("RPG0", .rpg0), ("RPG1", .rpg1), ("RPG2", .rpg2), ("RPG3", .rpg3), ("PC", .pc), ("IR", .ir), ("Flags", .flags),
    ("StackBottom", .stackBottom), ("StackTop", .stackTop)]

/-- The Word `halt` assembles to: 0, or, under a map that holds 0, another Word outside the map (30_encoding R65). The
smallest such Word: DESIGN CHOICE (log 16); 22 mnemonics leave one of the 23 numbers free. -/
def haltWord (p : Params) : p.Word :=
  (((List.range 23).map (BitVec.ofNat p.wordBits)).find? fun x => (decode p.opcodeMap x).isNone).getD 0

/-! ## Text -/

/-- A space, a tab or a carriage return. -/
def isBlank (c : Char) : Bool := c == ' ' || c == '\t' || c == '\r'

/-- A text without the blanks at its ends. -/
def trim (t : Text) : Text := ((t.dropWhile isBlank).reverse.dropWhile isBlank).reverse

/-- The pieces of a text between separators. -/
def pieces (sep : Char) (t : Text) : List Text :=
  t.foldr (fun c acc =>
    if c == sep then [] :: acc
    else match acc with
      | [] => [[c]]
      | t :: ts => (c :: t) :: ts) [[]]

/-- An unsigned decimal number; at least one digit. -/
def natural (t : Text) : Option Nat :=
  if t.isEmpty || !t.all Char.isDigit then none
  else some (t.foldl (fun n c => 10 * n + (c.toNat - 48)) 0)

/-- A signed decimal integer: an optional minus sign and digits (30_encoding R64). -/
def integer : Text → Option Int
  | '-' :: digits => (natural digits).map fun n => -(n : Int)
  | digits => (natural digits).map fun n => (n : Int)

/-- A signed decimal integer as the Word of that value, where a Word can hold it (30_encoding R64, 00_scope R8). -/
def signedWord (w : Nat) (t : Text) : Option (Word w) :=
  match integer t with
  | some n => if -(2 ^ (w - 1)) ≤ n ∧ n < 2 ^ (w - 1) then some (BitVec.ofInt w n) else none
  | none => none

/-- A register operand: `%` and a name, or `%` and an index (30_encoding R64). -/
def registerOperandText (w : Nat) : Text → Option (Word w)
  | '%' :: name =>
    match registerNames.find? fun r => r.1.toList == name with
    | some r => some r.2.index
    | none =>
      match natural name with
      | some n => if n < Config.numRegs then some (BitVec.ofNat w n) else none
      | none => none
  | _ => none

/-! ## Lines -/

/-- What a line can ask for. -/
inductive Statement where
  /-- An instruction, or a directive, with its operands as they are written. -/
  | command (word : Text) (operands : List Text)
  /-- A line with nothing to assemble. -/
  | empty
  deriving DecidableEq, Repr

/-- What stands before a line's `:`. -/
inductive LineHead (w : Nat) where
  | none
  /-- A label, which names the address of the next Word (30_encoding R64). -/
  | label (name : Text)
  /-- An address, as in the listings of 95_test_vectors: the next Word goes there (log 16). -/
  | address (addr : Word w)
  deriving DecidableEq, Repr

/-- A line: its head and its statement. -/
structure Line (w : Nat) where
  head : LineHead w
  statement : Statement
  deriving DecidableEq, Repr

/-- A statement: a word, and after it the operands between commas. -/
def parseStatement (t : Text) : Statement :=
  let t := trim t
  if t.isEmpty then .empty
  else
    let operands := trim (t.dropWhile fun c => !isBlank c)
    .command (t.takeWhile fun c => !isBlank c)
      (if operands.isEmpty then [] else (pieces ',' operands).map trim)

/-- A name: some text with no blank, no comma and no `%`. -/
def isName (t : Text) : Bool := !t.isEmpty && t.all fun c => !isBlank c && c != ',' && c != '%'

/-- What the text before a line's `:` is: an integer is an address, and one that no Word holds is refused; any other name is
a label. R64 has labels only: DESIGN CHOICE (log 16). -/
def parseHead (w : Nat) (head : Text) : Except AssemblyError (LineHead w) :=
  match signedWord w head with
  | some addr => .ok (.address addr)
  | none =>
    if (integer head).isSome then .error (.badNumber head)
    else if isName head then .ok (.label head) else .error (.badLabel head)

/-- A line without its comment, which `;` starts (30_encoding R64). -/
def parseLine (w : Nat) (t : Text) : Except AssemblyError (Line w) :=
  let code := t.takeWhile (· != ';')
  if code.contains ':' then
    match parseHead w (trim (code.takeWhile (· != ':'))) with
    | .ok head => .ok ⟨head, parseStatement ((code.dropWhile (· != ':')).drop 1)⟩
    | .error e => .error e
  else .ok ⟨.none, parseStatement code⟩

/-! ## Two passes -/

/-- How many Words a statement assembles to (30_encoding R54, R65). -/
def Statement.size : Statement → Except AssemblyError Nat
  | .empty => .ok 0
  | .command word operands =>
    match Instr.all.find? fun i => (mnemonicText i).toList == word with
    | some i => if operands.length = i.operandCount then .ok (1 + i.operandCount) else .error (.wrongOperandCount word)
    | none =>
      if word == ".word".toList then (if operands.length = 1 then .ok 1 else .error (.wrongOperandCount word))
      else if word == "halt".toList then (if operands.isEmpty then .ok 1 else .error (.wrongOperandCount word))
      else .error (.unknownMnemonic word)

/-- The labels with their addresses. -/
abbrev Symbols (w : Nat) := List (Text × Word w)

/-- The symbols with each of these names at an address; a name that is there already is refused (log 16). -/
def bindLabels (here : Word w) (symbols : Symbols w) : List Text → Except AssemblyError (Symbols w)
  | [] => .ok symbols
  | name :: names =>
    if symbols.any fun known => known.1 == name then .error (.duplicateLabel name)
    else bindLabels here ((name, here) :: symbols) names

/-- The first pass: where each statement goes, and what each label names. A label waits, in `pending`, for the next
statement that assembles to a Word, and names that Word's address (30_encoding R64), also where that line's own `address:`
head sets it. That reading of a head, and that a label which no Word follows names the address after the last line: DESIGN
CHOICE (log 16). -/
def place (start : Word w) (pending : List Text) (symbols : Symbols w) :
    List (Line w) → Except AssemblyError (List (Word w × Statement) × Symbols w)
  | [] =>
    match bindLabels start symbols pending with
    | .ok symbols => .ok ([], symbols)
    | .error e => .error e
  | line :: rest =>
    let here := match line.head with
      | .address addr => addr
      | _ => start
    let pending := match line.head with
      | .label name => pending ++ [name]
      | _ => pending
    match line.statement.size with
    | .error e => .error e
    | .ok 0 => place here pending symbols rest
    | .ok n =>
      match bindLabels here symbols pending with
      | .error e => .error e
      | .ok symbols =>
        match place (here + BitVec.ofNat w n) [] symbols rest with
        | .error e => .error e
        | .ok (placed, symbols) => .ok ((here, line.statement) :: placed, symbols)

/-- One operand's Word (30_encoding R64): a register index, a number, or, for an address or a target, a label. -/
def operandText (symbols : Symbols w) : OperandKind → Text → Except AssemblyError (Word w)
  | .register, t => match registerOperandText w t with
    | some x => .ok x
    | none => .error (.badRegister t)
  | .immediate, t => match signedWord w t with
    | some x => .ok x
    | none => .error (.badNumber t)
  | _, t => match signedWord w t with
    | some x => .ok x
    | none => match symbols.find? fun known => known.1 == t with
      | some known => .ok known.2
      | none => .error (.undefinedLabel t)

/-- An instruction's operand Words. -/
def operandTexts (symbols : Symbols w) : List OperandKind → List Text → Except AssemblyError (List (Word w))
  | kind :: kinds, t :: ts =>
    match operandText symbols kind t, operandTexts symbols kinds ts with
    | .ok x, .ok xs => .ok (x :: xs)
    | .error e, _ => .error e
    | .ok _, .error e => .error e
  | _, _ => .ok []

/-- The Words of a statement: an instruction's encoding (30_encoding R53), or a directive's Word (R65). -/
def Statement.words (symbols : Symbols p.wordBits) : Statement → Except AssemblyError (List p.Word)
  | .empty => .ok []
  | .command word operands =>
    match Instr.all.find? fun i => (mnemonicText i).toList == word with
    | some i =>
      match operandTexts symbols i.operandKinds operands with
      | .ok xs => .ok (encode p.opcodeMap ⟨i, xs⟩)
      | .error e => .error e
    | none =>
      if word == "halt".toList then .ok [haltWord p]
      else match operands with
        | [t] => match signedWord p.wordBits t with
          | some x => .ok [x]
          | none => .error (.badNumber t)
        | _ => .error (.wrongOperandCount word)

/-- Words at consecutive addresses. -/
def wordsFrom (addr : Word w) : List (Word w) → List (Word w × Word w)
  | [] => []
  | x :: xs => (addr, x) :: wordsFrom (addr + 1) xs

/-- The second pass. -/
def emit (symbols : Symbols p.wordBits) : List (p.Word × Statement) → Except AssemblyError (List (p.Word × p.Word))
  | [] => .ok []
  | (addr, statement) :: rest =>
    match statement.words symbols, emit symbols rest with
    | .ok xs, .ok pairs => .ok (wordsFrom addr xs ++ pairs)
    | .error e, _ => .error e
    | .ok _, .error e => .error e

/-- The lines of a source text. -/
def parseLines (w : Nat) : List Text → Except AssemblyError (List (Line w))
  | [] => .ok []
  | t :: ts =>
    match parseLine w t, parseLines w ts with
    | .ok line, .ok lines => .ok (line :: lines)
    | .error e, _ => .error e
    | .ok _, .error e => .error e

/-- Assemble a source text, from address 0 on (30_encoding R64, R65), under given parameters. -/
def assemble (p : Params) (source : Text) : Except AssemblyError (List (p.Word × p.Word)) :=
  match parseLines p.wordBits (pieces '\n' source) with
  | .error e => .error e
  | .ok lines =>
    match place 0 [] [] lines with
    | .error e => .error e
    | .ok (placed, symbols) => emit symbols placed

end Sys2Proof.Machine
end

