-- ==== Sys2Proof/Tests/Slice0.lean ====
section
/-! SUPPORT. Small tests, with expected values from the spec's own examples (spec/95_test_vectors.md, spec/30_encoding.md
R54, R66), and for every statement with hypotheses a state that meets them. -/

namespace Sys2Proof.Tests
open Sys2Proof Machine

/-! ## Helpers -/

/-- The parameters of the spec's examples. -/
abbrev D : Params := Params.default

/-- Their Word. -/
abbrev W : Type := D.Word

/-- Their opcode map. -/
abbrev opcodes : OpcodeMap 32 := OpcodeMap.default 32

/-- All registers zero but StackTop and StackBottom, memory as given. -/
def start (stack : W) (words : List (W × W)) : CoreState D :=
  { CoreState.resetWith stack with mem := words.foldl (fun m q => m.write q.1 q.2) [] }

/-- A register set before a direct execution. -/
def put (s : CoreState D) (r : RegName) (v : W) : CoreState D := { s with regs := s.regs.set r v }

/-- `start` with pc at `a`. -/
def startAt (a stack : W) (words : List (W × W)) : CoreState D := put (start stack words) .pc a

/-- The next state an outcome holds. -/
def after : Host.Outcome State Fault Refusal → Option State
  | .next s => some s
  | _ => none

/-- One register after an outcome. -/
def reg (o : Host.Outcome State Fault Refusal) (r : RegName) : Option Int :=
  (after o).map fun s => (s.core.regs.get r).toInt

/-- One memory word after an outcome. -/
def word (o : Host.Outcome State Fault Refusal) (addr : Int) : Option Int :=
  (after o).bind fun s => (s.core.peek (BitVec.ofInt _ addr)).map (·.toInt)

/-- How an instruction or a step ends: FETCH again, HALT, or FAULT with its record. -/
inductive Ending where
  | goesOn
  | halts
  | faults (kind : ErrorKind) (value addr : Int)
  | other
  deriving DecidableEq

/-- The ending a control state is. -/
def ending {w : Nat} : ControlState w → Ending
  | .fetch => .goesOn
  | .halt => .halts
  | .fault r => .faults r.kind r.value.toInt r.addr.toInt
  | _ => .other

/-- The ending of an outcome. -/
def ctrl (o : Host.Outcome State Fault Refusal) : Option Ending := (after o).map fun s => ending s.core.ctrl

/-! ## Encoding: words written out from the tables of 30_encoding R54 and R59 -/

theorem test_decode_add :
    decode opcodes 0b00000000000000000000000000000001#32 = some .addRegReg ∧
    decode opcodes 0b00000000000000000000000000000010#32 = some .addMemReg ∧
    decode opcodes 0b00000000000000000000000000000011#32 = some .addRegMem ∧
    decode opcodes 0b00000000000000000000000000000100#32 = some .addImmReg := by decide

theorem test_decode_sub :
    decode opcodes 0b00000000000000000000000000000101#32 = some .subRegReg ∧
    decode opcodes 0b00000000000000000000000000000110#32 = some .subMemReg ∧
    decode opcodes 0b00000000000000000000000000000111#32 = some .subRegMem ∧
    decode opcodes 0b00000000000000000000000000001000#32 = some .subImmReg := by decide

theorem test_decode_move :
    decode opcodes 0b00000000000000000000000000001001#32 = some .moveRegReg ∧
    decode opcodes 0b00000000000000000000000000001010#32 = some .moveMemReg ∧
    decode opcodes 0b00000000000000000000000000001011#32 = some .moveRegMem ∧
    decode opcodes 0b00000000000000000000000000001100#32 = some .moveImmReg := by decide

theorem test_decode_inc :
    decode opcodes 0b00000000000000000000000000001101#32 = some .inc := by decide

theorem test_decode_jumps :
    decode opcodes 0b00000000000000000000000000001110#32 = some .jmp ∧
    decode opcodes 0b00000000000000000000000000001111#32 = some .jz ∧
    decode opcodes 0b00000000000000000000000000010000#32 = some .jn ∧
    decode opcodes 0b00000000000000000000000000010001#32 = some .jeq ∧
    decode opcodes 0b00000000000000000000000000010010#32 = some .jneq ∧
    decode opcodes 0b00000000000000000000000000010011#32 = some .jgt ∧
    decode opcodes 0b00000000000000000000000000010100#32 = some .jlw := by decide

theorem test_decode_call_ret :
    decode opcodes 0b00000000000000000000000000010101#32 = some .call ∧
    decode opcodes 0b00000000000000000000000000010110#32 = some .ret := by decide

/-- 30_encoding R61: the words around the map, and one that equals a word of the map in its low byte only. -/
theorem test_decode_refuses :
    decode opcodes 0 = none ∧ decode opcodes 23 = none ∧ decode opcodes (-1) = none ∧
      decode opcodes 0x0100000D#32 = none := by decide

theorem test_decode_words_short : decodeWords opcodes [17, 0, 1] = .error (.missingOperands .jeq) := by decide

/-- 30_encoding R66: `jeq %RPG0, %RPG1, 40`. -/
theorem test_encode_jeq : encode opcodes ⟨.jeq, [0, 1, 40]⟩ = [17, 0, 1, 40] := by decide

theorem test_table_word : decodeTableWord 32 13 = some .inc ∧ decodeTableWord 32 0 = none := by decide

theorem test_fetch_word : reg (step (State.reset.withFetchWord 32 13)) .rpg0 = some 1 := by decide

/-! ## Well-formedness: one ill-formed term for each check -/

theorem test_wellFormed : (⟨.jeq, [0, 8, -1]⟩ : Assembled 32).wellFormed = true := by decide
theorem test_illFormed_few : (⟨.addRegReg, [1]⟩ : Assembled 32).wellFormed = false := by decide
theorem test_illFormed_many : (⟨.ret, [1]⟩ : Assembled 32).wellFormed = false := by decide
theorem test_illFormed_register : (⟨.inc, [9]⟩ : Assembled 32).wellFormed = false := by decide
theorem test_illFormed_register_negative : (⟨.addMemReg, [50, -1]⟩ : Assembled 32).wellFormed = false := by decide

/-! ## The assembler (30_encoding R64, R65, R66) -/

theorem test_assemble_listing : assemble D "30: addRegReg %RPG1, %0".toList = .ok [(30, 1), (31, 1), (32, 0)] :=
      by decide
theorem test_assemble_label : assemble D "jmp x;\nx: halt".toList = .ok [(0, 14), (1, 2), (2, 0)] := by decide
theorem test_assemble_word : assemble D ".word -3".toList = .ok [(0, -3)] := by decide
theorem test_assemble_refuses : assemble D "inc 9".toList = .error (.badRegister "9".toList) := by decide

/-! ## One step of each instruction, by the vectors of 95_test_vectors -/

theorem test_s1 :
    let o := exec .addRegReg ⟨D, put (put (startAt 30 0 [(31, 1), (32, 0)]) .rpg0 3) .rpg1 52⟩
    reg o .rpg0 = some 55 ∧ reg o .pc = some 33 := by decide

theorem test_v6 :
    let o := exec .addRegReg ⟨D, put (put (put (startAt 0 0 [(2, 1)]) .rpg0 (-3)) .rpg1 3) .flags 4⟩
    reg o .rpg1 = some 0 ∧ reg o .flags = some 5 := by decide

theorem test_v7 :
    let o := exec .addMemReg ⟨D, put (startAt 10 100 [(11, 50), (12, 1), (50, 7)]) .rpg1 (-7)⟩
    reg o .flags = some 1 ∧ word o 100 = some 11 := by decide

theorem test_v12 :
    let o := exec .addMemReg ⟨D, startAt 0 100 [(1, 50), (2, 9)]⟩
    ctrl o = some (.faults .invalidRegisterIndex 9 0) ∧ word o 100 = some 1 := by decide

theorem test_v11 :
    let o := exec .addRegMem ⟨D, put (startAt 0 100 [(2, 100), (100, 9)]) .rpg0 5⟩
    word o 100 = some 7 ∧ reg o .pc = some 8 := by decide

theorem test_v2 :
    let o := exec .addImmReg ⟨D, put (startAt 0 0 [(1, 1)]) .rpg0 2147483647⟩
    reg o .rpg0 = some (-2147483648) ∧ reg o .flags = some 2 := by decide

theorem test_v16 :
    let o := exec .subRegReg ⟨D, put (put (startAt 0 0 [(2, 1)]) .rpg0 1) .rpg1 (-2147483648)⟩
    reg o .rpg1 = some 2147483647 ∧ reg o .flags = some 0 := by decide

theorem test_v20 :
    let o := exec .subMemReg ⟨D, put (startAt 10 100 [(11, 50), (12, 1), (50, 7)]) .rpg1 3⟩
    reg o .rpg1 = some (-4) ∧ word o 100 = some 11 := by decide

theorem test_v21 :
    let o := exec .subRegMem ⟨D, put (startAt 20 100 [(22, 60), (60, -10)]) .rpg0 4⟩
    word o 60 = some (-14) ∧ reg o .pc = some 23 := by decide

theorem test_v19 :
    let o := exec .subImmReg ⟨D, put (startAt 0 0 [(1, 10), (2, 2)]) .rpg2 10⟩
    reg o .rpg2 = some 0 ∧ reg o .flags = some 1 := by decide

theorem test_v25 :
    let o := exec .moveRegReg ⟨D, put (put (startAt 0 0 [(1, 2), (2, 3)]) .rpg2 (-9)) .flags 2⟩
    reg o .rpg3 = some (-9) ∧ reg o .flags = some 2 := by decide

theorem test_v28 :
    let o := exec .moveMemReg ⟨D, startAt 0 2 [(1, 30), (30, 7)]⟩
    reg o .rpg1 = some 7 ∧ reg o .rpg0 = some 0 := by decide

theorem test_v30 :
    let o := exec .moveRegMem ⟨D, put (startAt 0 100 [(2, 100)]) .rpg0 20⟩
    word o 100 = some 20 ∧ reg o .pc = some 21 := by decide

theorem test_v32 :
    let o := exec .moveRegMem ⟨D, startAt 0 100 [(2, -1)]⟩
    ctrl o = some (.faults .outOfBoundsAddress (-1) 0) ∧ word o 100 = some 2 := by decide

theorem test_v35 :
    let o := exec .moveImmReg ⟨D, startAt 0 0 [(1, 3), (2, 6)]⟩
    reg o .flags = some 3 ∧ reg o .pc = some 3 := by decide

theorem test_v39 :
    let o := exec .inc ⟨D, put (startAt 0 0 [(1, 6)]) .flags 1⟩
    reg o .flags = some 2 ∧ reg o .pc = some 2 := by decide

theorem test_v41 :
    let o := exec .jmp ⟨D, startAt 14 0 [(15, 6)]⟩
    reg o .pc = some 6 := by decide

theorem test_v45 :
    let o := exec .jz ⟨D, put (startAt 0 0 [(1, 9)]) .flags 4⟩
    reg o .pc = some 2 := by decide

theorem test_v43 :
    let o := exec .jz ⟨D, put (startAt 12 0 [(13, 16)]) .flags 1⟩
    reg o .pc = some 16 := by decide

theorem test_v46 :
    let o := exec .jn ⟨D, put (startAt 0 0 [(1, 50)]) .flags 2⟩
    reg o .pc = some 50 := by decide

theorem test_v47 :
    let o := exec .jn ⟨D, put (startAt 0 0 [(1, 50)]) .flags 1⟩
    reg o .pc = some 2 := by decide

theorem test_v51 :
    let o := exec .jeq ⟨D, startAt 0 0 [(1, 6), (3, 20)]⟩
    reg o .pc = some 20 ∧ reg o .flags = some 1 := by decide

theorem test_v53 :
    let o := exec .jneq ⟨D, put (startAt 0 0 [(1, 2), (2, 2), (3, 20)]) .rpg2 5⟩
    reg o .pc = some 4 ∧ reg o .flags = some 1 := by decide

theorem test_v56 :
    let o := exec .jgt ⟨D, put (put (startAt 0 0 [(2, 1), (3, 20)]) .rpg0 2147483647) .rpg1 (-1)⟩
    reg o .pc = some 4 ∧ reg o .flags = some 2 := by decide

theorem test_v60 :
    let o := exec .jlw ⟨D, put (put (startAt 0 0 [(2, 1), (3, 20)]) .rpg0 2147483647) .rpg1 (-1)⟩
    reg o .pc = some 20 ∧ reg o .flags = some 2 := by decide

theorem test_v63 :
    let o := exec .call ⟨D, startAt 0 0 [(1, 50)]⟩
    word o 0 = some 2 ∧ reg o .stackTop = some (-1) := by decide

theorem test_v64 :
    let o := exec .call ⟨D, startAt 0 (-1) [(1, 50)]⟩
    ctrl o = some (.faults .stackOverflow (-1) 0) := by decide

theorem test_v62 :
    let o := exec .ret ⟨D, put (startAt 15 120 [(120, 5)]) .stackTop 119⟩
    reg o .pc = some 5 ∧ reg o .stackTop = some 120 := by decide

theorem test_v65 :
    let o := exec .ret ⟨D, startAt 0 120 []⟩
    ctrl o = some (.faults .stackUnderflow 120 0) := by decide

/-- 30_encoding R64: the label stands for the address of the next Word, which its line's own head sets (log 16). -/
theorem test_assemble_label_before_head : assemble D "x:\n5: jmp x".toList = .ok [(5, 14), (6, 5)] := by decide

/-- Log 16: a number that no Word holds is no line head. -/
theorem test_assemble_refuses_head :
    assemble D "99999999999: ret".toList = .error (.badNumber "99999999999".toList) := by decide

/-! ## Other parameters (00_scope R6) -/

/-- 33-bit Words, 2^32 - 1 words of memory, an opcode map in which `inc` and `ret` have changed places, a stack that ends at
10, the sentinel 7, and StackTop's internal port on intbus1. -/
def other : Params where
  wordBits := 33
  memorySize := 4294967295
  opcodeMap := { OpcodeMap.default 33 with inc := 22, ret := 13 }
  stackLow := 10
  imageSentinel := 7
  wiring := { Wiring.default with stackTop := .int1 }
  wordBits_ge := by decide
  memorySize_pos := by decide
  memorySize_lt := by decide
  opcodeMap_injective := by decide
  stackLow_nonneg := by decide

theorem test_other_map :
    decode other.opcodeMap 22 = some .inc ∧ decode other.opcodeMap 13 = some .ret ∧
    assemble other "inc %0".toList = .ok [(0, 22), (1, 0)] := by decide

/-- The 33-bit sum wraps past 2^32 - 1; a push below `STACK_LOW` overflows. -/
theorem test_other_step :
    let s : CoreState other := CoreState.resetWith 9
    let t := { s with regs := s.regs.set .rpg0 4294967295, mem := Memory.write [] (0 : other.Word) 22 }
    reg (step ⟨other, t⟩) .rpg0 = some (-4294967296) ∧
    ctrl (exec .call ⟨other, s⟩) = some (.faults .stackOverflow 9 0) := by decide

theorem test_other_image :
    load (p := other) ⟨[(4294967294, 5), (0, 7), (1, 1)], 20⟩ =
      .loaded { CoreState.resetWith 20 with mem := Memory.write [] (4294967294 : other.Word) 5 } := by decide

/-! ## Indexed operations of internal ports (40_datapath R79) -/

/-- `internalRead()` of register 8 drives the segment WIRING gives its internal port. -/
theorem test_internalReadReg :
    (∃ t, internalReadReg 0 8 (by decide) (start 120 []) = .ok () t ∧ t.dp.intbus2 = 120 ∧ t.dp.selector = 8) ∧
    ∃ t, internalReadReg (p := other) 0 8 (by decide) (CoreState.resetWith 20) = .ok () t ∧ t.dp.intbus1 = 20 :=
  ⟨⟨_, rfl, by decide, by decide⟩, _, rfl, by decide⟩

/-- `internalStore()` of register 2 takes the Word of its segment; index 9 names no register. -/
theorem test_internalStoreReg :
    (∃ t, internalStoreReg 0 2 (by decide) ((start 120 []).put .int2 55) = .ok () t ∧ t.regs.rpg2 = 55) ∧
    ∃ t, internalStoreReg 6 9 (by decide) (start 120 []) = .error ⟨.invalidRegisterIndex, 9, 6⟩ t ∧
      t.regs = (start 120 []).regs :=
  ⟨⟨_, rfl, by decide⟩, _, rfl, by decide⟩

/-! ## Runs that end -/

/-- V68: a run that halts at once. -/
theorem test_v68 : ctrl (step ⟨D, start 0 [(0, 99)]⟩) = some .halts ∧
      reg (step ⟨D, start 0 [(0, 99)]⟩) .ir = some 99 := by decide

/-- S4: the image of the source's example. -/
theorem test_s4 :
    load (p := D) ⟨[(0, 5), (1, 4), (2, 3), (3, 2), (4, 1), (5, 0), (0, -1)], 120⟩ =
      .loaded (start 120 [(0, 5), (1, 4), (2, 3), (3, 2), (4, 1), (5, 0)]) := by decide

/-! ## Witnesses: states that meet the hypotheses of each statement

`wit_<Statement>_<clause>`; a clause whose hypotheses are `P` and `Q` has the theorem `P ∧
      Q` of one concrete state, at a
boundary of its range where it has one. -/

theorem wit_DecodeOfEncodeIsIdentity :
    (⟨.jeq, [0, 8, -1]⟩ : Assembled 32).wellFormed = true := by decide

theorem wit_EncodeOfDecodeIsIdentity :
    decodeWords opcodes [17, 0, 8, -1, 5] = .ok (⟨.jeq, [0, 8, -1]⟩, [5]) := by decide

theorem wit_FetchAndAdvanceMicroSequences_reads :
    ∃ t, memoryRead 127 (((startAt 127 120 [(127, 13)]) : CoreState D).portRead .pc) = .ok () t := ⟨_, rfl⟩

theorem wit_FetchAndAdvanceMicroSequences_raises :
    ∃ r t, memoryRead 128 (((startAt 128 120 []) : CoreState D).portRead .pc) = .error r t := ⟨_, _, rfl⟩

theorem wit_FetchReadsOpcodeIntoIr_inside :
    let s := (startAt 127 120 [(127, 13)])
    s.Idle ∧ inMemory s.regs.pc = true := by decide

theorem wit_FetchReadsOpcodeIntoIr_above :
    let s := (startAt 128 120 [])
    s.Idle ∧ inMemory s.regs.pc = false := by decide

theorem wit_FetchReadsOpcodeIntoIr_below :
    let s := (startAt (-1) 120 [])
    s.Idle ∧ inMemory s.regs.pc = false := by decide

theorem wit_StepRunsDecodedInstruction :
    let s := (startAt 127 120 [(127, 13)])
    s.Idle ∧ s.ctrl = .fetch ∧ s.peek s.regs.pc = some 13 ∧ decode opcodes 13 = some .inc := by decide

theorem wit_UnrecognizedWordHalts_above :
    let s := (startAt 127 120 [(127, 23)])
    s.Idle ∧ s.ctrl = .fetch ∧ s.peek s.regs.pc = some 23 ∧ decode opcodes 23 = none := by decide

theorem wit_UnrecognizedWordHalts_zero :
    let s := (startAt 127 120 [(127, 0)])
    s.Idle ∧ s.ctrl = .fetch ∧ s.peek s.regs.pc = some 0 ∧ decode opcodes 0 = none := by decide

theorem wit_UnrecognizedWordHalts_negative :
    let s := (startAt 127 120 [(127, -5)])
    s.Idle ∧ s.ctrl = .fetch ∧ s.peek s.regs.pc = some (-5) ∧ decode opcodes (-5) = none := by decide

theorem wit_FetchOutsideMemoryFaults :
    let s := (startAt 128 120 [])
    s.Idle ∧ s.ctrl = .fetch ∧ s.peek s.regs.pc = none := by decide

theorem wit_TerminalStatesTakeNoStep :
    let s := (startAt 127 120 [(127, 13)])
    (s.withCtrl .halt).ctrl = .halt ∧
    (s.withCtrl (.fault ⟨.stackOverflow, -1, 0⟩)).ctrl = .fault ⟨.stackOverflow, -1, 0⟩ := by decide

/-- A state whose memory interface has this phase, with this Word on the external bus. -/
def interface (phase : MemPhase) (bus : W) : CoreState D :=
  let s : CoreState D := start 0 []
  { s with dp := { s.dp with memPhase := phase, extbus := bus } }

theorem wit_MemoryInterfacePhases_addressIn :
    (interface .awaitingAddress 127).dp.memPhase = .awaitingAddress ∧
    inMemory (interface .awaitingAddress 127).dp.extbus = true := by decide

theorem wit_MemoryInterfacePhases_addressOut :
    (interface .awaitingAddress 128).dp.memPhase = .awaitingAddress ∧
    inMemory (interface .awaitingAddress 128).dp.extbus = false := by decide

theorem wit_MemoryInterfacePhases_data :
    (interface .awaitingData 5).dp.memPhase = .awaitingData := by decide

theorem wit_AccessIsBoundsChecked_first :
    (start 0 []).Idle ∧ (0 ≤ (0 : W).toInt ∧ (0 : W).toInt < D.memorySize) := by decide

theorem wit_AccessIsBoundsChecked_last :
    (start 0 []).Idle ∧ (0 ≤ (127 : W).toInt ∧ (127 : W).toInt < D.memorySize) := by decide

theorem wit_AccessIsBoundsChecked_above :
    (start 0 []).Idle ∧ ¬ (0 ≤ (128 : W).toInt ∧ (128 : W).toInt < D.memorySize) := by decide

theorem wit_AccessIsBoundsChecked_below :
    (start 0 []).Idle ∧ ¬ (0 ≤ ((-1) : W).toInt ∧ ((-1) : W).toInt < D.memorySize) := by decide

theorem wit_WriteThenReadMemory :
    Memory.wf D (Memory.write [] (3 : W) 7) = true ∧ inMemory (127 : W) = true ∧ (126 : W) ≠ 127 ∧
      507 / wordBytes D.wordBits ≠ (127 : W).toNat := by decide

theorem wit_RegisterOperandIsChecked_first :
    let s := (startAt 127 120 [(127, 0)])
    s.Idle ∧ s.peek s.regs.pc = some 0 ∧ (0 ≤ (0 : W).toInt ∧ (0 : W).toInt < 9) := by decide

theorem wit_RegisterOperandIsChecked_last :
    let s := (startAt 127 120 [(127, 8)])
    s.Idle ∧ s.peek s.regs.pc = some 8 ∧ (0 ≤ (8 : W).toInt ∧ (8 : W).toInt < 9) := by decide

theorem wit_RegisterOperandIsChecked_above :
    let s := (startAt 127 120 [(127, 9)])
    s.Idle ∧ s.peek s.regs.pc = some 9 ∧ ¬ (0 ≤ (9 : W).toInt ∧ (9 : W).toInt < 9) := by decide

theorem wit_RegisterOperandIsChecked_below :
    let s := (startAt 127 120 [(127, -1)])
    s.Idle ∧ s.peek s.regs.pc = some (-1) ∧ ¬ (0 ≤ ((-1) : W).toInt ∧ ((-1) : W).toInt < 9) := by decide

theorem wit_PushWritesThenDecrements_overflow :
    let s := (put (startAt 0 120 [(1, 50)]) .stackTop (-1))
    s.Idle ∧ s.regs.stackTop.slt D.stackLow = true := by decide

theorem wit_PushWritesThenDecrements_outside :
    let s := (put (startAt 0 120 [(1, 50)]) .stackTop 128)
    s.Idle ∧ s.regs.stackTop.slt D.stackLow = false ∧ inMemory s.regs.stackTop = false := by decide

theorem wit_PushWritesThenDecrements_lowest :
    let s := (put (startAt 0 120 [(1, 50)]) .stackTop 0)
    s.Idle ∧ s.regs.stackTop.slt D.stackLow = false ∧ inMemory s.regs.stackTop = true := by decide

theorem wit_PushWritesThenDecrements_highest :
    let s := (put (startAt 0 120 [(1, 50)]) .stackTop 127)
    s.Idle ∧ s.regs.stackTop.slt D.stackLow = false ∧ inMemory s.regs.stackTop = true := by decide

theorem wit_PopIncrementsThenReads_empty :
    let s := (put (startAt 0 120 [(1, 50)]) .stackTop 120)
    s.Idle ∧ s.regs.stackTop.slt s.regs.stackBottom = false := by decide

theorem wit_PopIncrementsThenReads_above :
    let s := (put (startAt 0 130 [(1, 50)]) .stackTop 127)
    s.Idle ∧ s.regs.stackTop.slt s.regs.stackBottom = true ∧ inMemory (s.regs.stackTop + 1) = false := by decide

theorem wit_PopIncrementsThenReads_below :
    let s := (put (startAt 0 0 [(1, 50)]) .stackTop (-2))
    s.Idle ∧ s.regs.stackTop.slt s.regs.stackBottom = true ∧ inMemory (s.regs.stackTop + 1) = false := by decide

theorem wit_PopIncrementsThenReads_highest :
    let s := (put (startAt 0 127 [(1, 50)]) .stackTop 126)
    s.Idle ∧ s.regs.stackTop.slt s.regs.stackBottom = true ∧ inMemory (s.regs.stackTop + 1) = true := by decide

theorem wit_PopIncrementsThenReads_lowest :
    let s := (put (startAt 0 0 [(1, 50)]) .stackTop (-1))
    s.Idle ∧ s.regs.stackTop.slt s.regs.stackBottom = true ∧ inMemory (s.regs.stackTop + 1) = true := by decide

theorem wit_ArithmeticRegRegResult :
    let s := (startAt 125 120 [(126, 4), (127, 8)])
    s.Idle ∧ s.peek (s.regs.pc + 1) = some RegName.pc.index ∧
      s.peek (s.regs.pc + 2) = some RegName.stackTop.index := by decide

theorem wit_ArithmeticImmRegResult :
    let s := (startAt 125 120 [(126, -1), (127, 6)])
    s.Idle ∧ s.peek (s.regs.pc + 1) = some (-1) ∧ s.peek (s.regs.pc + 2) = some RegName.flags.index := by decide

theorem wit_ArithmeticMemRegResult :
    let s := (startAt 125 0 [(126, 127), (127, 8)])
    let M := s.mem.write s.regs.stackTop (s.regs.pc + 1)
    s.Idle ∧ s.mem.wf D = true ∧ inMemory s.regs.stackTop = true ∧ inMemory (s.regs.pc + 1) = true ∧
    inMemory (s.regs.pc + 2) = true ∧ inMemory (M.read (s.regs.pc + 1)) = true ∧
      M.read (s.regs.pc + 2) = RegName.stackTop.index := by decide

theorem wit_ArithmeticMemRegResult_aliased :
    let s := (startAt 0 1 [(1, 50), (50, 9)])
    let M := s.mem.write s.regs.stackTop (s.regs.pc + 1)
    s.Idle ∧ s.mem.wf D = true ∧ inMemory s.regs.stackTop = true ∧ inMemory (s.regs.pc + 1) = true ∧
    inMemory (s.regs.pc + 2) = true ∧ inMemory (M.read (s.regs.pc + 1)) = true ∧
      M.read (s.regs.pc + 2) = RegName.rpg0.index := by decide

theorem wit_MoveMemRegResult :
    let s := (startAt 125 0 [(126, 127), (127, 8)])
    let M := s.mem.write s.regs.stackTop (s.regs.pc + 1)
    s.Idle ∧ s.mem.wf D = true ∧ inMemory s.regs.stackTop = true ∧ inMemory (s.regs.pc + 1) = true ∧
    inMemory (s.regs.pc + 2) = true ∧ inMemory (M.read (s.regs.pc + 1)) = true ∧
      M.read (s.regs.pc + 2) = RegName.stackTop.index := by decide

theorem wit_MoveMemRegResult_aliased :
    let s := (startAt 0 1 [(1, 50), (50, 9)])
    let M := s.mem.write s.regs.stackTop (s.regs.pc + 1)
    s.Idle ∧ s.mem.wf D = true ∧ inMemory s.regs.stackTop = true ∧ inMemory (s.regs.pc + 1) = true ∧
    inMemory (s.regs.pc + 2) = true ∧ inMemory (M.read (s.regs.pc + 1)) = true ∧
      M.read (s.regs.pc + 2) = RegName.rpg0.index := by decide

theorem wit_ArithmeticRegMemResult :
    let s := (startAt 125 0 [(126, 8), (127, 127)])
    s.Idle ∧ s.peek (s.regs.pc + 1) = some RegName.stackTop.index ∧ inMemory (s.regs.pc + 2) = true ∧
      inMemory s.regs.stackTop = true ∧
    inMemory ((s.mem.write s.regs.stackTop (s.regs.pc + 2)).read (s.regs.pc + 2)) = true := by decide

theorem wit_ArithmeticRegMemResult_aliased :
    let s := (startAt 0 2 [(1, 0), (2, 40)])
    s.Idle ∧ s.peek (s.regs.pc + 1) = some RegName.rpg0.index ∧ inMemory (s.regs.pc + 2) = true ∧
      inMemory s.regs.stackTop = true ∧
    inMemory ((s.mem.write s.regs.stackTop (s.regs.pc + 2)).read (s.regs.pc + 2)) = true := by decide

theorem wit_MoveRegMemResult :
    let s := (startAt 125 0 [(126, 8), (127, 127)])
    s.Idle ∧ s.peek (s.regs.pc + 1) = some RegName.stackTop.index ∧ inMemory (s.regs.pc + 2) = true ∧
      inMemory s.regs.stackTop = true ∧
    inMemory ((s.mem.write s.regs.stackTop (s.regs.pc + 2)).read (s.regs.pc + 2)) = true := by decide

theorem wit_MoveRegMemResult_aliased :
    let s := (startAt 0 2 [(1, 0), (2, 40)])
    s.Idle ∧ s.peek (s.regs.pc + 1) = some RegName.rpg0.index ∧ inMemory (s.regs.pc + 2) = true ∧
      inMemory s.regs.stackTop = true ∧
    inMemory ((s.mem.write s.regs.stackTop (s.regs.pc + 2)).read (s.regs.pc + 2)) = true := by decide

theorem wit_MoveToRegisterResult_register :
    let s := (startAt 125 120 [(126, 4), (127, 8)])
    s.Idle ∧ s.peek (s.regs.pc + 2) = some RegName.stackTop.index ∧
      s.peek (s.regs.pc + 1) = some RegName.pc.index := by decide

theorem wit_MoveToRegisterResult_immediate :
    let s := (startAt 125 120 [(126, -1), (127, 6)])
    s.Idle ∧ s.peek (s.regs.pc + 2) = some RegName.flags.index ∧ s.peek (s.regs.pc + 1) = some (-1) := by decide

theorem wit_IncResult :
    let s := (startAt 126 120 [(127, 4)])
    s.Idle ∧ s.peek (s.regs.pc + 1) = some RegName.pc.index := by decide

theorem wit_FlagJumpResult :
    let s := (startAt 126 120 [(127, -1)])
    s.Idle ∧ s.peek (s.regs.pc + 1) = some (-1) := by decide

theorem wit_FlagJumpResult_operandWord :
    let s := (startAt 127 120 [])
    s.Idle ∧ s.peek (s.regs.pc + 1) = none := by decide

theorem wit_CompareJumpResult :
    let s := (startAt 124 120 [(125, 0), (126, 8), (127, 200)])
    s.Idle ∧ s.peek (s.regs.pc + 1) = some RegName.rpg0.index ∧
    s.peek (s.regs.pc + 2) = some RegName.stackTop.index ∧ s.peek (s.regs.pc + 3) = some 200 := by decide

theorem wit_CallResult_lowest :
    let s := (put (startAt 0 120 [(1, 50)]) .stackTop 0)
    s.Idle ∧ s.peek (s.regs.pc + 1) = some 50 ∧ s.regs.stackTop.slt D.stackLow = false ∧
      inMemory s.regs.stackTop = true := by decide

theorem wit_CallResult_highest :
    let s := (put (startAt 0 127 [(1, 50)]) .stackTop 127)
    s.Idle ∧ s.peek (s.regs.pc + 1) = some 50 ∧ s.regs.stackTop.slt D.stackLow = false ∧
      inMemory s.regs.stackTop = true := by decide

theorem wit_RetResult_lowest :
    let s := (put (startAt 0 0 [(1, 50)]) .stackTop (-1))
    s.Idle ∧ s.regs.stackTop.slt s.regs.stackBottom = true ∧ inMemory (s.regs.stackTop + 1) = true := by decide

theorem wit_RetResult_highest :
    let s := (put (startAt 0 127 [(1, 50)]) .stackTop 126)
    s.Idle ∧ s.regs.stackTop.slt s.regs.stackBottom = true ∧ inMemory (s.regs.stackTop + 1) = true := by decide

/-- `exec i s` completes, or faults, in a next state. -/
def ends (i : Instr) (s : CoreState D) (e : Ending) : Prop :=
  ∃ t : CoreState D, exec i ⟨D, s⟩ = .next ⟨D, t⟩ ∧ ending t.ctrl = e

theorem ends_of_ctrl {i : Instr} {s : CoreState D} {e : Ending} (h : ctrl (exec i ⟨D, s⟩) = some e) : ends i s e := by
  unfold ends
  rw [exec_eq_execute] at h ⊢
  exact ⟨_, rfl, Option.some.inj h⟩

theorem wit_ParametersNeverChange_exec :
    ends .inc (startAt 126 120 [(127, 4)]) .goesOn := ends_of_ctrl (by decide)

theorem wit_NonStoringFormsKeepMemory :
    let s := (startAt 125 120 [(126, 4), (127, 8)])
    (storesNothing .addRegReg = true ∧ s.Idle) ∧ ends .addRegReg s .goesOn := ⟨by decide, ends_of_ctrl (by decide)⟩

theorem wit_NonStoringFormsKeepMemory_fault :
    let s := (startAt 126 120 [])
    (storesNothing .jgt = true ∧ s.Idle) ∧
      ends .jgt s (.faults .outOfBoundsAddress 128 126) := ⟨by decide, ends_of_ctrl (by decide)⟩

theorem wit_LoadsAndCallStoreAtStackTopOnly_load :
    let s := (startAt 125 0 [(126, 127), (127, 8)])
    (s.Idle ∧ s.mem.wf D = true ∧ 4 / wordBytes D.wordBits ≠ s.regs.stackTop.toNat) ∧
      ends .moveMemReg s .goesOn := ⟨by decide, ends_of_ctrl (by decide)⟩

theorem wit_LoadsAndCallStoreAtStackTopOnly_call :
    let s := (startAt 0 0 [(1, 50)])
    (s.Idle ∧ s.mem.wf D = true ∧ 4 / wordBytes D.wordBits ≠ s.regs.stackTop.toNat) ∧
      ends .call s .goesOn := ⟨by decide, ends_of_ctrl (by decide)⟩

theorem wit_StoresWriteScratchAndDestinationOnly :
    let s := (startAt 125 0 [(126, 8), (127, 127)])
    (s.Idle ∧ s.mem.wf D = true ∧ 4 / wordBytes D.wordBits ≠ s.regs.stackTop.toNat ∧
      4 / wordBytes D.wordBits ≠ ((s.mem.write s.regs.stackTop (s.regs.pc + 2)).read (s.regs.pc + 2)).toNat) ∧
      ends .addRegMem s .goesOn := ⟨by decide, ends_of_ctrl (by decide)⟩

theorem wit_RegisterDestinationFrame_register :
    let s := (startAt 125 120 [(126, 4), (127, 8)])
    (s.Idle ∧ s.mem.wf D = true ∧ s.mem.read (s.regs.pc + 2) ≠ RegName.rpg0.index) ∧
      ends .subRegReg s .goesOn := ⟨by decide, ends_of_ctrl (by decide)⟩

theorem wit_RegisterDestinationFrame_load :
    let s := (startAt 125 0 [(126, 127), (127, 8)])
    (s.Idle ∧ s.mem.wf D = true ∧
      (s.mem.write s.regs.stackTop (s.regs.pc + 1)).read (s.regs.pc + 2) ≠ RegName.rpg0.index) ∧
      ends .addMemReg s .goesOn := ⟨by decide, ends_of_ctrl (by decide)⟩

theorem wit_RegisterDestinationFrame_inc :
    let s := (startAt 126 120 [(127, 4)])
    (s.Idle ∧ s.mem.wf D = true ∧ s.mem.read (s.regs.pc + 1) ≠ RegName.rpg0.index) ∧
      ends .inc s .goesOn := ⟨by decide, ends_of_ctrl (by decide)⟩

theorem wit_NoRegisterDestinationFrame_flags :
    let s := (startAt 125 0 [(126, 8), (127, 127)])
    (s.Idle) ∧ ends .subRegMem s .goesOn := ⟨by decide, ends_of_ctrl (by decide)⟩

theorem wit_NoRegisterDestinationFrame_compare :
    let s := (startAt 124 120 [(125, 0), (126, 8), (127, 200)])
    (s.Idle) ∧ ends .jlw s .goesOn := ⟨by decide, ends_of_ctrl (by decide)⟩

theorem wit_NoRegisterDestinationFrame_pc :
    let s := (startAt 126 120 [(127, 4)])
    (s.Idle) ∧ ends .jz s .goesOn := ⟨by decide, ends_of_ctrl (by decide)⟩

theorem wit_NoRegisterDestinationFrame_stack :
    let s := (startAt 0 0 [(1, 50)])
    (s.Idle) ∧ ends .call s .goesOn := ⟨by decide, ends_of_ctrl (by decide)⟩

theorem wit_FlagsFrame_register :
    let s := (startAt 125 120 [(126, 4), (127, 8)])
    (s.Idle ∧ s.mem.wf D = true ∧ s.mem.read (s.regs.pc + 2) ≠ RegName.flags.index) ∧
      ends .addRegReg s .goesOn := ⟨by decide, ends_of_ctrl (by decide)⟩

theorem wit_FlagsFrame_load :
    let s := (startAt 125 0 [(126, 127), (127, 8)])
    (s.Idle ∧ s.mem.wf D = true ∧
      (s.mem.write s.regs.stackTop (s.regs.pc + 1)).read (s.regs.pc + 2) ≠ RegName.flags.index) ∧
      ends .subMemReg s .goesOn := ⟨by decide, ends_of_ctrl (by decide)⟩

theorem wit_FlagsFrame_inc :
    let s := (startAt 126 120 [(127, 4)])
    (s.Idle ∧ s.mem.wf D = true ∧ s.mem.read (s.regs.pc + 1) ≠ RegName.flags.index) ∧
      ends .inc s .goesOn := ⟨by decide, ends_of_ctrl (by decide)⟩

theorem wit_FlagsFrame_store :
    let s := (startAt 125 0 [(126, 8), (127, 127)])
    (s.Idle ∧ s.mem.wf D = true ∧ 2 ≤ 31) ∧ ends .addRegMem s .goesOn := ⟨by decide, ends_of_ctrl (by decide)⟩

theorem wit_FlagsFrame_move :
    let s := (startAt 125 120 [(126, 4), (127, 8)])
    (s.Idle ∧ s.mem.wf D = true ∧ s.mem.read (s.regs.pc + 2) ≠ RegName.flags.index) ∧
      ends .moveRegReg s .goesOn := ⟨by decide, ends_of_ctrl (by decide)⟩

theorem wit_FlagsFrame_moveLoad :
    let s := (startAt 125 0 [(126, 127), (127, 8)])
    (s.Idle ∧ s.mem.wf D = true ∧
      (s.mem.write s.regs.stackTop (s.regs.pc + 1)).read (s.regs.pc + 2) ≠ RegName.flags.index) ∧
      ends .moveMemReg s .goesOn := ⟨by decide, ends_of_ctrl (by decide)⟩

theorem wit_SequentialNextPc_register :
    let s := (startAt 125 120 [(126, -1), (127, 6)])
    (s.Idle ∧ s.mem.wf D = true ∧ s.mem.read (s.regs.pc + 2) ≠ RegName.pc.index) ∧
      ends .moveImmReg s .goesOn := ⟨by decide, ends_of_ctrl (by decide)⟩

theorem wit_SequentialNextPc_load :
    let s := (startAt 125 0 [(126, 127), (127, 8)])
    (s.Idle ∧ s.mem.wf D = true ∧ s.regs.stackTop ≠ s.regs.pc + 1 ∧ s.regs.stackTop ≠ s.regs.pc + 2 ∧
      s.mem.read (s.regs.pc + 2) ≠ RegName.pc.index) ∧
      ends .moveMemReg s .goesOn := ⟨by decide, ends_of_ctrl (by decide)⟩

theorem wit_SequentialNextPc_store :
    let s := (startAt 125 0 [(126, 8), (127, 127)])
    (s.Idle ∧ s.mem.wf D = true ∧ s.regs.stackTop ≠ s.regs.pc + 2 ∧ s.mem.read (s.regs.pc + 2) ≠ s.regs.stackTop) ∧
      ends .moveRegMem s .goesOn := ⟨by decide, ends_of_ctrl (by decide)⟩

theorem wit_SequentialNextPc_inc :
    let s := (startAt 126 120 [(127, 8)])
    (s.Idle ∧ s.mem.wf D = true ∧ s.mem.read (s.regs.pc + 1) ≠ RegName.pc.index) ∧
      ends .inc s .goesOn := ⟨by decide, ends_of_ctrl (by decide)⟩

theorem wit_RegRegFaultOrder_sourceWord :
    let s := (startAt 127 120 [])
    s.Idle ∧ s.peek (s.regs.pc + 1) = none := by decide

theorem wit_RegRegFaultOrder_sourceIndex :
    let s := (startAt 0 0 [(1, 9)])
    s.Idle ∧ s.peek (s.regs.pc + 1) = some 9 ∧ RegName.ofIndex (9 : W) = none := by decide

theorem wit_RegRegFaultOrder_destinationWord :
    let s := (startAt 126 0 [(127, 8)])
    s.Idle ∧ s.peek (s.regs.pc + 1) = some RegName.stackTop.index ∧ s.peek (s.regs.pc + 2) = none := by decide

theorem wit_RegRegFaultOrder_destinationIndex :
    let s := (startAt 125 0 [(126, 8), (127, 9)])
    s.Idle ∧ s.peek (s.regs.pc + 1) = some RegName.stackTop.index ∧ s.peek (s.regs.pc + 2) = some 9 ∧
      RegName.ofIndex (9 : W) = none := by decide

theorem wit_ImmRegFaultOrder_immediateWord :
    let s := (startAt 127 120 [])
    s.Idle ∧ s.peek (s.regs.pc + 1) = none := by decide

theorem wit_ImmRegFaultOrder_registerWord :
    let s := (startAt 126 0 [(127, 8)])
    s.Idle ∧ s.peek (s.regs.pc + 1) = some 8 ∧ s.peek (s.regs.pc + 2) = none := by decide

theorem wit_ImmRegFaultOrder_registerIndex :
    let s := (startAt 125 0 [(126, 8), (127, 9)])
    s.Idle ∧ s.peek (s.regs.pc + 1) = some 8 ∧ s.peek (s.regs.pc + 2) = some 9 ∧
      RegName.ofIndex (9 : W) = none := by decide

theorem wit_MemRegFaultOrder_scratch :
    let s := (startAt 0 128 [])
    s.Idle ∧ s.mem.wf D = true ∧ inMemory s.regs.stackTop = false := by decide

theorem wit_MemRegFaultOrder_addressWord :
    let s := (startAt 127 0 [])
    s.Idle ∧ s.mem.wf D = true ∧ inMemory s.regs.stackTop = true ∧ inMemory (s.regs.pc + 1) = false := by decide

theorem wit_MemRegFaultOrder_data :
    let s := (startAt 0 100 [(1, 128)])
    s.Idle ∧ s.mem.wf D = true ∧ inMemory s.regs.stackTop = true ∧ inMemory (s.regs.pc + 1) = true ∧
      inMemory ((s.mem.write s.regs.stackTop (s.regs.pc + 1)).read (s.regs.pc + 1)) = false := by decide

theorem wit_MemRegFaultOrder_registerWord :
    let s := (startAt 126 127 [])
    s.Idle ∧ s.mem.wf D = true ∧ inMemory s.regs.stackTop = true ∧ inMemory (s.regs.pc + 1) = true ∧
      inMemory ((s.mem.write s.regs.stackTop (s.regs.pc + 1)).read (s.regs.pc + 1)) = true ∧
      inMemory (s.regs.pc + 2) = false := by decide

theorem wit_MemRegFaultOrder_registerIndex :
    let s := (startAt 125 0 [(126, 127), (127, 9)])
    s.Idle ∧ s.mem.wf D = true ∧ inMemory s.regs.stackTop = true ∧ inMemory (s.regs.pc + 1) = true ∧
      inMemory ((s.mem.write s.regs.stackTop (s.regs.pc + 1)).read (s.regs.pc + 1)) = true ∧
      inMemory (s.regs.pc + 2) = true ∧
      RegName.ofIndex ((s.mem.write s.regs.stackTop (s.regs.pc + 1)).read (s.regs.pc + 2)) = none := by decide

theorem wit_RegMemFaultOrder_registerWord :
    let s := (startAt 127 120 [])
    s.Idle ∧ s.peek (s.regs.pc + 1) = none := by decide

theorem wit_RegMemFaultOrder_registerIndex :
    let s := (startAt 126 0 [(127, -1)])
    s.Idle ∧ s.peek (s.regs.pc + 1) = some (-1) ∧ RegName.ofIndex (-1 : W) = none := by decide

theorem wit_RegMemFaultOrder_scratch :
    let s := (startAt 0 (-1) [(1, 8)])
    s.Idle ∧ s.peek (s.regs.pc + 1) = some RegName.stackTop.index ∧ inMemory s.regs.stackTop = false := by decide

theorem wit_RegMemFaultOrder_addressWord :
    let s := (startAt 126 127 [(127, 8)])
    s.Idle ∧ s.peek (s.regs.pc + 1) = some RegName.stackTop.index ∧ inMemory s.regs.stackTop = true ∧
      inMemory (s.regs.pc + 2) = false := by decide

theorem wit_RegMemFaultOrder_data :
    let s := (startAt 125 0 [(126, 8), (127, -1)])
    s.Idle ∧ s.peek (s.regs.pc + 1) = some RegName.stackTop.index ∧ inMemory s.regs.stackTop = true ∧
      inMemory (s.regs.pc + 2) = true ∧
      inMemory ((s.mem.write s.regs.stackTop (s.regs.pc + 2)).read (s.regs.pc + 2)) = false := by decide

theorem wit_IncAndJumpFaultOrder_operandWord :
    let s := (startAt 127 120 [])
    s.Idle ∧ s.peek (s.regs.pc + 1) = none := by decide

theorem wit_IncAndJumpFaultOrder_firstIndex :
    let s := (startAt 126 0 [(127, 9)])
    s.Idle ∧ s.peek (s.regs.pc + 1) = some 9 ∧ RegName.ofIndex (9 : W) = none := by decide

theorem wit_IncAndJumpFaultOrder_secondWord :
    let s := (startAt 126 0 [(127, 8)])
    s.Idle ∧ s.peek (s.regs.pc + 1) = some RegName.stackTop.index ∧ s.peek (s.regs.pc + 2) = none := by decide

theorem wit_IncAndJumpFaultOrder_secondIndex :
    let s := (startAt 125 0 [(126, 8), (127, 9)])
    s.Idle ∧ s.peek (s.regs.pc + 1) = some RegName.stackTop.index ∧ s.peek (s.regs.pc + 2) = some 9 ∧
      RegName.ofIndex (9 : W) = none := by decide

theorem wit_IncAndJumpFaultOrder_target :
    let s := (startAt 125 0 [(126, 8), (127, 0)])
    s.Idle ∧ s.peek (s.regs.pc + 1) = some RegName.stackTop.index ∧
      s.peek (s.regs.pc + 2) = some RegName.rpg0.index ∧ s.peek (s.regs.pc + 3) = none := by decide

theorem wit_CallAndRetFaultOrder_operandWord :
    let s := (startAt 127 120 [])
    s.Idle ∧ s.peek (s.regs.pc + 1) = none := by decide

theorem wit_CallAndRetFaultOrder_overflow :
    let s := (startAt 126 (-1) [])
    s.Idle ∧ inMemory (s.regs.pc + 1) = true ∧ s.regs.stackTop.slt D.stackLow = true := by decide

theorem wit_CallAndRetFaultOrder_outside :
    let s := (startAt 126 128 [])
    s.Idle ∧ inMemory (s.regs.pc + 1) = true ∧ s.regs.stackTop.slt D.stackLow = false ∧
      inMemory s.regs.stackTop = false := by decide

theorem wit_CallAndRetFaultOrder_underflow :
    let s := (startAt 0 120 [])
    s.Idle ∧ s.regs.stackTop.slt s.regs.stackBottom = false := by decide

theorem wit_CallAndRetFaultOrder_popOutside :
    let s := (put (startAt 0 130 []) .stackTop 127)
    s.Idle ∧ s.regs.stackTop.slt s.regs.stackBottom = true ∧ inMemory (s.regs.stackTop + 1) = false := by decide

theorem wit_FaultKeepsEarlierWrites_loadAddressWord :
    let s := (startAt 127 0 [])
    (s.Idle ∧ s.mem.wf D = true ∧ inMemory s.regs.stackTop = true) ∧
      ends .addMemReg s (.faults .outOfBoundsAddress 128 127) := ⟨by decide, ends_of_ctrl (by decide)⟩

theorem wit_FaultKeepsEarlierWrites_loadData :
    let s := (startAt 0 100 [(1, 128)])
    (s.Idle ∧ s.mem.wf D = true ∧ inMemory s.regs.stackTop = true) ∧
      ends .subMemReg s (.faults .outOfBoundsAddress 128 0) := ⟨by decide, ends_of_ctrl (by decide)⟩

theorem wit_FaultKeepsEarlierWrites_loadRegisterWord :
    let s := (startAt 126 127 [])
    (s.Idle ∧ s.mem.wf D = true ∧ inMemory s.regs.stackTop = true) ∧
      ends .moveMemReg s (.faults .outOfBoundsAddress 128 126) := ⟨by decide, ends_of_ctrl (by decide)⟩

theorem wit_FaultKeepsEarlierWrites_loadIndex :
    let s := (startAt 125 0 [(126, 127), (127, 9)])
    (s.Idle ∧ s.mem.wf D = true ∧ inMemory s.regs.stackTop = true) ∧
      ends .addMemReg s (.faults .invalidRegisterIndex 9 125) := ⟨by decide, ends_of_ctrl (by decide)⟩

theorem wit_FaultKeepsEarlierWrites_storeAddressWord :
    let s := (startAt 126 127 [(127, 8)])
    (s.Idle ∧ s.mem.wf D = true ∧ inMemory s.regs.stackTop = true ∧
      s.peek (s.regs.pc + 1) = some RegName.stackTop.index) ∧
      ends .moveRegMem s (.faults .outOfBoundsAddress 128 126) := ⟨by decide, ends_of_ctrl (by decide)⟩

theorem wit_FaultKeepsEarlierWrites_storeData :
    let s := (startAt 125 0 [(126, 8), (127, -1)])
    (s.Idle ∧ s.mem.wf D = true ∧ inMemory s.regs.stackTop = true ∧
      s.peek (s.regs.pc + 1) = some RegName.stackTop.index) ∧
      ends .addRegMem s (.faults .outOfBoundsAddress (-1) 125) := ⟨by decide, ends_of_ctrl (by decide)⟩

theorem wit_FaultLeavesRegistersButPc_load :
    let s := (startAt 0 100 [(1, 50), (2, 9)])
    (s.Idle ∧ s.mem.wf D = true) ∧
      ends .addMemReg s (.faults .invalidRegisterIndex 9 0) := ⟨by decide, ends_of_ctrl (by decide)⟩

theorem wit_FaultLeavesRegistersButPc_pop :
    let s := (put (startAt 0 130 []) .stackTop 127)
    (s.Idle ∧ s.mem.wf D = true) ∧
      ends .ret s (.faults .outOfBoundsAddress 128 0) := ⟨by decide, ends_of_ctrl (by decide)⟩

theorem wit_LoadedImageMemory :
    ∀ q ∈ ([(0, 5), (127, -2), (0, 7)] : List (W × W)), q.2 ≠ D.imageSentinel ∧ inMemory q.1 = true := by
  simp only [List.forall_mem_cons, List.not_mem_nil, false_imp_iff, implies_true, and_true]; decide

theorem wit_MalformedImageIsRefused :
    (∀ q ∈ ([(127, 5)] : List (W × W)), q.2 ≠ D.imageSentinel ∧ inMemory q.1 = true) ∧
    (3 : W) ≠ D.imageSentinel ∧ inMemory (128 : W) = false := by
  simp only [List.forall_mem_cons, List.not_mem_nil, false_imp_iff, implies_true, and_true]; decide

theorem wit_InvariantHoldsAfterLoad :
    ∃ s, load (p := D) ⟨[(0, 5), (127, -2), (3, -1)], -1⟩ = .loaded s := ⟨_, rfl⟩

/-- `step s` takes a step, to a state with this control state. -/
def steps (s : State) (e : Ending) : Prop := ∃ t, step s = .next t ∧ ending t.core.ctrl = e

theorem steps_of_ctrl {s : State} {e : Ending} (h : ctrl (step s) = some e) : steps s e := by
  unfold steps
  cases ho : step s with
  | next t => exact ⟨t, rfl, by simpa [ctrl, after, ho] using h⟩
  | fault f => simp [ctrl, after, ho] at h
  | refused r => simp [ctrl, after, ho] at h

theorem wit_ParametersNeverChange_step :
    steps ⟨D, (startAt 0 120 [(0, 13)])⟩ .goesOn := steps_of_ctrl (by decide)

theorem wit_StepKeepsInvariant_fault :
    let s := (startAt 127 120 [(127, 13)])
    State.Inv ⟨D, s⟩ ∧ steps ⟨D, s⟩ (.faults .outOfBoundsAddress 128 127) := 
  ⟨⟨by decide, by decide, trivial⟩, steps_of_ctrl (by decide)⟩

theorem wit_StepKeepsInvariant_halt :
    let s := (startAt 127 120 [(127, -1)])
    State.Inv ⟨D, s⟩ ∧ steps ⟨D, s⟩ .halts := ⟨⟨by decide, by decide, trivial⟩, steps_of_ctrl (by decide)⟩

theorem wit_StepKeepsInvariant_next :
    let s := (startAt 0 120 [(0, 13)])
    State.Inv ⟨D, s⟩ ∧ steps ⟨D, s⟩ .goesOn := ⟨⟨by decide, by decide, trivial⟩, steps_of_ctrl (by decide)⟩

/-- Another state of the datapath's transients. -/
def disturbed (s : CoreState D) : CoreState D :=
  { s with dp := { s.dp with extbus := 1, intbus1 := 2, intbus2 := 3, aluSlot0 := 4, aluSlot1 := 5, selector := 6,
                             latchedAddress := 7 } }

theorem wit_TransientsAreNotArchitectural :
    let s := (startAt 125 120 [(126, 4), (127, 8)])
    SameButTransients s (disturbed s) ∧ s.Idle ∧
      s.dp ≠ (disturbed s).dp := ⟨⟨rfl, rfl, rfl, rfl⟩, by decide, by decide⟩

theorem wit_StepIgnoresTransients :
    let s := (startAt 125 120 [(126, 4), (127, 8)])
    SameButTransients s (disturbed s) ∧ s.ctrl = (disturbed s).ctrl ∧
      s.Idle := ⟨⟨rfl, rfl, rfl, rfl⟩, by decide, by decide⟩

theorem wit_CallThenRetReturns_call :
    let s := (startAt 3 120 [(4, 10)])
    (s.Idle ∧ s.mem.wf D = true) ∧ ends .call s .goesOn := ⟨by decide, ends_of_ctrl (by decide)⟩

theorem wit_CallThenRetReturns :
    let s := (startAt 3 120 [(4, 10)])
    ∃ t u : CoreState D, exec .call ⟨D, s⟩ = .next ⟨D, t⟩ ∧ t.ctrl = .fetch ∧ u.Idle ∧
      u.regs.stackTop = t.regs.stackTop ∧
      u.regs.stackTop.slt u.regs.stackBottom = true ∧ u.mem.read s.regs.stackTop = t.mem.read s.regs.stackTop ∧
      u.regs.pc ≠ t.regs.pc := 
  ⟨_, put (put (startAt 3 120 [(4, 10), (120, 5)]) .stackTop 119) .pc 15,
    rfl, rfl, by decide, by decide, by decide, by decide, by decide⟩

theorem wit_MemoryModeKeepsOtherCells_load :
    let s := (startAt 0 127 [(1, 50)])
    (s.Idle ∧ s.mem.wf D = true ∧ (126 : W) ≠ s.regs.stackTop ∧
      (s.mem.write s.regs.stackTop (s.regs.pc + 1)).read (s.regs.pc + 2) ≠ RegName.stackTop.index) ∧
      ends .addMemReg s .goesOn := ⟨by decide, ends_of_ctrl (by decide)⟩

theorem wit_MemoryModeKeepsOtherCells_store :
    let s := (startAt 125 0 [(126, 8), (127, 127)])
    (s.Idle ∧ s.mem.wf D = true ∧ 5 ≠ s.regs.stackTop ∧
      5 ≠ (s.mem.write s.regs.stackTop (s.regs.pc + 2)).read (s.regs.pc + 2)) ∧
      ends .addRegMem s .goesOn := ⟨by decide, ends_of_ctrl (by decide)⟩

end Sys2Proof.Tests
end

section
/-! The scope of the model (spec/00_scope.md): its parameters. -/

namespace Sys2Proof

/-- Under an injective map no two instructions share an opcode word (30_encoding R59): the word decodes to one of them. -/
theorem opcodeWord_injective (p : Params) : Function.Injective (Instr.opcodeWord p.opcodeMap) := fun i j h =>
  Option.some.inj <| by rw [← decode_opcodeWord p i, h, decode_opcodeWord]

theorem OpcodeMap.default_words_toNat : (OpcodeMap.default 32).words.map BitVec.toNat = List.range' 1 22 := by decide

/-- The default word of an instruction is its place in the order of 00_scope R2, counted from 1. -/
theorem opcodeWord_default_toNat {n : Nat} {i : Instr} (h : Instr.all[n]? = some i) :
    (i.opcodeWord (OpcodeMap.default 32)).toNat = n + 1 := by
  have hn : n < 22 := (List.getElem?_eq_some_iff.1 h).1
  have hword : ((OpcodeMap.default 32).words.map BitVec.toNat)[n]? =
      some (i.opcodeWord (OpcodeMap.default 32)).toNat := by
    rw [← Instr.all_opcodeWord, List.getElem?_map, List.getElem?_map, h]; rfl
  rw [OpcodeMap.default_words_toNat, List.getElem?_range' hn] at hword
  have := Option.some.inj hword
  omega

namespace Machine

variable {s t : State}

/-- EXECUTE stays under the parameters it starts from: its next state is built on them. -/
theorem exec_params {i : Instr} (h : exec i s = .next t) : t.params = s.params := by
  rw [exec_eq_execute] at h
  cases h
  rfl

theorem decodeAndExecute_params (h : decodeAndExecute s = .next t) : t.params = s.params := by
  cases hi : decode s.params.opcodeMap s.core.regs.ir with
  | some i =>
    simp only [decodeAndExecute, hi] at h
    exact (exec_params h :)
  | none =>
    simp only [decodeAndExecute, hi] at h
    cases h
    rfl

/-- HALT and FAULT have no next state, and FETCH goes on to DECODE or into FAULT, under the same parameters. -/
theorem step_params (h : step s = .next t) : t.params = s.params := by
  cases hc : s.core.ctrl with
  | halt => simp [step, hc] at h
  | fault record => simp [step, hc] at h
  | decode => simp only [step, hc] at h; exact decodeAndExecute_params h
  | execute => simp only [step, hc] at h; exact decodeAndExecute_params h
  | fetch =>
    cases hf : fetch s.core with
    | ok _ u => simp only [step, hc, hf] at h; exact (decodeAndExecute_params h :)
    | error record u => simp only [step, hc, hf] at h; cases h; rfl

end Machine

/-- Settles O12: EXECUTE keeps the parameters, and so does every other way a step goes on. -/
theorem parametersNeverChange : Obligations.ParametersNeverChange :=
  ⟨fun _ _ _ => Machine.exec_params, fun _ _ => Machine.step_params⟩

/-- Settles O13: the defaults by evaluation, the default opcode words from their list, and the constraints from the fields
of `Params`, where the injectivity of the map is that of decoding. -/
theorem parameterDefaultsAndConstraints : Obligations.ParameterDefaultsAndConstraints := by
  refine ⟨⟨rfl, rfl, rfl, rfl, ?opcodes, by decide, by decide⟩, fun p => ?constraints⟩
  case opcodes => exact fun _ _ => opcodeWord_default_toNat
  case constraints =>
    exact ⟨p.wordBits_ge, p.memorySize_pos, p.memorySize_lt, fun _ _ h => opcodeWord_injective p h, p.stackLow_nonneg⟩

end Sys2Proof
end

section
/-! The state (spec/10_state.md): what reset gives, and that the transients of R36 are no part of what an instruction reads. -/

namespace Sys2Proof

namespace Machine

variable {p : Params}

/-! ## Reset -/

/-- Reset makes every register zero but the two that `STACK_INIT` sets (10_state R37). -/
theorem CoreState.resetWith_get (stackInit : p.Word) {r : RegName} (hb : r ≠ .stackBottom) (ht : r ≠ .stackTop) :
    (CoreState.resetWith stackInit).regs.get r = 0 := by
  cases r
  case stackBottom => exact absurd rfl hb
  case stackTop => exact absurd rfl ht
  all_goals rfl

theorem CoreState.resetWith_peek (stackInit : p.Word) {addr : p.Word} (h : inMemory addr = true) :
    (CoreState.resetWith stackInit).peek addr = some 0 :=
  CoreState.peek_eq_some.2 ⟨h, Memory.read_nil addr⟩

/-- The reset state is an instruction boundary, in FETCH. -/
theorem CoreState.resetWith_inv (stackInit : p.Word) : (CoreState.resetWith stackInit).Inv where
  memoryCanonical := Memory.nil_wf
  interfaceIdle := rfl
  controlSound := trivial

/-! ## EXECUTE -/

/-- With the interface idle, what an instruction leaves and how it ends are given by the registers and the memory alone:
the microprogram reads no bus, slot, selector or latch that it has not written (10_state R36). -/
theorem exec_ends (i : Instr) (x : RegFile p.wordBits) (M : Memory) :
    ∃ x' M' c, ∀ s : CoreState p, s.Idle → s.regs = x → s.mem = M →
      exec i ⟨p, s⟩ = .next ⟨p, ({ s with regs := x', mem := M' } : CoreState p).endInstruction c⟩ := by
  rcases microprogram_follows i (Discipline.none_fits x.pc) x M trivial with
    ⟨⟨⟩, x', M', returns, -⟩ | ⟨record, x', M', raises, -, -⟩
  · refine ⟨x', M', .fetch, ?_⟩
    rintro s hs rfl rfl
    exact exec_of_returns hs returns
  · refine ⟨x', M', .fault record, ?_⟩
    rintro s hs rfl rfl
    exact exec_of_raises hs raises

variable {s t : CoreState p}

/-- The memory phase is no transient: 10_state R36 leaves it specified. -/
theorem SameButTransients.idle (h : SameButTransients s t) (hs : s.Idle) : t.Idle := h.phase.symm.trans hs

/-- The relation survives the same registers and memory on both sides. -/
theorem SameButTransients.write (h : SameButTransients s t) (x : RegFile p.wordBits) (M : Memory) :
    SameButTransients { s with regs := x, mem := M } { t with regs := x, mem := M } :=
  ⟨rfl, rfl, h.phase, h.boundaries⟩

/-- An instruction answers one next state, with the interface idle, from two states that differ in the transients only. -/
theorem exec_sameButTransients (i : Instr) (h : SameButTransients s t) (hs : s.Idle) :
    ∃ u : CoreState p, exec i ⟨p, s⟩ = .next ⟨p, u⟩ ∧ exec i ⟨p, t⟩ = .next ⟨p, u⟩ ∧ u.Idle := by
  obtain ⟨x', M', c, ends⟩ := exec_ends i s.regs s.mem
  refine ⟨_, ends s hs rfl rfl, ?_, hs⟩
  rw [ends t (h.idle hs) h.regs.symm h.mem.symm, CoreState.endInstruction_congr (h.write x' M') c]

/-! ## A step -/

/-- DECODE selects by IR, and HALT's boundary forgets the transients as EXECUTE's does. -/
theorem decodeAndExecute_sameButTransients (h : SameButTransients s t) (hs : s.Idle) :
    decodeAndExecute ⟨p, s⟩ = decodeAndExecute ⟨p, t⟩ := by
  have selected : decode p.opcodeMap s.regs.ir = decode p.opcodeMap t.regs.ir := by rw [h.regs]
  cases hi : decode p.opcodeMap t.regs.ir with
  | some i =>
    have executing : SameButTransients (s.withCtrl .execute) (t.withCtrl .execute) :=
      ⟨h.regs, h.mem, h.phase, h.boundaries⟩
    obtain ⟨u, fromS, fromT, -⟩ := exec_sameButTransients i executing hs
    simp only [decodeAndExecute, selected, hi, fromS, fromT]
  | none =>
    simp only [decodeAndExecute, selected, hi, CoreState.enterHalt, CoreState.endInstruction_congr h]

/-- A step from FETCH inside memory goes on from DECODE, with the word at pc in IR (41_control_unit R88). -/
theorem step_fetch_ok (hc : s.ctrl = .fetch) (hs : s.Idle) (hpc : inMemory s.regs.pc = true) :
    step ⟨p, s⟩ = decodeAndExecute ⟨p, { s with
      regs := s.regs.set .ir (s.mem.read s.regs.pc)
      ctrl := .decode
      dp := { s.dp with extbus := s.mem.read s.regs.pc } }⟩ := by
  simp only [step, hc, fetch_ok hs hpc, CoreState.withCtrl]

/-- A step from FETCH outside memory ends in FAULT, with nothing read (41_control_unit R88). -/
theorem step_fetch_raises (hc : s.ctrl = .fetch) (hs : s.Idle) (hpc : inMemory s.regs.pc = false) :
    step ⟨p, s⟩ = .next ⟨p, s.enterFault ⟨.outOfBoundsAddress, s.regs.pc, s.regs.pc⟩⟩ := by
  simp only [step, hc, fetch_raises hs hpc]
  rfl

/-- FETCH drives extbus before the memory interface reads it, so a step from FETCH sees no transient either. -/
theorem step_fetch_sameButTransients (h : SameButTransients s t) (hcs : s.ctrl = .fetch) (hct : t.ctrl = .fetch)
    (hs : s.Idle) : step ⟨p, s⟩ = step ⟨p, t⟩ := by
  have ht := h.idle hs
  cases hpc : inMemory s.regs.pc with
  | true =>
    rw [step_fetch_ok hcs hs hpc, step_fetch_ok hct ht (h.regs ▸ hpc)]
    refine decodeAndExecute_sameButTransients ⟨?ir, h.mem, h.phase, h.boundaries⟩ hs
    case ir => rw [h.regs, h.mem]
  | false =>
    rw [step_fetch_raises hcs hs hpc, step_fetch_raises hct ht (h.regs ▸ hpc), h.regs, CoreState.enterFault,
      CoreState.enterFault, CoreState.endInstruction_congr h]

/-- A step is the same from two states in one control state that differ in the transients only. -/
theorem step_sameButTransients (h : SameButTransients s t) (hc : s.ctrl = t.ctrl) (hs : s.Idle) :
    step ⟨p, s⟩ = step ⟨p, t⟩ := by
  cases hct : t.ctrl with
  | fetch => exact step_fetch_sameButTransients h (hc.trans hct) hct hs
  | decode => simpa only [step, hc, hct] using decodeAndExecute_sameButTransients h hs
  | execute => simpa only [step, hc, hct] using decodeAndExecute_sameButTransients h hs
  | halt => simp only [step, hc, hct]
  | fault record => simp only [step, hc, hct]

end Machine

open Machine

/-- Settles O57: what an instruction leaves is given by the registers and the memory, on which the two states agree, and
the boundary that ends it forgets the transients. -/
theorem transientsAreNotArchitectural : Obligations.TransientsAreNotArchitectural :=
  fun _ i _ _ => exec_sameButTransients i

/-- Settles O58: by the control state; FETCH and DECODE read no transient, and EXECUTE none by O57. -/
theorem stepIgnoresTransients : Obligations.StepIgnoresTransients := fun _ _ _ => step_sameButTransients

/-- Settles O51: the registers by cases and the memory as nothing listed; the rest are the fields that reset writes. -/
theorem resetGivesStatedValues : Obligations.ResetGivesStatedValues :=
  ⟨rfl, fun _ stackInit => ⟨fun _ => CoreState.resetWith_get stackInit, rfl, rfl,
    fun _ => CoreState.resetWith_peek stackInit, rfl, rfl, rfl, rfl, rfl, rfl, rfl, rfl, rfl⟩⟩

/-- Settles O54: reset lists no memory cell and leaves the interface idle, in FETCH. -/
theorem invariantHoldsAtReset : Obligations.InvariantHoldsAtReset :=
  ⟨CoreState.resetWith_inv Config.stackInit, fun _ stackInit => CoreState.resetWith_inv stackInit⟩

end Sys2Proof
end

section
/-! Memory (spec/20_memory.md): the bounds check of an access, read after write, what keeps memory, and the invariant
of an instruction boundary. -/

namespace Sys2Proof

namespace Machine

variable {p : Params} {s t : CoreState p}

/-! ## Accesses -/

/-- The bounds check of 20_memory R42, in terms of the address as a signed number. -/
theorem inMemory_iff_toInt {addr : p.Word} :
    inMemory addr = true ↔ 0 ≤ addr.toInt ∧ addr.toInt < p.memorySize := by
  have signed := BitVec.toInt_eq_toNat_cond addr
  have range := addr.isLt
  have half := p.two_pow
  have size := p.memorySize_lt
  rw [inMemory_iff]
  split at signed <;> omega

/-- What a micro-operation that returns leaves, seen from a state with the interface idle. -/
theorem Micro.Returns.run {α : Type} {m : Micro p α} {v : α} {x' : RegFile p.wordBits} {M' : Memory}
    (h : m.Returns s.regs s.mem v x' M') (hs : s.Idle) :
    ∃ t, m s = .ok v t ∧ t.regs = x' ∧ t.mem = M' ∧ t.Idle :=
  let ⟨_, idle, e⟩ := h s hs rfl rfl
  ⟨_, e, rfl, rfl, idle⟩

/-- What a micro-operation that raises leaves, seen from a state with the interface idle. -/
theorem Micro.Raises.run {α : Type} {m : Micro p α} {r : FaultRecord p.wordBits} {x' : RegFile p.wordBits} {M' : Memory}
    (h : m.Raises s.regs s.mem r x' M') (hs : s.Idle) : ∃ t, m s = .error r t ∧ t.regs = x' ∧ t.mem = M' :=
  let ⟨_, _, e⟩ := h s hs rfl rfl
  ⟨_, e, rfl, rfl⟩

/-! ## What an instruction keeps -/

/-- An instruction whose microprogram follows a discipline keeps what the discipline keeps, leaves the interface idle, and
ends in FETCH, or in FAULT with a record that the discipline reports. -/
theorem exec_of_follows {i : Instr} {D : Discipline p} (h : (microprogram i p s.regs.pc).Follows D) (hs : s.Idle)
    (hM : D.keeps s.mem) (e : exec i ⟨p, s⟩ = .next ⟨p, t⟩) :
    D.keeps t.mem ∧ t.Idle ∧ (t.ctrl = .fetch ∨ ∃ r, t.ctrl = .fault r ∧ D.reports r t.regs) := by
  rcases h s.regs s.mem hM with ⟨⟨⟩, x', M', returns, kept⟩ | ⟨r, x', M', raises, kept, reported⟩
  · obtain rfl := next_inj ((exec_of_returns hs returns).symm.trans e)
    exact ⟨kept, hs, .inl rfl⟩
  · obtain rfl := next_inj ((exec_of_raises hs raises).symm.trans e)
    exact ⟨kept, hs, .inr ⟨r, rfl, reported⟩⟩

/-- The discipline that holds the memory fixed and asks nothing of a fault record. -/
def Discipline.fixed (M : Memory) : Discipline p := { keeps := (· = M), reports := fun _ _ => True }

theorem Discipline.fixed_fitsReads (M : Memory) (a : p.Word) : (Discipline.fixed M).FitsReads a :=
  ⟨fun _ _ => trivial, fun _ _ => trivial, fun _ => trivial, fun _ => trivial⟩

/-- An instruction that stores nothing leaves memory as it was, also on a fault (70_reset_and_hazards R168). -/
theorem exec_mem_of_storesNothing {i : Instr} (hi : storesNothing i = true) (hs : s.Idle)
    (e : exec i ⟨p, s⟩ = .next ⟨p, t⟩) : t.mem = s.mem :=
  (exec_of_follows (microprogram_follows_reads hi (Discipline.fixed_fitsReads s.mem s.regs.pc)) hs rfl e).1

/-! ## The invariant of an instruction boundary -/

/-- EXECUTE of an instruction that lies in memory ends at a boundary that has the invariant. -/
theorem exec_inv {i : Instr} (e : exec i ⟨p, s⟩ = .next ⟨p, t⟩) (hM : s.mem.wf p = true) (hs : s.Idle)
    (hpc : inMemory s.regs.pc = true) : t.Inv := by
  obtain ⟨canonical, idle, ending⟩ :=
    exec_of_follows (microprogram_follows i (Discipline.sound_fits hpc)) hs hM e
  refine ⟨canonical, idle, ?_⟩
  rcases ending with hc | ⟨r, hc, -, sound⟩
  · simp only [CoreState.ctrlSound, hc]
  · simpa only [CoreState.ctrlSound, hc] using sound

/-- DECODE with IR holding the word at pc: EXECUTE keeps the invariant, and HALT is at the unrecognised word. -/
theorem decodeAndExecute_inv (e : decodeAndExecute ⟨p, s⟩ = .next ⟨p, t⟩) (hM : s.mem.wf p = true) (hs : s.Idle)
    (hpc : inMemory s.regs.pc = true) (hir : s.regs.ir = s.mem.read s.regs.pc) : t.Inv := by
  cases hi : decode p.opcodeMap s.regs.ir with
  | some i =>
    simp only [decodeAndExecute, hi] at e
    exact exec_inv e hM hs hpc
  | none =>
    simp only [decodeAndExecute, hi] at e
    obtain rfl := next_inj e
    exact ⟨hM, hs, hpc, hir, hi⟩

/-- A FETCH outside memory: the record's address is its value, which lies outside memory (60_exceptions R133). -/
theorem fetchFault_inv (hM : s.mem.wf p = true) (hs : s.Idle) (hpc : inMemory s.regs.pc = false) :
    (s.enterFault ⟨.outOfBoundsAddress, s.regs.pc, s.regs.pc⟩).Inv := by
  refine ⟨hM, hs, ?_⟩
  simp [CoreState.ctrlSound, CoreState.enterFault, FaultRecord.sound, hpc]

/-- A step from a boundary that has the invariant ends at one that has it: FETCH is the only control state of such a
boundary from which there is a step. -/
theorem step_inv (h : s.Inv) (e : step ⟨p, s⟩ = .next ⟨p, t⟩) : t.Inv := by
  obtain ⟨hM, hs, sound⟩ := h
  cases hc : s.ctrl with
  | halt => simp [step, hc] at e
  | fault record => simp [step, hc] at e
  | decode => simp [CoreState.ctrlSound, hc] at sound
  | execute => simp [CoreState.ctrlSound, hc] at sound
  | fetch =>
    cases hpc : inMemory s.regs.pc with
    | true =>
      rw [step_fetch_ok hc hs hpc] at e
      exact decodeAndExecute_inv e hM hs hpc rfl
    | false =>
      rw [step_fetch_raises hc hs hpc] at e
      obtain rfl := next_inj e
      exact fetchFault_inv hM hs hpc

end Machine

open Machine

/-- Settles O56: the parameters stay, and under them the step keeps the invariant. -/
theorem stepKeepsInvariant : Obligations.StepKeepsInvariant := by
  rintro ⟨p, s⟩ ⟨q, t⟩ hs e
  obtain rfl : q = p := step_params e
  exact step_inv hs e

/-- Settles O19: the check of the memory interface is the signed bounds check, and each access by its law on either side. -/
theorem accessIsBoundsChecked : Obligations.AccessIsBoundsChecked := by
  intro p s a addr v hs
  rw [← inMemory_iff_toInt]
  refine ⟨fun legal => ⟨?_, ?_⟩, fun illegal => ?_⟩
  · exact (memRead_returns a legal s.regs s.mem).run hs
  · exact (memWrite_returns a legal v s.regs s.mem).run hs
  · rw [Bool.not_eq_true] at illegal
    exact ⟨(memRead_raises a illegal s.regs s.mem).run hs, (memWrite_raises a illegal v s.regs s.mem).run hs⟩

/-- Settles O20: by the laws of the memory array, whose keys rise in the canonical form. -/
theorem writeThenReadMemory : Obligations.WriteThenReadMemory := by
  intro p M addr v canonical inside
  have rising := Memory.rising_of_wf canonical
  exact ⟨Memory.read_write_same rising addr v, fun _ => Memory.read_write_of_ne rising,
    fun _ => Memory.byte_write_of_ne rising, Memory.write_wf canonical inside v⟩

/-- Settles O36: the whole memory is the same, so every byte is. -/
theorem nonStoringFormsKeepMemory : Obligations.NonStoringFormsKeepMemory := by
  intro p i s t hi hs e n
  rw [exec_mem_of_storesNothing hi hs e]

end Sys2Proof
end

section
/-! Encoding (spec/30_encoding.md): reading an instruction off a list of words and writing it, and the words outside the
opcode map. -/

namespace Sys2Proof

/-! ## Whole instructions -/

/-- A list of words decodes to an instruction and a rest exactly when it is the instruction's words and then the rest,
with as many operand words as the opcode fixes (30_encoding R53, R56). -/
theorem decodeWords_eq_ok {p : Params} {ws rest : List p.Word} {x : Assembled p.wordBits} :
    decodeWords p.opcodeMap ws = .ok (x, rest) ↔
      encode p.opcodeMap x ++ rest = ws ∧ x.operands.length = x.op.operandCount := by
  constructor
  · intro decoded
    rcases ws with _ | ⟨word, ws⟩
    · cases decoded
    cases selected : decode p.opcodeMap word with
    | none => simp [decodeWords, selected] at decoded
    | some i =>
      simp only [decodeWords, selected] at decoded
      split at decoded
      case isTrue enough =>
        cases decoded
        simp [encode, opcodeWord_of_decode selected, enough]
      case isFalse => cases decoded
  · rintro ⟨rfl, count⟩
    simp [decodeWords, encode, ← count]

/-! ## The words outside the map -/

section
variable {w : Nat}

/-- The words that decode to nothing are those that the map does not list (30_encoding R61). -/
theorem decode_eq_none_iff_notMem {m : OpcodeMap w} {x : Word w} : decode m x = none ↔ x ∉ m.words := by
  rw [decode_eq_none, ← Instr.all_opcodeWord]
  simp [Instr.mem_all, eq_comm]

/-- The default map lists the numbers 1 to 22, at any width (30_encoding R59). -/
theorem OpcodeMap.default_words : (OpcodeMap.default w).words = (List.range' 1 22).map (BitVec.ofNat w) := rfl

/-- A number below half a word's range is the signed value of its word. -/
theorem word_toInt_of_lt_half {n : Nat} (h : 2 * n < 2 ^ w) : (BitVec.ofNat w n).toInt = n := by
  have small : n % 2 ^ w = n := Nat.mod_eq_of_lt (by omega)
  rw [BitVec.toInt_eq_toNat_of_lt (by rwa [BitVec.toNat_ofNat, small]), BitVec.toNat_ofNat, small]

/-- From 32 bits on no two of the numbers 1 to 22 fall together, nor does one of them turn negative. -/
theorem mem_default_words (hw : 32 ≤ w) {x : Word w} :
    x ∈ (OpcodeMap.default w).words ↔ 1 ≤ x.toInt ∧ x.toInt ≤ 22 := by
  have range : 2 ^ 32 ≤ 2 ^ w := Nat.pow_le_pow_right (by decide) hw
  rw [OpcodeMap.default_words, List.mem_map]
  constructor
  · rintro ⟨n, hn, rfl⟩
    rw [List.mem_range'_1] at hn
    rw [word_toInt_of_lt_half (by omega)]
    omega
  · rintro ⟨one_le, le_last⟩
    refine ⟨x.toInt.toNat, List.mem_range'_1.2 (by omega), BitVec.eq_of_toInt_eq ?_⟩
    rw [word_toInt_of_lt_half (by omega)]
    omega

end

namespace Machine

/-- DECODE of a word outside the map, from FETCH inside memory: HALT, with the word in IR (41_control_unit R89). -/
theorem step_fetch_unknown {p : Params} {s : CoreState p} (hs : s.Idle) (hc : s.ctrl = .fetch)
    (hpc : inMemory s.regs.pc = true) (unknown : decode p.opcodeMap (s.mem.read s.regs.pc) = none) :
    step ⟨p, s⟩ = .next ⟨p, ({ s with regs := s.regs.set .ir (s.mem.read s.regs.pc) } : CoreState p).enterHalt⟩ := by
  rw [step_fetch_ok hc hs hpc]
  simp only [decodeAndExecute, RegFile.set_ir_ir, unknown]
  rfl

end Machine

open Machine

/-- Settles O3: a well-formed instruction has as many operand words as its opcode fixes. -/
theorem decodeOfEncodeIsIdentity : Obligations.DecodeOfEncodeIsIdentity :=
  fun _ _ _ wellFormed => decodeWords_eq_ok.2 ⟨rfl, operandsAdmitted_length wellFormed⟩

/-- Settles O4: the other direction of what decoding a list of words says. -/
theorem encodeOfDecodeIsIdentity : Obligations.EncodeOfDecodeIsIdentity := fun _ _ _ _ => decodeWords_eq_ok.1

/-- Settles O8: the words of the default map are the numbers 1 to 22, and DECODE goes to HALT on every word outside the
map it is given. -/
theorem unrecognizedWordHalts : Obligations.UnrecognizedWordHalts := by
  refine ⟨fun _ _ => decode_eq_none, fun w x hw => ?outside, rfl, fun p s x hs hc hx unknown => ?halts⟩
  case outside =>
    rw [decode_eq_none_iff_notMem, mem_default_words hw]
    omega
  case halts =>
    obtain ⟨hpc, rfl⟩ := CoreState.peek_eq_some.1 hx
    exact ⟨_, step_fetch_unknown hs hc hpc unknown, rfl, rfl, rfl, rfl⟩

/-- Settles O1: a decoded word is the word of what it decodes to, and under an injective map each instruction's word
decodes to that instruction. -/
theorem opcodeSelectsIffEqual : Obligations.OpcodeSelectsIffEqual :=
  fun p _ i => ⟨opcodeWord_of_decode, fun h => h ▸ decode_opcodeWord p i⟩

/-- Settles O2, by evaluation of each of the lists written out. -/
theorem writtenOutWordsDecode : Obligations.WrittenOutWordsDecode := by
  unfold Obligations.WrittenOutWordsDecode
  intro m
  and_intros <;> rfl

end Sys2Proof
end

section
/-! The datapath (spec/40_datapath.md): ports, flag bits, ALU and memory interface, and the two micro-sequences that the
source gives for the control unit. -/

namespace Sys2Proof

namespace Machine

variable {p : Params} {s t : CoreState p}

/-! ## Flag bits -/

theorem FlagBit.number_lt_wordBits (p : Params) (i : FlagBit) : i.number < p.wordBits := by
  have wide := p.wordBits_ge
  cases i <;> simp only [FlagBit.number] <;> omega

/-- `setFlag_bit` without its bound: past the width both words read as 0, and a flag's bit is not there. -/
theorem getLsbD_setFlag (f : p.Word) (i : FlagBit) (v : Bool) (n : Nat) :
    (setFlag f i v).getLsbD n = if n = i.number then v else f.getLsbD n := by
  by_cases inside : n < p.wordBits
  · exact setFlag_bit f i v n inside
  · have past : p.wordBits ≤ n := Nat.le_of_not_lt inside
    have other : n ≠ i.number := fun h => inside (h ▸ i.number_lt_wordBits p)
    rw [if_neg other, BitVec.getLsbD_of_ge _ _ past, BitVec.getLsbD_of_ge _ _ past]

/-! ## ALU -/

theorem CoreState.aluOperate_dp (s : CoreState p) (op : AluOp) :
    (s.aluOperate op).dp = { s.dp with aluSlot1 := op.apply s.dp.aluSlot0 s.dp.aluSlot1 } := rfl

theorem CoreState.aluInc_dp (s : CoreState p) : s.aluInc.dp = { s.dp with aluSlot1 := s.dp.aluSlot1 + 1 } := rfl

/-- `+w 1` is the wrapped successor of the signed value: a Word has room for the signed number 1 (00_scope R8). -/
theorem word_add_one_toInt (x : p.Word) : (x + 1).toInt = (x.toInt + 1).bmod (2 ^ p.wordBits) := by
  have one : (1 : p.Word).toInt = 1 := BitVec.toInt_one (Nat.lt_of_lt_of_le (by decide) p.wordBits_ge)
  rw [BitVec.toInt_add, one]

/-! ## Memory interface -/

/-- The first `store()` of a pair latches an address that lies in memory and waits for the data (R80). -/
theorem memoryStore_address (a : p.Word) (phase : s.dp.memPhase = .awaitingAddress) (h : inMemory s.dp.extbus = true) :
    memoryStore a s =
      .ok () { s with dp := { s.dp with latchedAddress := s.dp.extbus, memPhase := .awaitingData } } := by
  simp [memoryStore, Micro.bind_apply, phase, h]

/-- The first `store()` of a pair refuses an address outside memory, which stays in the latch (R80; log 9). -/
theorem memoryStore_address_raises (a : p.Word) (phase : s.dp.memPhase = .awaitingAddress)
    (h : inMemory s.dp.extbus = false) :
    memoryStore a s = .error ⟨.outOfBoundsAddress, s.dp.extbus, a⟩
      { s with dp := { s.dp with latchedAddress := s.dp.extbus } } := by
  simp [memoryStore, Micro.bind_apply, phase, h]

/-- The second `store()` of a pair writes the data at the latched address, unchecked (R80). -/
theorem memoryStore_data (a : p.Word) (phase : s.dp.memPhase = .awaitingData) :
    memoryStore a s = .ok () { s with
      mem := s.mem.write s.dp.latchedAddress s.dp.extbus
      dp := { s.dp with memPhase := .awaitingAddress } } := by
  simp [memoryStore, Micro.bind_apply, phase]

/-- `read()` replaces the address on extbus by the Word stored there (R81). -/
theorem memoryRead_address (a : p.Word) (phase : s.dp.memPhase = .awaitingAddress) (h : inMemory s.dp.extbus = true) :
    memoryRead a s = .ok () { s with dp := { s.dp with extbus := s.mem.read s.dp.extbus } } := by
  simp [memoryRead, Micro.bind_apply, phase, h, CoreState.put, Datapath.put]

theorem memoryRead_address_raises (a : p.Word) (phase : s.dp.memPhase = .awaitingAddress)
    (h : inMemory s.dp.extbus = false) : memoryRead a s = .error ⟨.outOfBoundsAddress, s.dp.extbus, a⟩ s := by
  simp [memoryRead, Micro.bind_apply, phase, h]

/-- A `read()` between the two calls of a store breaks the protocol (R82). -/
theorem memoryRead_data_raises (a : p.Word) (phase : s.dp.memPhase = .awaitingData) :
    memoryRead a s = .error ⟨.memoryProtocolError, s.dp.latchedAddress, a⟩ s := by
  simp [memoryRead, Micro.bind_apply, phase]

/-! ## Micro-sequences -/

/-- FETCH ends with `IR.store()` where its `Memory.read()` returns (R86). -/
theorem fetch_of_memoryRead_ok (h : memoryRead s.regs.pc (s.portRead .pc) = .ok () t) :
    fetch s = .ok () (t.portStore .ir) := by
  simp only [fetch, Micro.bind_apply, Micro.get_apply, Micro.modify_apply, h]

/-- FETCH ends where its `Memory.read()` raises: no `IR.store()` follows. -/
theorem fetch_of_memoryRead_error {r : FaultRecord p.wordBits}
    (h : memoryRead s.regs.pc (s.portRead .pc) = .error r t) : fetch s = .error r t := by
  simp only [fetch, Micro.bind_apply, Micro.get_apply, Micro.modify_apply, h]

end Machine

open Machine

/-- Settles O5: FETCH by the outcome of its `Memory.read()`; pcAdvance is its five operations, whose effect is the law
`advance_apply`. -/
theorem fetchAndAdvanceMicroSequences : Obligations.FetchAndAdvanceMicroSequences :=
  fun _ => ⟨fun _ _ => fetch_of_memoryRead_ok, fun _ _ _ => fetch_of_memoryRead_error, fun _ => rfl, advance_apply⟩

/-- Settles O14: a flag's bit is the one its number gives, both when read and when set. -/
theorem flagBitAccess : Obligations.FlagBitAccess :=
  fun _ f v => ⟨getFlag_eq_bit f .zero, getFlag_eq_bit f .negative,
    getLsbD_setFlag f .zero v, getLsbD_setFlag f .negative v⟩

/-- Settles O16: each transfer by unfolding, as it is one write of a bus, a register or a slot. -/
theorem portTransfers : Obligations.PortTransfers := fun _ _ =>
  ⟨fun _ => ⟨rfl, rfl⟩, fun _ => ⟨rfl, rfl⟩, rfl, rfl, rfl, rfl, rfl, rfl, rfl, rfl, rfl, rfl⟩

/-- Settles O17: slot 1 is the operation's Word on the two slots, and the operations wrap the signed ones. -/
theorem aluComputesOnSlots : Obligations.AluComputesOnSlots := fun _ s =>
  ⟨s.aluOperate_dp .add, s.aluOperate_dp .sub, s.aluInc_dp, BitVec.toInt_add _ _, BitVec.toInt_sub,
    word_add_one_toInt _, fun _ => ⟨rfl, rfl⟩, rfl, rfl⟩

/-- Settles O18: by the phase, and in the address phase by the bounds check. -/
theorem memoryInterfacePhases : Obligations.MemoryInterfacePhases := fun _ _ a =>
  ⟨memoryStore_address a, memoryStore_address_raises a, memoryStore_data a,
    memoryRead_address a, memoryRead_address_raises a, memoryRead_data_raises a⟩

end Sys2Proof
end

section
/-! What an instruction leaves, said once for each microprogram: the registers and the memory where it returns, and where it
raises. The frames of spec/41_control_unit.md are read off here. -/

namespace Sys2Proof.Machine

variable {p : Params}

/-! ## How a microprogram ends -/

/-- From registers `x` and memory `M`, `m` returns and leaves what `done` says, or raises and leaves what `stopped` says. -/
def Micro.Ends (m : Micro p Unit) (x : RegFile p.wordBits) (M : Memory)
    (done stopped : RegFile p.wordBits → Memory → Prop) : Prop :=
  (∃ x' M', m.Returns x M () x' M' ∧ done x' M') ∨ ∃ r x' M', m.Raises x M r x' M' ∧ stopped x' M'

/-- A raise left every register but pc as it was in `x`, and the memory is `M`, or `N` where the scratch save was made. -/
def MovedPcOnly (x : RegFile p.wordBits) (M N : Memory) (x' : RegFile p.wordBits) (M' : Memory) : Prop :=
  (∃ u, x' = x.set .pc u) ∧ (M' = M ∨ M' = N)

/-- From registers `y`, the register that the operand word `w` names was written, and pc advanced; the memory is `N`. -/
def DestinationWritten (y : RegFile p.wordBits) (w : p.Word) (N : Memory) (x' : RegFile p.wordBits) (M' : Memory) : Prop :=
  M' = N ∧ ∃ (d : RegName) (v : p.Word), w = d.index ∧ x' = y.moveBack d v

/-- The same with the flags set from some result first, as an arithmetic instruction does (41_control_unit R97). -/
def ArithmeticWritten (y : RegFile p.wordBits) (w : p.Word) (N : Memory) (x' : RegFile p.wordBits) (M' : Memory) : Prop :=
  ∃ res, DestinationWritten (y.setFlags res) w N x' M'

/-- From registers `y` and memory `N`, the word at `m` was written, and pc restored from the scratch cell and advanced. -/
def CellWritten (y : RegFile p.wordBits) (m : p.Word) (N : Memory) (x' : RegFile p.wordBits) (M' : Memory) : Prop :=
  ∃ v, M' = N.write m v ∧ x' = y.set .pc (M'.read y.stackTop + 1)

/-- The same with the flags set from some result first. -/
def ArithmeticCellWritten (y : RegFile p.wordBits) (m : p.Word) (N : Memory) (x' : RegFile p.wordBits) (M' : Memory) :
    Prop :=
  ∃ res, CellWritten (y.setFlags res) m N x' M'

/-- The registers `y` are `x` but for Flags. -/
def SameButFlags (x y : RegFile p.wordBits) : Prop := ∀ q, q ≠ .flags → y.get q = x.get q

theorem Micro.Ends.imp_done {m : Micro p Unit} {x : RegFile p.wordBits} {M : Memory}
    {done done' stopped : RegFile p.wordBits → Memory → Prop} (h : m.Ends x M done stopped)
    (weaker : ∀ x' M', done x' M' → done' x' M') : m.Ends x M done' stopped :=
  h.imp_left fun ⟨x', M', returns, left⟩ => ⟨x', M', returns, weaker x' M' left⟩

section Ends
variable {i : Instr} {s t : CoreState p} {done stopped : RegFile p.wordBits → Memory → Prop}

theorem exec_of_ends (h : (microprogram i p s.regs.pc).Ends s.regs s.mem done stopped) (hs : s.Idle)
    (e : exec i ⟨p, s⟩ = .next ⟨p, t⟩) :
    (t.ctrl = .fetch ∧ done t.regs t.mem) ∨ ∃ r, t.ctrl = .fault r ∧ stopped t.regs t.mem := by
  rcases h with ⟨x', M', returns, left⟩ | ⟨r, x', M', raises, left⟩
  · obtain rfl := exec_next_of_returns e hs returns
    exact .inl ⟨rfl, left⟩
  · obtain ⟨hc, rfl, rfl⟩ := exec_next_of_raises e hs raises
    exact .inr ⟨r, hc, left⟩

/-- An instruction that goes on to the next FETCH has completed: a raise would have ended in FAULT (41_control_unit R101). -/
theorem exec_done (h : (microprogram i p s.regs.pc).Ends s.regs s.mem done stopped) (hs : s.Idle)
    (e : exec i ⟨p, s⟩ = .next ⟨p, t⟩) (hc : t.ctrl = .fetch) : done t.regs t.mem := by
  rcases exec_of_ends h hs e with ⟨-, left⟩ | ⟨r, hf, -⟩
  · exact left
  · simp [hc] at hf

end Ends

/-! ## What the registers hold then -/

section Frames
variable {x x' y : RegFile p.wordBits} {w m : p.Word} {M N M' : Memory}

theorem RegFile.get_moveBack {d q : RegName} (v : p.Word) (hpc : q ≠ .pc) (hd : q ≠ d) :
    (y.moveBack d v).get q = y.get q :=
  (RegFile.get_set_of_ne _ hpc _).trans (RegFile.get_set_of_ne _ hd _)

theorem RegFile.moveBack_pc {d : RegName} (v : p.Word) (hd : d ≠ .pc) : (y.moveBack d v).pc = y.pc + 1 :=
  congrArg (· + 1) (RegFile.get_set_of_ne y hd.symm v)

theorem DestinationWritten.get {q : RegName} (h : DestinationWritten y w N x' M') (hpc : q ≠ .pc) (hw : w ≠ q.index) :
    x'.get q = y.get q := by
  obtain ⟨-, d, v, rfl, rfl⟩ := h
  exact RegFile.get_moveBack v hpc fun hq => hw (hq ▸ rfl)

theorem DestinationWritten.pc (h : DestinationWritten y w N x' M') (hw : w ≠ RegName.pc.index) : x'.pc = y.pc + 1 := by
  obtain ⟨-, d, v, rfl, rfl⟩ := h
  exact RegFile.moveBack_pc v fun hd => hw (hd ▸ rfl)

theorem SameButFlags.refl (x : RegFile p.wordBits) : SameButFlags x x := fun _ _ => rfl

theorem sameButFlags_setFlags (x : RegFile p.wordBits) (res : p.Word) : SameButFlags x (x.setFlags res) :=
  fun _ hq => RegFile.get_set_of_ne x hq _

theorem ArithmeticWritten.pc (h : ArithmeticWritten y w N x' M') (hw : w ≠ RegName.pc.index) : x'.pc = y.pc + 1 :=
  let ⟨_, written⟩ := h
  written.pc hw

/-- The flag rule and then a write-back to another register leave bits 31 to 2 (41_control_unit R96, R97). -/
theorem ArithmeticWritten.flags_high (h : ArithmeticWritten y w N x' M') (hw : w ≠ RegName.flags.index) {n : Nat}
    (hn : 2 ≤ n) : x'.flags.getLsbD n = y.flags.getLsbD n := by
  obtain ⟨res, written⟩ := h
  have kept : x'.flags = flagsAfter y.flags res := written.get (q := .flags) (by decide) hw
  rw [kept, flagsAfter_high _ _ hn]

theorem Memory.write_rising (hM : M.Rising) (addr v : p.Word) : (M.write addr v).Rising :=
  Memory.writeCells_rising _ hM _ _

theorem CellWritten.read {cell : p.Word} (h : CellWritten y m N x' M') (hN : N.Rising) (hm : cell ≠ m) :
    M'.read cell = N.read cell := by
  obtain ⟨v, rfl, -⟩ := h
  exact Memory.read_write_of_ne hN hm

/-- A store that misses the scratch cell restores pc from what the scratch save put there. -/
theorem CellWritten.pc (h : CellWritten y m N x' M') (hN : N.Rising) (hm : m ≠ y.stackTop) :
    x'.pc = N.read y.stackTop + 1 := by
  have kept := h.read hN hm.symm
  obtain ⟨v, -, rfl⟩ := h
  rw [RegFile.set_pc_pc, kept]

theorem CellWritten.get {q : RegName} (h : CellWritten y m N x' M') (hpc : q ≠ .pc) : x'.get q = y.get q := by
  obtain ⟨v, -, rfl⟩ := h
  exact RegFile.get_set_of_ne y hpc _

theorem ArithmeticCellWritten.flags_high (h : ArithmeticCellWritten y m N x' M') {n : Nat} (hn : 2 ≤ n) :
    x'.flags.getLsbD n = y.flags.getLsbD n := by
  obtain ⟨res, written⟩ := h
  have kept : x'.flags = flagsAfter y.flags res := written.get (q := .flags) (by decide)
  rw [kept, flagsAfter_high _ _ hn]

theorem MovedPcOnly.get {q : RegName} (h : MovedPcOnly x M N x' M') (hpc : q ≠ .pc) : x'.get q = x.get q := by
  obtain ⟨⟨u, rfl⟩, -⟩ := h
  exact RegFile.get_set_of_ne x hpc u

/-- Where the memory changed at all before a raise, it was by the scratch save (41_control_unit R98). -/
theorem MovedPcOnly.read_save {c v cell : p.Word} (h : MovedPcOnly x M (M.write c v) x' M') (hM : M.Rising)
    (hc : cell ≠ c) : M'.read cell = M.read cell := by
  rcases h.2 with rfl | rfl
  · rfl
  · exact Memory.read_write_of_ne hM hc

end Frames

/-! ## Microprograms -/

section Microprograms
variable (op : AluOp) (a : p.Word) (x : RegFile p.wordBits) (M : Memory)

theorem arithmeticRegReg_ends : (arithmeticRegReg op a).Ends x M
    (ArithmeticWritten (x.set .pc (x.pc + 2)) (M.read (x.pc + 2)) M) (MovedPcOnly x M M) := by
  rcases twoRegisters_cases a x M with ⟨s, d, h₁, hs, h₂, hd⟩ | ⟨r, u, raises⟩
  · exact .inl ⟨_, _, arithmeticRegReg_returns op a h₁ hs h₂ hd, _, rfl, d, _, hd, rfl⟩
  · exact .inr ⟨r, _, _, raises _, ⟨u, rfl⟩, .inl rfl⟩

theorem arithmeticImmReg_ends : (arithmeticImmReg op a).Ends x M
    (ArithmeticWritten (x.set .pc (x.pc + 2)) (M.read (x.pc + 2)) M) (MovedPcOnly x M M) := by
  rcases plainAndRegister_cases a x M with ⟨d, h₁, h₂, hd⟩ | ⟨r, u, raises⟩
  · exact .inl ⟨_, _, arithmeticImmReg_returns op a h₁ h₂ hd, _, rfl, d, _, hd, rfl⟩
  · exact .inr ⟨r, _, _, raises _, ⟨u, rfl⟩, .inl rfl⟩

theorem moveRegisterToRegister_ends : (moveRegisterToRegister a).Ends x M
    (DestinationWritten (x.set .pc (x.pc + 2)) (M.read (x.pc + 2)) M) (MovedPcOnly x M M) := by
  rcases twoRegisters_cases a x M with ⟨s, d, h₁, hs, h₂, hd⟩ | ⟨r, u, raises⟩
  · exact .inl ⟨_, _, moveRegisterToRegister_returns a h₁ hs h₂ hd, rfl, d, _, hd, rfl⟩
  · exact .inr ⟨r, _, _, raises _, ⟨u, rfl⟩, .inl rfl⟩

theorem moveImmediateToRegister_ends : (moveImmediateToRegister a).Ends x M
    (DestinationWritten (x.set .pc (x.pc + 2)) (M.read (x.pc + 2)) M) (MovedPcOnly x M M) := by
  rcases plainAndRegister_cases a x M with ⟨d, h₁, h₂, hd⟩ | ⟨r, u, raises⟩
  · exact .inl ⟨_, _, moveImmediateToRegister_returns a h₁ h₂ hd, rfl, d, _, hd, rfl⟩
  · exact .inr ⟨r, _, _, raises _, ⟨u, rfl⟩, .inl rfl⟩

theorem incRegister_ends : (incRegister a).Ends x M
    (ArithmeticWritten (x.set .pc (x.pc + 1)) (M.read (x.pc + 1)) M) (MovedPcOnly x M M) := by
  rcases oneRegister_cases a x M with ⟨d, h, hd⟩ | ⟨r, u, raises⟩
  · exact .inl ⟨_, _, incRegister_returns a h hd, _, rfl, d, _, hd, rfl⟩
  · exact .inr ⟨r, _, _, raises _, ⟨u, rfl⟩, .inl rfl⟩

theorem compareJump_ends (taken : p.Word → Bool) : (compareJump taken a).Ends x M
    (fun x' M' => M' = M ∧ ∃ res u, x' = (x.setFlags res).set .pc u) (MovedPcOnly x M M) := by
  rcases compareOperands_cases a x M with ⟨rA, rB, h₁, hA, h₂, hB, h₃⟩ | ⟨r, u, raises⟩
  · exact .inl ⟨_, _, compareJump_returns taken a h₁ hA h₂ hB h₃, rfl, _, _, rfl⟩
  · exact .inr ⟨r, _, _, raises _, ⟨u, rfl⟩, .inl rfl⟩

variable {M}

theorem arithmeticMemReg_ends (hM : M.wf p = true) : (arithmeticMemReg op a).Ends x M
    (ArithmeticWritten (x.set .pc (x.pc + 2))
      ((M.write x.stackTop (x.pc + 1)).read (x.pc + 2)) (M.write x.stackTop (x.pc + 1)))
    (MovedPcOnly x M (M.write x.stackTop (x.pc + 1))) := by
  rcases memorySource_cases a hM x with ⟨d, -, -, -, -, hd, source⟩ | ⟨r, u, M', raises, saved⟩
  · exact .inl ⟨_, _, arithmeticMemReg_returns op a source, _, rfl, d, _, hd, rfl⟩
  · exact .inr ⟨r, _, M', Micro.Raises.left raises, ⟨u, rfl⟩, saved.imp_left And.right⟩

theorem moveMemoryToRegister_ends (hM : M.wf p = true) : (moveMemoryToRegister a).Ends x M
    (DestinationWritten (x.set .pc (x.pc + 2))
      ((M.write x.stackTop (x.pc + 1)).read (x.pc + 2)) (M.write x.stackTop (x.pc + 1)))
    (MovedPcOnly x M (M.write x.stackTop (x.pc + 1))) := by
  rcases memorySource_cases a hM x with ⟨d, -, -, -, -, hd, source⟩ | ⟨r, u, M', raises, saved⟩
  · exact .inl ⟨_, _, moveMemoryToRegister_returns a source, rfl, d, _, hd, rfl⟩
  · exact .inr ⟨r, _, M', Micro.Raises.left raises, ⟨u, rfl⟩, saved.imp_left And.right⟩

variable (M)

theorem writeAtPc_raises (v : p.Word) (h : inMemory x.pc = false) :
    (writeAtPc a v).Raises x M ⟨.outOfBoundsAddress, x.pc, a⟩ x M :=
  Micro.Raises.right (readPort_returns .pc x M) (memWrite_raises a h v x M)

/-- The arithmetic store reads the cell first, so an address outside memory raises before the flags are set. -/
theorem arithmeticRegMem_ends : (arithmeticRegMem op a).Ends x M
    (ArithmeticCellWritten x ((M.write x.stackTop (x.pc + 2)).read (x.pc + 2)) (M.write x.stackTop (x.pc + 2)))
    (MovedPcOnly x M (M.write x.stackTop (x.pc + 2))) := by
  rcases registerSourceToMemory_cases a x M with ⟨src, -, -, hS, -, source⟩ | ⟨r, u, M', raises, saved⟩
  · cases hm : inMemory ((M.write x.stackTop (x.pc + 2)).read (x.pc + 2)) with
    | true => exact .inl ⟨_, _, arithmeticRegMem_returns op a source hS hm, _, _, rfl, rfl⟩
    | false =>
      exact .inr ⟨_, _, _, Micro.Raises.right source (Micro.Raises.left
        (operandWord_raises a (x := x.set .pc _) hm _)), ⟨_, rfl⟩, .inr rfl⟩
  · exact .inr ⟨r, _, M', Micro.Raises.left raises, ⟨u, rfl⟩, saved.imp_left And.right⟩

theorem moveRegisterToMemory_ends : (moveRegisterToMemory a).Ends x M
    (CellWritten x ((M.write x.stackTop (x.pc + 2)).read (x.pc + 2)) (M.write x.stackTop (x.pc + 2)))
    (MovedPcOnly x M (M.write x.stackTop (x.pc + 2))) := by
  rcases registerSourceToMemory_cases a x M with ⟨src, -, -, hS, -, source⟩ | ⟨r, u, M', raises, saved⟩
  · cases hm : inMemory ((M.write x.stackTop (x.pc + 2)).read (x.pc + 2)) with
    | true => exact .inl ⟨_, _, moveRegisterToMemory_returns a source hS hm, _, rfl, rfl⟩
    | false =>
      exact .inr ⟨_, _, _, Micro.Raises.right source (Micro.Raises.left
        (writeAtPc_raises a (x.set .pc _) _ _ hm)), ⟨_, rfl⟩, .inr rfl⟩
  · exact .inr ⟨r, _, M', Micro.Raises.left raises, ⟨u, rfl⟩, saved.imp_left And.right⟩

end Microprograms

/-! ## Instructions of one form -/

section Forms
variable {i : Instr} (a : p.Word) (x : RegFile p.wordBits) (M : Memory)

theorem arithmeticToRegister_ends (hi : i ∈ [.addRegReg, .addImmReg, .subRegReg, .subImmReg]) :
    (microprogram i p a).Ends x M
      (ArithmeticWritten (x.set .pc (x.pc + 2)) (M.read (x.pc + 2)) M) (MovedPcOnly x M M) := by
  simp only [List.mem_cons, List.not_mem_nil, or_false] at hi
  rcases hi with rfl | rfl | rfl | rfl
  · exact arithmeticRegReg_ends .add a x M
  · exact arithmeticImmReg_ends .add a x M
  · exact arithmeticRegReg_ends .sub a x M
  · exact arithmeticImmReg_ends .sub a x M

theorem moveToRegister_ends (hi : i ∈ [.moveRegReg, .moveImmReg]) :
    (microprogram i p a).Ends x M
      (DestinationWritten (x.set .pc (x.pc + 2)) (M.read (x.pc + 2)) M) (MovedPcOnly x M M) := by
  simp only [List.mem_cons, List.not_mem_nil, or_false] at hi
  rcases hi with rfl | rfl
  · exact moveRegisterToRegister_ends a x M
  · exact moveImmediateToRegister_ends a x M

variable {M} in
theorem arithmeticLoad_ends (hi : i ∈ [.addMemReg, .subMemReg]) (hM : M.wf p = true) :
    (microprogram i p a).Ends x M
      (ArithmeticWritten (x.set .pc (x.pc + 2))
        ((M.write x.stackTop (x.pc + 1)).read (x.pc + 2)) (M.write x.stackTop (x.pc + 1)))
      (MovedPcOnly x M (M.write x.stackTop (x.pc + 1))) := by
  simp only [List.mem_cons, List.not_mem_nil, or_false] at hi
  rcases hi with rfl | rfl
  · exact arithmeticMemReg_ends .add a x hM
  · exact arithmeticMemReg_ends .sub a x hM

theorem arithmeticStore_ends (hi : i ∈ [.addRegMem, .subRegMem]) :
    (microprogram i p a).Ends x M
      (ArithmeticCellWritten x ((M.write x.stackTop (x.pc + 2)).read (x.pc + 2)) (M.write x.stackTop (x.pc + 2)))
      (MovedPcOnly x M (M.write x.stackTop (x.pc + 2))) := by
  simp only [List.mem_cons, List.not_mem_nil, or_false] at hi
  rcases hi with rfl | rfl
  · exact arithmeticRegMem_ends .add a x M
  · exact arithmeticRegMem_ends .sub a x M

theorem compareForm_ends (hi : i ∈ [.jeq, .jneq, .jgt, .jlw]) :
    (microprogram i p a).Ends x M
      (fun x' M' => M' = M ∧ ∃ res u, x' = (x.setFlags res).set .pc u) (MovedPcOnly x M M) := by
  simp only [List.mem_cons, List.not_mem_nil, or_false] at hi
  rcases hi with rfl | rfl | rfl | rfl <;> exact compareJump_ends a x M _

/-- Every register and immediate form with a destination at `a + 2` (42_add_sub, 43_move). -/
theorem toRegister_ends (hi : i ∈ [.addRegReg, .addImmReg, .subRegReg, .subImmReg, .moveRegReg, .moveImmReg]) :
    (microprogram i p a).Ends x M
      (fun x' M' => ∃ y, SameButFlags (x.set .pc (x.pc + 2)) y ∧ DestinationWritten y (M.read (x.pc + 2)) M x' M')
      (MovedPcOnly x M M) := by
  rcases List.mem_append (α := Instr) (s := [.addRegReg, .addImmReg, .subRegReg, .subImmReg]).1 hi with arithmetic | move
  · exact (arithmeticToRegister_ends a x M arithmetic).imp_done fun _ _ ⟨res, h⟩ => ⟨_, sameButFlags_setFlags _ res, h⟩
  · exact (moveToRegister_ends a x M move).imp_done fun _ _ h => ⟨_, .refl _, h⟩

variable {M} in
/-- Every load (42_add_sub R106, R110; 43_move R114). -/
theorem load_ends (hi : i ∈ [.addMemReg, .subMemReg, .moveMemReg]) (hM : M.wf p = true) :
    (microprogram i p a).Ends x M
      (fun x' M' => ∃ y, SameButFlags (x.set .pc (x.pc + 2)) y ∧ DestinationWritten y
        ((M.write x.stackTop (x.pc + 1)).read (x.pc + 2)) (M.write x.stackTop (x.pc + 1)) x' M')
      (MovedPcOnly x M (M.write x.stackTop (x.pc + 1))) := by
  rcases List.mem_append (α := Instr) (s := [.addMemReg, .subMemReg]).1 hi with arithmetic | move
  · exact (arithmeticLoad_ends a x arithmetic hM).imp_done fun _ _ ⟨res, h⟩ => ⟨_, sameButFlags_setFlags _ res, h⟩
  · obtain rfl := List.mem_singleton.1 move
    exact (moveMemoryToRegister_ends a x hM).imp_done fun _ _ h => ⟨_, .refl _, h⟩

/-- Every store (42_add_sub R107, R111; 43_move R115). -/
theorem store_ends (hi : i ∈ [.addRegMem, .subRegMem, .moveRegMem]) :
    (microprogram i p a).Ends x M
      (fun x' M' => ∃ y, SameButFlags x y ∧ CellWritten y
        ((M.write x.stackTop (x.pc + 2)).read (x.pc + 2)) (M.write x.stackTop (x.pc + 2)) x' M')
      (MovedPcOnly x M (M.write x.stackTop (x.pc + 2))) := by
  rcases List.mem_append (α := Instr) (s := [.addRegMem, .subRegMem]).1 hi with arithmetic | move
  · exact (arithmeticStore_ends a x M arithmetic).imp_done fun _ _ ⟨res, h⟩ => ⟨_, sameButFlags_setFlags x res, h⟩
  · obtain rfl := List.mem_singleton.1 move
    exact (moveRegisterToMemory_ends a x M).imp_done fun _ _ h => ⟨x, .refl x, h⟩

end Forms

end Sys2Proof.Machine
end

section
/-! The control unit (spec/41_control_unit.md): FETCH and DECODE, SetFlags, the register operand, and what the instructions
that complete leave of Flags, pc and memory. -/

namespace Sys2Proof

namespace Machine

variable {p : Params}

/-! ## SetFlags and the register operand -/

theorem word_slt_zero_iff {v : p.Word} : v.slt 0 = true ↔ v.toInt < 0 := by
  have zero : (0 : p.Word).toInt = 0 := BitVec.toInt_zero
  rw [BitVec.slt_iff_toInt_lt, zero]

/-- The words that name a register are those in `[0, 9)` as signed numbers (10_state R17, 41_control_unit R95). -/
theorem RegName.ofIndex_eq_none_iff_toInt {w : p.Word} :
    RegName.ofIndex w = none ↔ ¬ (0 ≤ w.toInt ∧ w.toInt < 9) := by
  have signed := BitVec.toInt_eq_toNat_cond w
  have range := w.isLt
  have half := p.two_pow
  have nine : 9 < 2 ^ (p.wordBits - 1) := p.lt_half (by decide)
  rw [RegName.ofIndex_eq_none, Config.numRegs]
  split at signed <;> omega

/-! ## What completing leaves, and what memory mode keeps -/

section Completion
variable {i : Instr} {s t : CoreState p}

/-- A load ends with pc where its scratch save put it, past the register operand (41_control_unit R94, R98). -/
theorem load_pc (hi : i ∈ [.addMemReg, .subMemReg, .moveMemReg]) (hs : s.Idle) (hM : s.mem.wf p = true)
    (e : exec i ⟨p, s⟩ = .next ⟨p, t⟩) (hc : t.ctrl = .fetch) (aliasing : s.regs.stackTop ≠ s.regs.pc + 2)
    (hd : s.mem.read (s.regs.pc + 2) ≠ RegName.pc.index) : t.regs.pc = s.regs.pc + 3 := by
  obtain ⟨y, same, written⟩ := exec_done (load_ends _ _ hi hM) hs e hc
  rw [Memory.read_write_of_ne (Memory.rising_of_wf hM) aliasing.symm] at written
  have hy : y.pc = s.regs.pc + 2 := same .pc (by decide)
  rw [written.pc hd, hy, word_add_two_one]

/-- A store whose address word and whose address miss the scratch cell ends past its address word (41_control_unit R94). -/
theorem store_pc (hi : i ∈ [.addRegMem, .subRegMem, .moveRegMem]) (hs : s.Idle) (hM : s.mem.wf p = true)
    (e : exec i ⟨p, s⟩ = .next ⟨p, t⟩) (hc : t.ctrl = .fetch) (aliasing : s.regs.stackTop ≠ s.regs.pc + 2)
    (ha : s.mem.read (s.regs.pc + 2) ≠ s.regs.stackTop) : t.regs.pc = s.regs.pc + 3 := by
  have rising := Memory.rising_of_wf hM
  obtain ⟨y, same, written⟩ := exec_done (store_ends _ _ _ hi) hs e hc
  rw [Memory.read_write_of_ne rising aliasing.symm] at written
  have hy : y.stackTop = s.regs.stackTop := same .stackTop (by decide)
  rw [written.pc (Memory.write_rising rising _ _) (hy ▸ ha), hy, Memory.read_write_same rising, word_add_two_one]

/-- What a load keeps, whether it completes or faults (41_control_unit R98; 46_call_ret R130). -/
theorem load_keeps (hi : i ∈ [.addMemReg, .subMemReg, .moveMemReg]) (hs : s.Idle) (hM : s.mem.wf p = true)
    (e : exec i ⟨p, s⟩ = .next ⟨p, t⟩) {cell : p.Word} (hcell : cell ≠ s.regs.stackTop) :
    t.mem.read cell = s.mem.read cell ∧
      ((s.mem.write s.regs.stackTop (s.regs.pc + 1)).read (s.regs.pc + 2) ≠ RegName.stackTop.index →
        t.regs.stackTop = s.regs.stackTop) := by
  have rising := Memory.rising_of_wf hM
  rcases exec_of_ends (load_ends _ _ hi hM) hs e with ⟨-, y, same, written⟩ | ⟨r, -, stopped⟩
  · refine ⟨?_, fun hd => ?_⟩
    · rw [written.1, Memory.read_write_of_ne rising hcell]
    · exact (written.get (q := .stackTop) (by decide) hd).trans (same .stackTop (by decide))
  · exact ⟨stopped.read_save rising hcell, fun _ => stopped.get (q := .stackTop) (by decide)⟩

/-- What a store keeps, whether it completes or faults (41_control_unit R98; 46_call_ret R130). -/
theorem store_keeps (hi : i ∈ [.addRegMem, .subRegMem, .moveRegMem]) (hs : s.Idle) (hM : s.mem.wf p = true)
    (e : exec i ⟨p, s⟩ = .next ⟨p, t⟩) {cell : p.Word} (hcell : cell ≠ s.regs.stackTop) :
    (cell ≠ (s.mem.write s.regs.stackTop (s.regs.pc + 2)).read (s.regs.pc + 2) → t.mem.read cell = s.mem.read cell) ∧
      t.regs.stackTop = s.regs.stackTop := by
  have rising := Memory.rising_of_wf hM
  rcases exec_of_ends (store_ends _ _ _ hi) hs e with ⟨-, y, same, written⟩ | ⟨r, -, stopped⟩
  · refine ⟨fun hm => ?_, ?_⟩
    · rw [written.read (Memory.write_rising rising _ _) hm, Memory.read_write_of_ne rising hcell]
    · exact (written.get (q := .stackTop) (by decide)).trans (same .stackTop (by decide))
  · exact ⟨fun _ => stopped.read_save rising hcell, stopped.get (q := .stackTop) (by decide)⟩

/-- The forms that set flags and have no register destination (41_control_unit R96). -/
theorem noDestination_flags_high (hi : i ∈ [.addRegMem, .subRegMem, .jeq, .jneq, .jgt, .jlw]) (hs : s.Idle)
    (e : exec i ⟨p, s⟩ = .next ⟨p, t⟩) (hc : t.ctrl = .fetch) {n : Nat} (hn : 2 ≤ n) :
    t.regs.flags.getLsbD n = s.regs.flags.getLsbD n := by
  rcases List.mem_append (α := Instr) (s := [.addRegMem, .subRegMem]).1 hi with store | compare
  · exact (exec_done (arithmeticStore_ends _ _ _ store) hs e hc).flags_high hn
  · obtain ⟨-, res, u, left⟩ := exec_done (compareForm_ends _ _ _ compare) hs e hc
    rw [left, RegFile.set_pc_flags, RegFile.setFlags_flags, flagsAfter_high _ _ hn]

end Completion

end Machine

open Machine

/-- Settles O41: an arithmetic destination other than Flags leaves what the flag rule made of it, a move's the word itself. -/
theorem flagsFrame : Obligations.FlagsFrame := by
  intro p s t hs hM hc
  refine ⟨fun i hi e hd n hn => ?arithmetic, fun i hi e hd n hn => ?load, fun e hd n hn => ?inc,
    fun i hi e n hn => noDestination_flags_high hi hs e hc hn, fun i hi e hd => ?move, fun e hd => ?moveLoad⟩
  case arithmetic => exact (exec_done (arithmeticToRegister_ends _ _ _ hi) hs e hc).flags_high hd hn
  case load => exact (exec_done (arithmeticLoad_ends _ _ hi hM) hs e hc).flags_high hd hn
  case inc => exact (exec_done (i := .inc) (incRegister_ends _ _ _) hs e hc).flags_high hd hn
  case move => exact (exec_done (moveToRegister_ends _ _ _ hi) hs e hc).get (q := .flags) (by decide) hd
  case moveLoad =>
    exact (exec_done (i := .moveMemReg) (moveMemoryToRegister_ends _ _ hM) hs e hc).get (q := .flags) (by decide) hd

/-- Settles O42: pc is past the operands when the destination is written, and the memory forms get it back from the scratch
cell. -/
theorem sequentialNextPc : Obligations.SequentialNextPc := by
  intro p s t hs hM hc
  refine ⟨fun i hi e hd => ?toRegister, fun i hi e _ aliasing hd => load_pc hi hs hM e hc aliasing hd,
    fun i hi e aliasing ha => store_pc hi hs hM e hc aliasing ha, fun e hd => ?inc⟩
  case toRegister =>
    obtain ⟨y, same, written⟩ := exec_done (toRegister_ends _ _ _ hi) hs e hc
    have hy : y.pc = s.regs.pc + 2 := same .pc (by decide)
    rw [written.pc hd, hy, word_add_two_one]
  case inc => rw [(exec_done (i := .inc) (incRegister_ends _ _ _) hs e hc).pc hd, RegFile.set_pc_pc, word_add_one_one]

/-- Settles O60: a load or a store that stops has made at most its scratch save, and one that completes wrote nothing but
that and its destination. -/
theorem memoryModeKeepsOtherCells : Obligations.MemoryModeKeepsOtherCells :=
  fun _ _ _ _ _ hs hM e hcell => ⟨fun hi => load_keeps hi hs hM e hcell, fun hi => store_keeps hi hs hM e hcell⟩

/-- Settles O9: such a FETCH raises before it reads, and the entry into FAULT keeps the registers and the memory. -/
theorem fetchOutsideMemoryFaults : Obligations.FetchOutsideMemoryFaults :=
  fun _ _ hs hc outside => ⟨_, step_fetch_raises hc hs (CoreState.peek_eq_none.1 outside), rfl, rfl, rfl⟩

/-- Settles O15: each bit by the flag rule; both are never set, as zero is not negative. -/
theorem setFlagsFromResult : Obligations.SetFlagsFromResult := by
  intro p x v
  rw [RegFile.setFlags_flags, getFlag_flagsAfter_zero, getFlag_flagsAfter_negative, decide_eq_true_iff, word_slt_zero_iff]
  refine ⟨Iff.rfl, Iff.rfl, ?exclusive, fun n hn => flagsAfter_high _ _ hn, sameButFlags_setFlags x v⟩
  case exclusive =>
    rintro ⟨rfl, negative⟩
    have zero : (0 : p.Word).toInt = 0 := BitVec.toInt_zero
    omega

/-- Settles O21: the check passes the words that name a register, which are those in `[0, 9)`. -/
theorem registerOperandIsChecked : Obligations.RegisterOperandIsChecked := by
  intro p s a w hs hw
  obtain ⟨hpc, rfl⟩ := CoreState.peek_eq_some.1 hw
  cases named : RegName.ofIndex (s.mem.read s.regs.pc) with
  | none =>
    have outside := RegName.ofIndex_eq_none_iff_toInt.1 named
    exact ⟨fun inside => absurd inside outside, fun _ => (registerOperand_raises_index a hpc named).run hs⟩
  | some r =>
    refine ⟨fun _ => ?register, fun outside => ?impossible⟩
    case register =>
      have hr := RegName.ofIndex_eq_some.1 named
      obtain ⟨t, e, regs, mem, -⟩ := (registerOperand_returns a hpc hr).run hs
      exact ⟨t, hr ▸ e, regs, mem, r, hr⟩
    case impossible => simp [RegName.ofIndex_eq_none_iff_toInt.2 outside] at named

/-- Settles O6: FETCH on either side of the bounds check. -/
theorem fetchReadsOpcodeIntoIr : Obligations.FetchReadsOpcodeIntoIr :=
  fun _ _ hs => ⟨fun hpc => ⟨_, fetch_ok hs hpc, rfl, rfl, rfl, rfl⟩, fun hpc => ⟨_, fetch_raises hs hpc, rfl, rfl⟩⟩

/-- Settles O7: after a FETCH that reads, DECODE takes the word from IR. -/
theorem stepRunsDecodedInstruction : Obligations.StepRunsDecodedInstruction := by
  intro p s x i hs hc hx selected
  obtain ⟨hpc, rfl⟩ := CoreState.peek_eq_some.1 hx
  rw [step_fetch_ok hc hs hpc]
  simp only [decodeAndExecute, RegFile.set_ir_ir, selected]
  rfl

/-- Settles O10, by the control state. -/
theorem terminalStatesTakeNoStep : Obligations.TerminalStatesTakeNoStep := by
  refine fun p s => ⟨fun hc => ?halt, fun r hc => ?fault⟩
  case halt => simp only [step, hc]
  case fault => simp only [step, hc]

end Sys2Proof
end

section
/-! The raises of the add, sub and move forms (spec/42_add_sub.md, spec/43_move.md): the record and the state that each check
leaves when it is the first to fail (spec/60_exceptions.md R133 to R135). -/

namespace Sys2Proof.Machine

variable {p : Params} {a : p.Word} {x x' : RegFile p.wordBits} {M M' : Memory} {r : FaultRecord p.wordBits}

/-! ## One operand word -/

section OperandAt
variable {s : CoreState p} {addr v : p.Word}

theorem plainOperand_returns_of_peek (h : s.peek addr = some v) :
    (plainOperand a).Returns (s.regs.set .pc addr) s.mem v (s.regs.set .pc addr) s.mem := by
  obtain ⟨inside, rfl⟩ := CoreState.peek_eq_some.1 h
  exact operandWord_returns a (x := s.regs.set .pc addr) inside s.mem

theorem plainOperand_raises_of_peek (h : s.peek addr = none) : (plainOperand a).Raises (s.regs.set .pc addr) s.mem
    ⟨.outOfBoundsAddress, addr, a⟩ (s.regs.set .pc addr) s.mem :=
  operandWord_raises a (x := s.regs.set .pc addr) (CoreState.peek_eq_none.1 h) s.mem

theorem registerOperand_returns_of_peek {q : RegName} (h : s.peek addr = some q.index) :
    (registerOperand a).Returns (s.regs.set .pc addr) s.mem q.index (s.regs.set .pc addr) s.mem :=
  let ⟨inside, hq⟩ := CoreState.peek_eq_some.1 h
  registerOperand_returns a (x := s.regs.set .pc addr) inside hq

theorem registerOperand_raises_of_peek (h : s.peek addr = none) : (registerOperand a).Raises (s.regs.set .pc addr) s.mem
    ⟨.outOfBoundsAddress, addr, a⟩ (s.regs.set .pc addr) s.mem :=
  registerOperand_raises_oob a (x := s.regs.set .pc addr) (CoreState.peek_eq_none.1 h) s.mem

theorem registerOperand_raises_of_ofIndex (h : s.peek addr = some v) (bad : RegName.ofIndex v = none) :
    (registerOperand a).Raises (s.regs.set .pc addr) s.mem
      ⟨.invalidRegisterIndex, v, a⟩ (s.regs.set .pc addr) s.mem := by
  obtain ⟨inside, rfl⟩ := CoreState.peek_eq_some.1 h
  exact registerOperand_raises_index a (x := s.regs.set .pc addr) inside bad

end OperandAt

/-! ## Two operand words -/

/-- The start of the register and immediate forms: each operand word after an advance, then `rest`. -/
def twoOperands (first second : Micro p p.Word) (rest : p.Word → p.Word → Micro p Unit) : Micro p Unit := do
  advance
  let v ← first
  advance
  let w ← second
  rest v w

section TwoOperands
variable {first second : Micro p p.Word} {rest : p.Word → p.Word → Micro p Unit} {v : p.Word}

theorem twoOperands_raises_first (h : first.Raises (x.set .pc (x.pc + 1)) M r x' M') :
    (twoOperands first second rest).Raises x M r x' M' :=
  .right (advance_returns x M) (.left h)

theorem twoOperands_raises_second
    (returns : first.Returns (x.set .pc (x.pc + 1)) M v (x.set .pc (x.pc + 1)) M)
    (h : second.Raises (x.set .pc (x.pc + 2)) M r x' M') : (twoOperands first second rest).Raises x M r x' M' :=
  .right (advance_returns x M) (.right returns (.right (advance_returns_two x M) (.left h)))

end TwoOperands

/-! ## The memory operand -/

theorem enterMemoryOperand_raises_save (h : inMemory x.stackTop = false) :
    (enterMemoryOperand a).Raises x M ⟨.outOfBoundsAddress, x.stackTop, a⟩ x M :=
  .left (save_raises a h M)

/-- The scratch save comes before the address word is read, and stays where that read raises (60_exceptions R134). -/
theorem enterMemoryOperand_raises_word (hcell : inMemory x.stackTop = true) (h : inMemory x.pc = false) :
    (enterMemoryOperand a).Raises x M ⟨.outOfBoundsAddress, x.pc, a⟩ x (M.write x.stackTop x.pc) :=
  .right (save_returns a hcell M) (.left (operandWord_raises a h _))

theorem memorySource_raises_enter (h : (enterMemoryOperand a).Raises (x.set .pc (x.pc + 1)) M r x' M') :
    (memorySource a).Raises x M r x' M' :=
  .right (advance_returns x M) (.left h)

section MemorySource
variable (hcell : inMemory x.stackTop = true) (h₁ : inMemory (x.pc + 1) = true)
include hcell h₁

/-- pc holds the data address when the data read raises. -/
theorem memorySource_raises_data (h : inMemory ((M.write x.stackTop (x.pc + 1)).read (x.pc + 1)) = false) :
    (memorySource a).Raises x M ⟨.outOfBoundsAddress, (M.write x.stackTop (x.pc + 1)).read (x.pc + 1), a⟩
      (x.set .pc ((M.write x.stackTop (x.pc + 1)).read (x.pc + 1))) (M.write x.stackTop (x.pc + 1)) :=
  .right (advance_returns x M) (.right (enterMemoryOperand_returns a (x := x.set .pc (x.pc + 1)) hcell h₁ M)
    (.left (operandWord_raises a (x := x.set .pc _) h _)))

/-- The register operand is read with pc back in the instruction stream: the restore finds what the save stored. -/
theorem memorySource_raises_register (hM : M.wf p = true)
    (hm : inMemory ((M.write x.stackTop (x.pc + 1)).read (x.pc + 1)) = true)
    (h : (registerOperand a).Raises (x.set .pc (x.pc + 2)) (M.write x.stackTop (x.pc + 1)) r x' M') :
    (memorySource a).Raises x M r x' M' := by
  have restored := restore_returns a (x := x.set .pc ((M.write x.stackTop (x.pc + 1)).read (x.pc + 1))) hcell
    (M.write x.stackTop (x.pc + 1))
  rw [RegFile.set_pc_stackTop, RegFile.set_set_same, Memory.read_write_same (Memory.rising_of_wf hM)] at restored
  exact .right (advance_returns x M) (.right (enterMemoryOperand_returns a (x := x.set .pc (x.pc + 1)) hcell h₁ M)
    (.right (operandWord_returns a (x := x.set .pc _) hm _) (.right restored (.right (advance_returns_two x _) (.left h)))))

end MemorySource

theorem registerSourceToMemory_raises_register (h : (registerOperand a).Raises (x.set .pc (x.pc + 1)) M r x' M') :
    (registerSourceToMemory a).Raises x M r x' M' :=
  .right (advance_returns x M) (.left h)

theorem registerSourceToMemory_raises_enter {src : RegName} (h₁ : inMemory (x.pc + 1) = true)
    (hsrc : M.read (x.pc + 1) = src.index) (h : (enterMemoryOperand a).Raises (x.set .pc (x.pc + 2)) M r x' M') :
    (registerSourceToMemory a).Raises x M r x' M' :=
  .right (advance_returns x M) (.right (registerOperand_returns a (x := x.set .pc (x.pc + 1)) h₁ hsrc)
    (.right (advance_returns_two x M) (.right (readReg_returns a src _ M) (.left h))))

/-! ## Instructions of one form -/

section Forms
variable {i : Instr}

theorem registerForm_start (hi : i ∈ [.addRegReg, .subRegReg, .moveRegReg]) (a : p.Word) :
    ∃ rest, microprogram i p a = twoOperands (registerOperand a) (registerOperand a) rest := by
  simp only [List.mem_cons, List.not_mem_nil, or_false] at hi
  rcases hi with rfl | rfl | rfl <;> exact ⟨_, rfl⟩

theorem immediateForm_start (hi : i ∈ [.addImmReg, .subImmReg, .moveImmReg]) (a : p.Word) :
    ∃ rest, microprogram i p a = twoOperands (plainOperand a) (registerOperand a) rest := by
  simp only [List.mem_cons, List.not_mem_nil, or_false] at hi
  rcases hi with rfl | rfl | rfl <;> exact ⟨_, rfl⟩

theorem load_start (hi : i ∈ [.addMemReg, .subMemReg, .moveMemReg]) (a : p.Word) :
    ∃ rest, microprogram i p a = memorySource a >>= rest := by
  simp only [List.mem_cons, List.not_mem_nil, or_false] at hi
  rcases hi with rfl | rfl | rfl <;> exact ⟨_, rfl⟩

theorem store_start (hi : i ∈ [.addRegMem, .subRegMem, .moveRegMem]) (a : p.Word) :
    ∃ rest, microprogram i p a = registerSourceToMemory a >>= rest := by
  simp only [List.mem_cons, List.not_mem_nil, or_false] at hi
  rcases hi with rfl | rfl | rfl <;> exact ⟨_, rfl⟩

/-- Whether it reads the cell first or stores to it at once, a store whose address lies outside memory raises there. -/
theorem store_raises_data (hi : i ∈ [.addRegMem, .subRegMem, .moveRegMem]) {u m : p.Word}
    (source : (registerSourceToMemory a).Returns x M u (x.set .pc m) M') (hm : inMemory m = false) :
    (microprogram i p a).Raises x M ⟨.outOfBoundsAddress, m, a⟩ (x.set .pc m) M' := by
  have read := operandWord_raises a (x := x.set .pc m) hm M'
  simp only [List.mem_cons, List.not_mem_nil, or_false] at hi
  rcases hi with rfl | rfl | rfl
  · exact .right source (.left read)
  · exact .right source (.left read)
  · exact .right source (.left (writeAtPc_raises a (x.set .pc m) M' u hm))

end Forms

/-! ## EXECUTE, where the form's start raises -/

section Execute
variable {i : Instr} {s : CoreState p} {u : p.Word} {first second : Micro p p.Word}

theorem exec_faultsWith (hs : s.Idle) (h : (microprogram i p s.regs.pc).Raises s.regs s.mem r (s.regs.set .pc u) M') :
    exec i ⟨p, s⟩ = .next ⟨p, s.faultsWith r u M'⟩ :=
  exec_of_raises hs h

theorem twoOperands_faults_first (start : ∃ rest, microprogram i p s.regs.pc = twoOperands first second rest) (hs : s.Idle)
    (h : first.Raises (s.regs.set .pc (s.regs.pc + 1)) s.mem r (s.regs.set .pc u) s.mem) :
    exec i ⟨p, s⟩ = .next ⟨p, s.faultsWith r u s.mem⟩ :=
  let ⟨_, e⟩ := start
  exec_faultsWith hs (e ▸ twoOperands_raises_first h)

theorem twoOperands_faults_second (start : ∃ rest, microprogram i p s.regs.pc = twoOperands first second rest) (hs : s.Idle)
    {v : p.Word}
    (returns : first.Returns (s.regs.set .pc (s.regs.pc + 1)) s.mem v (s.regs.set .pc (s.regs.pc + 1)) s.mem)
    (h : second.Raises (s.regs.set .pc (s.regs.pc + 2)) s.mem r (s.regs.set .pc u) s.mem) :
    exec i ⟨p, s⟩ = .next ⟨p, s.faultsWith r u s.mem⟩ :=
  let ⟨_, e⟩ := start
  exec_faultsWith hs (e ▸ twoOperands_raises_second returns h)

theorem load_faults (hi : i ∈ [.addMemReg, .subMemReg, .moveMemReg]) (hs : s.Idle)
    (h : (memorySource s.regs.pc).Raises s.regs s.mem r (s.regs.set .pc u) M') :
    exec i ⟨p, s⟩ = .next ⟨p, s.faultsWith r u M'⟩ :=
  let ⟨_, e⟩ := load_start hi s.regs.pc
  exec_faultsWith hs (e ▸ .left h)

theorem store_faults (hi : i ∈ [.addRegMem, .subRegMem, .moveRegMem]) (hs : s.Idle)
    (h : (registerSourceToMemory s.regs.pc).Raises s.regs s.mem r (s.regs.set .pc u) M') :
    exec i ⟨p, s⟩ = .next ⟨p, s.faultsWith r u M'⟩ :=
  let ⟨_, e⟩ := store_start hi s.regs.pc
  exec_faultsWith hs (e ▸ .left h)

end Execute

end Sys2Proof.Machine
end

section
/-! The add and sub families (spec/42_add_sub.md): results, what they and the forms beside them leave unchanged, and the
order of their exceptions. -/

namespace Sys2Proof

namespace Machine

variable {p : Params}

/-! ## The forms with no register destination -/

section Endings
variable (a : p.Word) (x : RegFile p.wordBits) (M : Memory)

theorem callSubroutine_ends : (callSubroutine a).Ends x M
    (fun x' M' => M' = M.write x.stackTop (x.pc + 2) ∧ ∃ u, x' = (x.set .stackTop (x.stackTop - 1)).set .pc u)
    (MovedPcOnly x M M) := by
  rcases callSubroutine_cases a x M with ⟨h₁, hlow, hS⟩ | ⟨r, u, raises⟩
  · exact .inl ⟨_, _, callSubroutine_returns a h₁ hlow hS M, rfl, _, rfl⟩
  · exact .inr ⟨r, _, _, raises, ⟨u, rfl⟩, .inl rfl⟩

theorem returnFromSubroutine_ends : (returnFromSubroutine a).Ends x M
    (fun x' M' => M' = M ∧ ∃ u, x' = (x.set .stackTop (x.stackTop + 1)).set .pc u) (MovedPcOnly x M M) := by
  rcases returnFromSubroutine_cases a x M with ⟨hne, hS⟩ | ⟨r, u, raises⟩
  · exact .inl ⟨_, _, returnFromSubroutine_returns a hne hS M, rfl, _, rfl⟩
  · exact .inr ⟨r, _, _, raises, ⟨u, rfl⟩, .inl rfl⟩

theorem jumpAlways_ends : (jumpAlways a).Ends x M (MovedPcOnly x M M) (MovedPcOnly x M M) := by
  rcases onePlain_cases a x M with h₁ | ⟨r, u, raises⟩
  · exact .inl ⟨_, _, jumpAlways_returns a h₁ M, ⟨_, rfl⟩, .inl rfl⟩
  · exact .inr ⟨r, _, _, raises _, ⟨u, rfl⟩, .inl rfl⟩

theorem flagJump_ends (taken : p.Word → Bool) : (flagJump taken a).Ends x M (MovedPcOnly x M M) (MovedPcOnly x M M) := by
  rcases onePlain_cases a x M with h₁ | ⟨r, u, raises⟩
  · exact .inl ⟨_, _, flagJump_returns taken a h₁ M, ⟨_, rfl⟩, .inl rfl⟩
  · exact .inr ⟨r, _, _, raises _, ⟨u, rfl⟩, .inl rfl⟩

/-- jmp, jz and jn move pc only, on every path (45_jumps R119 to R121). -/
theorem plainJump_ends {i : Instr} (hi : i ∈ [.jmp, .jz, .jn]) :
    (microprogram i p a).Ends x M (MovedPcOnly x M M) (MovedPcOnly x M M) := by
  simp only [List.mem_cons, List.not_mem_nil, or_false] at hi
  rcases hi with rfl | rfl | rfl
  · exact jumpAlways_ends a x M
  · exact flagJump_ends a x M takenIfZero
  · exact flagJump_ends a x M takenIfNegative

/-- call and ret (46_call_ret R128, R129). -/
theorem callOrRet_ends {i : Instr} (hi : i ∈ [.call, .ret]) :
    (microprogram i p a).Ends x M (fun x' _ => ∃ top u, x' = (x.set .stackTop top).set .pc u) (MovedPcOnly x M M) := by
  simp only [List.mem_cons, List.not_mem_nil, or_false] at hi
  rcases hi with rfl | rfl
  · exact (callSubroutine_ends a x M).imp_done fun _ _ ⟨_, moved⟩ => ⟨_, moved⟩
  · exact (returnFromSubroutine_ends a x M).imp_done fun _ _ ⟨_, moved⟩ => ⟨_, moved⟩

end Endings

/-! ## Frames -/

section Frames
variable {x x' y : RegFile p.wordBits} {w m : p.Word} {M N M' : Memory} {q : RegName}

theorem ArithmeticWritten.get (h : ArithmeticWritten y w N x' M') (hpc : q ≠ .pc) (hf : q ≠ .flags) (hw : w ≠ q.index) :
    x'.get q = y.get q :=
  let ⟨res, written⟩ := h
  (written.get hpc hw).trans (sameButFlags_setFlags y res q hf)

theorem ArithmeticCellWritten.get (h : ArithmeticCellWritten y m N x' M') (hpc : q ≠ .pc) (hf : q ≠ .flags) :
    x'.get q = y.get q :=
  let ⟨res, written⟩ := h
  (written.get hpc).trans (sameButFlags_setFlags y res q hf)

theorem CellWritten.byte (h : CellWritten y m N x' M') (hN : N.Rising) {n : Nat}
    (hn : n / wordBytes p.wordBits ≠ m.toNat) : M'.byte n = N.byte n := by
  obtain ⟨v, rfl, -⟩ := h
  exact Memory.byte_write_of_ne hN hn

/-- Before a raise the scratch save is the only store: the bytes outside its cell are as they were. -/
theorem MovedPcOnly.byte_save {c v : p.Word} (h : MovedPcOnly x M (M.write c v) x' M') (hM : M.Rising) {n : Nat}
    (hn : n / wordBytes p.wordBits ≠ c.toNat) : M'.byte n = M.byte n := by
  rcases h with ⟨-, rfl | rfl⟩
  · rfl
  · exact Memory.byte_write_of_ne hM hn

variable {i : Instr} {s t : CoreState p}

theorem load_byte (hi : i ∈ [.addMemReg, .subMemReg, .moveMemReg]) (hs : s.Idle) (hM : s.mem.wf p = true)
    (e : exec i ⟨p, s⟩ = .next ⟨p, t⟩) {n : Nat} (hn : n / wordBytes p.wordBits ≠ s.regs.stackTop.toNat) :
    t.mem.byte n = s.mem.byte n := by
  have rising := Memory.rising_of_wf hM
  rcases exec_of_ends (load_ends _ _ hi hM) hs e with ⟨-, y, -, written⟩ | ⟨r, -, stopped⟩
  · rw [written.1, Memory.byte_write_of_ne rising hn]
  · exact stopped.byte_save rising hn

theorem call_byte (hs : s.Idle) (hM : s.mem.wf p = true) (e : exec .call ⟨p, s⟩ = .next ⟨p, t⟩) {n : Nat}
    (hn : n / wordBytes p.wordBits ≠ s.regs.stackTop.toNat) : t.mem.byte n = s.mem.byte n := by
  rcases exec_of_ends (i := .call) (callSubroutine_ends _ _ _) hs e with ⟨-, pushed, -⟩ | ⟨r, -, -, kept⟩
  · rw [pushed, Memory.byte_write_of_ne (Memory.rising_of_wf hM) hn]
  · rw [kept.elim id id]

theorem store_byte (hi : i ∈ [.addRegMem, .subRegMem, .moveRegMem]) (hs : s.Idle) (hM : s.mem.wf p = true)
    (e : exec i ⟨p, s⟩ = .next ⟨p, t⟩) {n : Nat} (hn : n / wordBytes p.wordBits ≠ s.regs.stackTop.toNat)
    (hm : n / wordBytes p.wordBits ≠ ((s.mem.write s.regs.stackTop (s.regs.pc + 2)).read (s.regs.pc + 2)).toNat) :
    t.mem.byte n = s.mem.byte n := by
  have rising := Memory.rising_of_wf hM
  rcases exec_of_ends (store_ends _ _ _ hi) hs e with ⟨-, y, -, written⟩ | ⟨r, -, stopped⟩
  · rw [written.byte (Memory.write_rising rising _ _) hm, Memory.byte_write_of_ne rising hn]
  · exact stopped.byte_save rising hn

/-- The forms whose only register besides pc is Flags (42_add_sub R107, R111; 45_jumps R118). -/
theorem flagsForm_get (hi : i ∈ [.addRegMem, .subRegMem, .jeq, .jneq, .jgt, .jlw]) (hs : s.Idle)
    (e : exec i ⟨p, s⟩ = .next ⟨p, t⟩) (hc : t.ctrl = .fetch) (hpc : q ≠ .pc) (hf : q ≠ .flags) :
    t.regs.get q = s.regs.get q := by
  rcases List.mem_append (α := Instr) (s := [.addRegMem, .subRegMem]).1 hi with store | compare
  · exact (exec_done (arithmeticStore_ends _ _ _ store) hs e hc).get hpc hf
  · obtain ⟨-, res, u, left⟩ := exec_done (compareForm_ends _ _ _ compare) hs e hc
    rw [left, RegFile.get_set_of_ne _ hpc, sameButFlags_setFlags _ res q hf]

/-- The forms that leave every register but pc (43_move R115; 45_jumps R119 to R121). -/
theorem pcForm_get (hi : i ∈ [.moveRegMem, .jmp, .jz, .jn]) (hs : s.Idle) (e : exec i ⟨p, s⟩ = .next ⟨p, t⟩)
    (hc : t.ctrl = .fetch) (hpc : q ≠ .pc) : t.regs.get q = s.regs.get q := by
  rcases List.mem_cons.1 hi with rfl | jump
  · exact (exec_done (i := .moveRegMem) (moveRegisterToMemory_ends _ _ _) hs e hc).get hpc
  · exact (exec_done (plainJump_ends _ _ _ jump) hs e hc).get hpc

theorem callOrRet_get (hi : i ∈ [.call, .ret]) (hs : s.Idle) (e : exec i ⟨p, s⟩ = .next ⟨p, t⟩) (hc : t.ctrl = .fetch)
    (hpc : q ≠ .pc) (htop : q ≠ .stackTop) : t.regs.get q = s.regs.get q := by
  obtain ⟨top, u, left⟩ := exec_done (callOrRet_ends _ _ _ hi) hs e hc
  rw [left, RegFile.get_set_of_ne _ hpc, RegFile.get_set_of_ne _ htop]

end Frames

end Machine

open Machine

/-- Settles O43: pc is at the operand word whose read or check raises, and nothing is stored before. -/
theorem regRegFaultOrder : Obligations.RegRegFaultOrder := by
  intro p i s hi hs a
  have start := registerForm_start hi a
  refine ⟨fun outside => ?sourceWord, fun x hx bad => ?sourceIndex, fun r hr outside => ?destinationWord,
    fun r x hr hx bad => ?destinationIndex⟩
  case sourceWord => exact twoOperands_faults_first start hs (registerOperand_raises_of_peek outside)
  case sourceIndex => exact twoOperands_faults_first start hs (registerOperand_raises_of_ofIndex hx bad)
  all_goals have source := registerOperand_returns_of_peek (a := a) hr
  case destinationWord => exact twoOperands_faults_second start hs source (registerOperand_raises_of_peek outside)
  case destinationIndex => exact twoOperands_faults_second start hs source (registerOperand_raises_of_ofIndex hx bad)

/-- Settles O44: as in the register forms, but for the immediate word, which is not checked. -/
theorem immRegFaultOrder : Obligations.ImmRegFaultOrder := by
  intro p i s hi hs a
  have start := immediateForm_start hi a
  refine ⟨fun outside => ?immediateWord, fun v hv outside => ?registerWord, fun v x hv hx bad => ?registerIndex⟩
  case immediateWord => exact twoOperands_faults_first start hs (plainOperand_raises_of_peek outside)
  all_goals have immediate := plainOperand_returns_of_peek (a := a) hv
  case registerWord => exact twoOperands_faults_second start hs immediate (registerOperand_raises_of_peek outside)
  case registerIndex => exact twoOperands_faults_second start hs immediate (registerOperand_raises_of_ofIndex hx bad)

/-- Settles O45: the scratch save is the one store, and pc is at the word that raises: the data address while pc serves as
the address register, the register operand once pc is restored. -/
theorem memRegFaultOrder : Obligations.MemRegFaultOrder := by
  intro p i s hi hs hM a cell M m
  refine ⟨fun outside => ?scratch, fun hcell outside => ?addressWord, fun hcell h₁ outside => ?data,
    fun hcell h₁ hm outside => ?registerWord, fun hcell h₁ hm h₂ bad => ?registerIndex⟩
  case scratch => exact load_faults hi hs (memorySource_raises_enter (enterMemoryOperand_raises_save outside))
  case addressWord => exact load_faults hi hs (memorySource_raises_enter (enterMemoryOperand_raises_word hcell outside))
  case data => exact load_faults hi hs (memorySource_raises_data hcell h₁ outside)
  case registerWord =>
    exact load_faults hi hs (memorySource_raises_register hcell h₁ hM hm
      (registerOperand_raises_oob a (x := s.regs.set .pc _) outside M))
  case registerIndex =>
    exact load_faults hi hs (memorySource_raises_register hcell h₁ hM hm
      (registerOperand_raises_index a (x := s.regs.set .pc _) h₂ bad))

/-- Settles O46: the register operand is read and checked before the scratch save, the address word and the data address
after it. -/
theorem regMemFaultOrder : Obligations.RegMemFaultOrder := by
  intro p i s hi hs a cell M m
  refine ⟨fun outside => ?registerWord, fun x hx bad => ?registerIndex, fun r hr outside => ?scratch,
    fun r hr hcell outside => ?addressWord, fun r hr hcell h₂ outside => ?data⟩
  case registerWord =>
    exact store_faults hi hs (registerSourceToMemory_raises_register (registerOperand_raises_of_peek outside))
  case registerIndex =>
    exact store_faults hi hs (registerSourceToMemory_raises_register (registerOperand_raises_of_ofIndex hx bad))
  all_goals obtain ⟨h₁, hr⟩ := CoreState.peek_eq_some.1 hr
  case scratch =>
    exact store_faults hi hs (registerSourceToMemory_raises_enter h₁ hr (enterMemoryOperand_raises_save outside))
  case addressWord =>
    exact store_faults hi hs (registerSourceToMemory_raises_enter h₁ hr (enterMemoryOperand_raises_word hcell outside))
  case data =>
    exact exec_faultsWith hs (store_raises_data hi (registerSourceToMemory_returns a h₁ hr hcell h₂) outside)

/-- Settles O24: both operand words name registers in memory, so the microprogram returns. -/
theorem arithmeticRegRegResult : Obligations.ArithmeticRegRegResult := by
  intro p s src dst hs hsrc hdst x added subtracted
  obtain ⟨h₁, hsrc⟩ := CoreState.peek_eq_some.1 hsrc
  obtain ⟨h₂, hdst⟩ := CoreState.peek_eq_some.1 hdst
  exact ⟨exec_of_returns (i := .addRegReg) hs (arithmeticRegReg_returns .add _ h₁ hsrc h₂ hdst),
    exec_of_returns (i := .subRegReg) hs (arithmeticRegReg_returns .sub _ h₁ hsrc h₂ hdst)⟩

/-- Settles O25: the immediate is the word at `a + 1` as it stands. -/
theorem arithmeticImmRegResult : Obligations.ArithmeticImmRegResult := by
  intro p s imm dst hs himm hdst x added subtracted
  obtain ⟨h₁, rfl⟩ := CoreState.peek_eq_some.1 himm
  obtain ⟨h₂, hdst⟩ := CoreState.peek_eq_some.1 hdst
  exact ⟨exec_of_returns (i := .addImmReg) hs (arithmeticImmReg_returns .add _ h₁ h₂ hdst),
    exec_of_returns (i := .subImmReg) hs (arithmeticImmReg_returns .sub _ h₁ h₂ hdst)⟩

/-- Settles O26: the memory source is read from the memory that the scratch save left. -/
theorem arithmeticMemRegResult : Obligations.ArithmeticMemRegResult := by
  intro p s dst hs hM hcell h₁ h₂ M hm hdst v x added subtracted
  have source := memorySource_returns s.regs.pc hM hcell h₁ hm h₂ hdst
  exact ⟨exec_of_returns (i := .addMemReg) hs (arithmeticMemReg_returns .add _ source),
    exec_of_returns (i := .subMemReg) hs (arithmeticMemReg_returns .sub _ source)⟩

/-- Settles O27: the source is captured before the scratch save, and pc comes back from the scratch cell after the store. -/
theorem arithmeticRegMemResult : Obligations.ArithmeticRegMemResult := by
  intro p s src hs hsrc h₂ hcell M m hm x sum difference
  obtain ⟨h₁, hsrc⟩ := CoreState.peek_eq_some.1 hsrc
  have source := registerSourceToMemory_returns s.regs.pc h₁ hsrc hcell h₂
  exact ⟨exec_of_returns (i := .addRegMem) hs (arithmeticRegMem_returns .add _ source hcell hm),
    exec_of_returns (i := .subRegMem) hs (arithmeticRegMem_returns .sub _ source hcell hm)⟩

/-- Settles O37: a load stores its scratch save at most, and call its return address at most. -/
theorem loadsAndCallStoreAtStackTopOnly : Obligations.LoadsAndCallStoreAtStackTopOnly := by
  intro p i s t hi hs hM e n hn
  rcases List.mem_append (α := Instr) (s := [.addMemReg, .subMemReg, .moveMemReg]).1 hi with load | call
  · exact load_byte load hs hM e hn
  · obtain rfl := List.mem_singleton.1 call
    exact call_byte hs hM e hn

/-- Settles O38: a store that stops has made at most its scratch save, and one that completes wrote its cell besides. -/
theorem storesWriteScratchAndDestinationOnly : Obligations.StoresWriteScratchAndDestinationOnly :=
  fun _ _ _ _ hi hs hM e _ hn hm => store_byte hi hs hM e hn hm

/-- Settles O39: what completes wrote pc, Flags and the register that its last operand word names, which is not `q`. -/
theorem registerDestinationFrame : Obligations.RegisterDestinationFrame := by
  intro p s t q hs hM hpc hf hc
  refine ⟨fun i hi e hd => ?toRegister, fun i hi e hd => ?load, fun e hd => ?inc⟩
  case toRegister =>
    obtain ⟨y, same, written⟩ := exec_done (toRegister_ends _ _ _ hi) hs e hc
    rw [written.get hpc hd, same q hf, RegFile.get_set_of_ne _ hpc]
  case load =>
    obtain ⟨y, same, written⟩ := exec_done (load_ends _ _ hi hM) hs e hc
    rw [written.get hpc hd, same q hf, RegFile.get_set_of_ne _ hpc]
  case inc =>
    rw [(exec_done (i := .inc) (incRegister_ends _ _ _) hs e hc).get hpc hf hd, RegFile.get_set_of_ne _ hpc]

/-- Settles O40: by what each of the three groups writes besides pc: Flags, nothing, StackTop. -/
theorem noRegisterDestinationFrame : Obligations.NoRegisterDestinationFrame :=
  fun _ _ _ hs hc => ⟨fun _ _ hi hpc hf e => flagsForm_get hi hs e hc hpc hf,
    fun _ _ hi hpc e => pcForm_get hi hs e hc hpc,
    fun _ _ hi hpc htop e => callOrRet_get hi hs e hc hpc htop⟩

end Sys2Proof
end

section
/-! The move family (spec/43_move.md): results. -/

namespace Sys2Proof

open Machine

/-- Settles O28: each form reads its source operand as the arithmetic form of its kind does, and the source is written back as
it stands, to Flags as to any other register. -/
theorem moveToRegisterResult : Obligations.MoveToRegisterResult := by
  intro p s dst hs hdst x
  obtain ⟨h₂, hdst⟩ := CoreState.peek_eq_some.1 hdst
  refine ⟨fun src hsrc => ?register, fun imm himm => ?immediate⟩
  case register =>
    obtain ⟨h₁, hsrc⟩ := CoreState.peek_eq_some.1 hsrc
    exact exec_of_returns (i := .moveRegReg) hs (moveRegisterToRegister_returns _ h₁ hsrc h₂ hdst)
  case immediate =>
    obtain ⟨h₁, rfl⟩ := CoreState.peek_eq_some.1 himm
    exact exec_of_returns (i := .moveImmReg) hs (moveImmediateToRegister_returns _ h₁ h₂ hdst)

/-- Settles O29: the data word and the register index are read from the memory that the scratch save left. -/
theorem moveMemRegResult : Obligations.MoveMemRegResult := by
  intro p s dst hs hM hcell h₁ h₂ M hm hdst y
  have source := memorySource_returns s.regs.pc hM hcell h₁ hm h₂ hdst
  exact exec_of_returns (i := .moveMemReg) hs (moveMemoryToRegister_returns _ source)

/-- Settles O30: the source is captured before the scratch save; a store that hits the scratch cell is what pc is restored
from. -/
theorem moveRegMemResult : Obligations.MoveRegMemResult := by
  intro p s src hs hsrc h₂ hcell M m hm x
  obtain ⟨h₁, hsrc⟩ := CoreState.peek_eq_some.1 hsrc
  have source := registerSourceToMemory_returns s.regs.pc h₁ hsrc hcell h₂
  exact exec_of_returns (i := .moveRegMem) hs (moveRegisterToMemory_returns _ source hcell hm)

end Sys2Proof
end

section
/-! inc (spec/44_inc.md): its result, the order of its exceptions and of the jumps' beside it, and what an instruction that
ends in FAULT leaves of the registers. -/

namespace Sys2Proof

namespace Machine

variable {p : Params} {a : p.Word} {x x' : RegFile p.wordBits} {M M' : Memory} {r : FaultRecord p.wordBits} {i : Instr}

/-! ## The first operand word -/

/-- The start of inc and of the jumps: the first operand word after an advance, then `rest`. -/
def oneOperand (first : Micro p p.Word) (rest : p.Word → Micro p Unit) : Micro p Unit := do
  advance
  let v ← first
  rest v

theorem oneOperand_raises {first : Micro p p.Word} {rest : p.Word → Micro p Unit}
    (h : first.Raises (x.set .pc (x.pc + 1)) M r x' M') : (oneOperand first rest).Raises x M r x' M' :=
  .right (advance_returns x M) (.left h)

theorem registerFirst_start (hi : i ∈ [.inc, .jeq, .jneq, .jgt, .jlw]) (a : p.Word) :
    ∃ rest, microprogram i p a = oneOperand (registerOperand a) rest := by
  simp only [List.mem_cons, List.not_mem_nil, or_false] at hi
  rcases hi with rfl | rfl | rfl | rfl | rfl <;> exact ⟨_, rfl⟩

theorem plainJump_start (hi : i ∈ [.jmp, .jz, .jn]) (a : p.Word) :
    ∃ rest, microprogram i p a = oneOperand (plainOperand a) rest := by
  simp only [List.mem_cons, List.not_mem_nil, or_false] at hi
  rcases hi with rfl | rfl | rfl <;> exact ⟨_, rfl⟩

theorem registerFirst_or_plainJump (hi : i ∈ [.inc, .jmp, .jz, .jn, .jeq, .jneq, .jgt, .jlw]) :
    i ∈ [.inc, .jeq, .jneq, .jgt, .jlw] ∨ i ∈ [.jmp, .jz, .jn] := by
  simp only [List.mem_cons, List.not_mem_nil, or_false] at hi ⊢
  tauto

/-! ## The operand words of a compare jump -/

theorem twoOperands_raises_rest {first second : Micro p p.Word} {rest : p.Word → p.Word → Micro p Unit} {v w : p.Word}
    (returnsFirst : first.Returns (x.set .pc (x.pc + 1)) M v (x.set .pc (x.pc + 1)) M)
    (returnsSecond : second.Returns (x.set .pc (x.pc + 2)) M w (x.set .pc (x.pc + 2)) M)
    (h : (rest v w).Raises (x.set .pc (x.pc + 2)) M r x' M') : (twoOperands first second rest).Raises x M r x' M' :=
  .right (advance_returns x M) (.right returnsFirst (.right (advance_returns_two x M) (.right returnsSecond h)))

/-- A compare jump reads and checks its two registers, and then reads its target word before it compares
(45_jumps R122 to R125). -/
theorem compareForm_start (hi : i ∈ [.jeq, .jneq, .jgt, .jlw]) (a : p.Word) :
    ∃ jump : p.Word → p.Word → p.Word → Micro p Unit, microprogram i p a =
      twoOperands (registerOperand a) (registerOperand a) fun rA rB => oneOperand (plainOperand a) (jump rA rB) := by
  simp only [List.mem_cons, List.not_mem_nil, or_false] at hi
  rcases hi with rfl | rfl | rfl | rfl <;> exact ⟨_, rfl⟩

/-! ## EXECUTE, where an operand word raises -/

section Execute
variable {s : CoreState p} {u : p.Word}

theorem oneOperand_faults {first : Micro p p.Word} (start : ∃ rest, microprogram i p s.regs.pc = oneOperand first rest)
    (hs : s.Idle) (h : first.Raises (s.regs.set .pc (s.regs.pc + 1)) s.mem r (s.regs.set .pc u) s.mem) :
    exec i ⟨p, s⟩ = .next ⟨p, s.faultsWith r u s.mem⟩ :=
  let ⟨_, e⟩ := start
  exec_faultsWith hs (e ▸ oneOperand_raises h)

theorem compareForm_faults_target (hi : i ∈ [.jeq, .jneq, .jgt, .jlw]) (hs : s.Idle) {rA rB : RegName}
    (hA : s.peek (s.regs.pc + 1) = some rA.index) (hB : s.peek (s.regs.pc + 2) = some rB.index)
    (h : (plainOperand s.regs.pc).Raises (s.regs.set .pc (s.regs.pc + 3)) s.mem r (s.regs.set .pc u) s.mem) :
    exec i ⟨p, s⟩ = .next ⟨p, s.faultsWith r u s.mem⟩ := by
  obtain ⟨jump, e⟩ := compareForm_start hi s.regs.pc
  exact exec_faultsWith hs (e ▸ twoOperands_raises_rest (registerOperand_returns_of_peek hA)
    (registerOperand_returns_of_peek hB) (.right (advance_returns_three s.regs s.mem) (.left h)))

end Execute

/-! ## What a raise leaves of the registers -/

/-- No microprogram writes a register but pc before its last raise (41_control_unit R97, R99); the scratch save may have been
made. -/
theorem microprogram_stops_movedPcOnly (i : Instr) (a : p.Word) (x : RegFile p.wordBits) (hM : M.wf p = true) :
    ∃ done N, (microprogram i p a).Ends x M done (MovedPcOnly x M N) := by
  cases i with
  | addRegReg | addImmReg | subRegReg | subImmReg | moveRegReg | moveImmReg =>
    exact ⟨_, _, toRegister_ends a x M (by decide)⟩
  | addMemReg | subMemReg | moveMemReg => exact ⟨_, _, load_ends a x (by decide) hM⟩
  | addRegMem | subRegMem | moveRegMem => exact ⟨_, _, store_ends a x M (by decide)⟩
  | inc => exact ⟨_, _, incRegister_ends a x M⟩
  | jmp | jz | jn => exact ⟨_, _, plainJump_ends a x M (by decide)⟩
  | jeq | jneq | jgt | jlw => exact ⟨_, _, compareForm_ends a x M (by decide)⟩
  | call | ret => exact ⟨_, _, callOrRet_ends a x M (by decide)⟩

/-- An instruction that ends in FAULT has raised: a return would have gone on to the next FETCH (41_control_unit R101). -/
theorem exec_stopped {s t : CoreState p} {done stopped : RegFile p.wordBits → Memory → Prop}
    (h : (microprogram i p s.regs.pc).Ends s.regs s.mem done stopped) (hs : s.Idle)
    (e : exec i ⟨p, s⟩ = .next ⟨p, t⟩) (hc : t.ctrl = .fault r) : stopped t.regs t.mem := by
  rcases exec_of_ends h hs e with ⟨hf, -⟩ | ⟨_, -, left⟩
  · simp [hc] at hf
  · exact left

end Machine

open Machine

/-- Settles O31: the operand word names a register in memory, so the microprogram returns. -/
theorem incResult : Obligations.IncResult := by
  intro p s r hs hr x y
  obtain ⟨h, hr⟩ := CoreState.peek_eq_some.1 hr
  exact exec_of_returns (i := .inc) hs (incRegister_returns _ h hr)

/-- Settles O47: pc is at the operand word whose read or check raises; a compare jump reads its target before it looks at the
condition. -/
theorem incAndJumpFaultOrder : Obligations.IncAndJumpFaultOrder := by
  intro p s hs a
  refine ⟨fun i hi outside => ?firstWord, fun i x hi hx bad => ?firstIndex, fun i rA hi hA =>
    ⟨fun outside => ?secondWord, fun x hx bad => ?secondIndex, fun rB hB outside => ?target⟩⟩
  case firstWord =>
    rcases registerFirst_or_plainJump hi with register | plain
    · exact oneOperand_faults (registerFirst_start register a) hs (registerOperand_raises_of_peek outside)
    · exact oneOperand_faults (plainJump_start plain a) hs (plainOperand_raises_of_peek outside)
  case firstIndex =>
    exact oneOperand_faults (registerFirst_start hi a) hs (registerOperand_raises_of_ofIndex hx bad)
  case target => exact compareForm_faults_target hi hs hA hB (plainOperand_raises_of_peek outside)
  all_goals
    obtain ⟨jump, start⟩ := compareForm_start hi a
    have first := registerOperand_returns_of_peek (a := a) hA
  case secondWord => exact twoOperands_faults_second ⟨_, start⟩ hs first (registerOperand_raises_of_peek outside)
  case secondIndex => exact twoOperands_faults_second ⟨_, start⟩ hs first (registerOperand_raises_of_ofIndex hx bad)

/-- Settles O50: every raise is at a point where only pc has moved, whatever the instruction. -/
theorem faultLeavesRegistersButPc : Obligations.FaultLeavesRegistersButPc := by
  intro p i s t r hs hM e hc q hq
  obtain ⟨done, N, ends⟩ := microprogram_stops_movedPcOnly i s.regs.pc s.regs hM
  exact (exec_stopped ends hs e hc).get hq

end Sys2Proof
end

section
/-! The jumps (spec/45_jumps.md): the condition table of R118 on the flags of a difference, and results. -/

namespace Sys2Proof

namespace Machine

variable {p : Params}

/-! ## The condition table: each condition, read from the flags that a difference leaves (41_control_unit R96) -/

section Conditions
variable (f : p.Word) {d : p.Word}

theorem word_toInt_pos_iff : 0 < d.toInt ↔ d ≠ 0 ∧ ¬ d.toInt < 0 := by
  have zero : d.toInt = 0 ↔ d = 0 := by simp [← BitVec.toInt_inj]
  rw [Ne, ← zero]
  omega

theorem takenIfZero_flagsAfter : takenIfZero (flagsAfter f d) = true ↔ d = 0 := by
  rw [takenIfZero, getFlag_flagsAfter_zero, decide_eq_true_iff]

theorem takenIfNegative_flagsAfter : takenIfNegative (flagsAfter f d) = true ↔ d.toInt < 0 := by
  rw [takenIfNegative, getFlag_flagsAfter_negative, word_slt_zero_iff]

/-- jneq is taken exactly where jeq is not. -/
theorem takenIfNotZero_eq : takenIfNotZero f = !takenIfZero f := rfl

/-- jgt is taken exactly where neither jeq nor jlw is. -/
theorem takenIfPositive_eq : takenIfPositive f = (takenIfNotZero f && !takenIfNegative f) := rfl

theorem takenIfNotZero_flagsAfter : takenIfNotZero (flagsAfter f d) = true ↔ d ≠ 0 := by
  rw [takenIfNotZero_eq, Bool.not_eq_true', ← Bool.not_eq_true, takenIfZero_flagsAfter]

theorem takenIfPositive_flagsAfter : takenIfPositive (flagsAfter f d) = true ↔ 0 < d.toInt := by
  rw [takenIfPositive_eq, Bool.and_eq_true_iff, Bool.not_eq_true', ← Bool.not_eq_true, takenIfNotZero_flagsAfter,
    takenIfNegative_flagsAfter, word_toInt_pos_iff]

end Conditions

/-- A compare jump whose condition, on the new flags, says `taken` of the difference (45_jumps R118, R122 to R125). -/
theorem exec_compareJump {i : Instr} {s : CoreState p} {rA rB : RegName} {t : p.Word} {condition : p.Word → Bool}
    {taken : p.Word → Prop} [DecidablePred taken] (program : microprogram i p = compareJump condition)
    (table : ∀ f d, condition (flagsAfter f d) = true ↔ taken d) (hs : s.Idle)
    (hA : s.peek (s.regs.pc + 1) = some rA.index) (hB : s.peek (s.regs.pc + 2) = some rB.index)
    (ht : s.peek (s.regs.pc + 3) = some t) :
    let x := s.regs.set .pc (s.regs.pc + 3)
    let d := x.get rA - x.get rB
    exec i ⟨p, s⟩ = .next ⟨p, s.continuesWith
      ((x.setFlags d).set .pc (if taken d then t else s.regs.pc + 4)) s.mem⟩ := by
  intro x d
  obtain ⟨h₁, hA⟩ := CoreState.peek_eq_some.1 hA
  obtain ⟨h₂, hB⟩ := CoreState.peek_eq_some.1 hB
  obtain ⟨h₃, rfl⟩ := CoreState.peek_eq_some.1 ht
  have returns := compareJump_returns condition s.regs.pc h₁ hA h₂ hB h₃
  simp only [table, ← program] at returns
  exact exec_of_returns hs returns

end Machine

open Machine

/-- Settles O32: jz and jn look at the one bit of Flags that their condition names, and the operand word is read before that,
so its exception does not depend on the condition. -/
theorem flagJumpResult : Obligations.FlagJumpResult := by
  refine ⟨⟨rfl, rfl, rfl, by decide⟩, fun p s hs => ⟨fun t ht => ?result, fun outside i hi => ?operandWord⟩⟩
  case result =>
    obtain ⟨h, rfl⟩ := CoreState.peek_eq_some.1 ht
    exact ⟨exec_of_returns (i := .jmp) hs (jumpAlways_returns _ h _),
      exec_of_returns (i := .jz) hs (flagJump_returns takenIfZero _ h _),
      exec_of_returns (i := .jn) hs (flagJump_returns takenIfNegative _ h _)⟩
  case operandWord => exact oneOperand_faults (plainJump_start hi _) hs (plainOperand_raises_of_peek outside)

/-- Settles O33: one compare jump under the four conditions of the table of R118. -/
theorem compareJumpResult : Obligations.CompareJumpResult := by
  intro p s rA rB t hs hA hB ht x d
  exact ⟨exec_compareJump (i := .jeq) rfl (fun f _ => takenIfZero_flagsAfter f) hs hA hB ht,
    exec_compareJump (i := .jneq) rfl (fun f _ => takenIfNotZero_flagsAfter f) hs hA hB ht,
    exec_compareJump (i := .jgt) rfl (fun f _ => takenIfPositive_flagsAfter f) hs hA hB ht,
    exec_compareJump (i := .jlw) rfl (fun f _ => takenIfNegative_flagsAfter f) hs hA hB ht⟩

end Sys2Proof
end

section
/-! call and ret (spec/46_call_ret.md): the stack operations, results, the order of the exceptions, and that a ret comes back
to where its call was. -/

namespace Sys2Proof

namespace Machine

variable {p : Params} {a : p.Word} {x x' : RegFile p.wordBits} {M M' : Memory} {r : FaultRecord p.wordBits}

/-! ## A raise of the stack operation is the instruction's -/

/-- call pushes with pc at its operand word, which it has read (46_call_ret R128). -/
theorem callSubroutine_raises_push (h₁ : inMemory (x.pc + 1) = true)
    (h : (push a (x.pc + 2)).Raises (x.set .pc (x.pc + 1)) M r x' M') : (callSubroutine a).Raises x M r x' M' := by
  have next := aluIncrement_returns (x.pc + 1) (x.set .pc (x.pc + 1)) M
  rw [word_add_one_one] at next
  exact .right (advance_returns x M) (.right (operandWord_returns a (x := x.set .pc (x.pc + 1)) h₁ M)
    (.right (readPort_returns .pc _ M) (.right next (.left h))))

/-- ret pops after its one advance (46_call_ret R129). -/
theorem returnFromSubroutine_raises_pop (h : (pop a).Raises (x.set .pc (x.pc + 1)) M r x' M') :
    (returnFromSubroutine a).Raises x M r x' M' :=
  .right (advance_returns x M) (.left h)

/-! ## EXECUTE -/

section Execute
variable {s t : CoreState p}

theorem exec_ret (hs : s.Idle) (hne : s.regs.stackTop.slt s.regs.stackBottom = true)
    (inside : inMemory (s.regs.stackTop + 1) = true) :
    exec .ret ⟨p, s⟩ = .next ⟨p, s.continuesWith
      ((s.regs.set .stackTop (s.regs.stackTop + 1)).set .pc (s.mem.read (s.regs.stackTop + 1))) s.mem⟩ :=
  exec_of_returns (i := .ret) hs (returnFromSubroutine_returns _ hne inside s.mem)

theorem call_faults_push {u : p.Word} (hs : s.Idle) (h₁ : inMemory (s.regs.pc + 1) = true)
    (h : (push s.regs.pc (s.regs.pc + 2)).Raises (s.regs.set .pc (s.regs.pc + 1)) s.mem r (s.regs.set .pc u) M') :
    exec .call ⟨p, s⟩ = .next ⟨p, s.faultsWith r u M'⟩ :=
  exec_faultsWith (i := .call) hs (callSubroutine_raises_push h₁ h)

theorem ret_faults_pop {u : p.Word} (hs : s.Idle)
    (h : (pop s.regs.pc).Raises (s.regs.set .pc (s.regs.pc + 1)) s.mem r (s.regs.set .pc u) M') :
    exec .ret ⟨p, s⟩ = .next ⟨p, s.faultsWith r u M'⟩ :=
  exec_faultsWith (i := .ret) hs (returnFromSubroutine_raises_pop h)

/-- A call that goes on to the next FETCH has stored the return address in a cell of memory, just above the StackTop it
leaves (46_call_ret R126, R128). -/
theorem call_completed (hs : s.Idle) (e : exec .call ⟨p, s⟩ = .next ⟨p, t⟩) (hc : t.ctrl = .fetch) :
    inMemory s.regs.stackTop = true ∧ t.regs.stackTop + 1 = s.regs.stackTop ∧
      t.mem = s.mem.write s.regs.stackTop (s.regs.pc + 2) := by
  rcases callSubroutine_cases s.regs.pc s.regs s.mem with ⟨h₁, hlow, inside⟩ | ⟨record, u, raises⟩
  · obtain rfl := exec_next_of_returns (i := .call) e hs (callSubroutine_returns _ h₁ hlow inside s.mem)
    exact ⟨inside, sub_add_cancel s.regs.stackTop 1, rfl⟩
  · obtain ⟨hf, -⟩ := exec_next_of_raises (i := .call) e hs raises
    simp [hc] at hf

end Execute

end Machine

open Machine

/-- Settles O22: by the outcome of the two checks, StackTop against `STACK_LOW` and then against memory. -/
theorem pushWritesThenDecrements : Obligations.PushWritesThenDecrements := by
  intro p s a v hs
  refine ⟨fun low => ?overflow, fun room outside => ?outside, fun room inside => ?stored⟩
  case overflow => exact (push_raises_overflow a v low s.mem).run hs
  case outside => exact (push_raises_oob a v room outside s.mem).run hs
  case stored =>
    obtain ⟨t, e, hregs, hmem, -⟩ := (push_returns a v room inside s.mem).run hs
    exact ⟨t, e, hregs, hmem⟩

/-- Settles O23: by the outcome of the two checks, StackTop against StackBottom and then the read above it. -/
theorem popIncrementsThenReads : Obligations.PopIncrementsThenReads := by
  intro p s a hs
  refine ⟨fun empty => ?underflow, fun filled outside => ?outside, fun filled inside => ?read⟩
  case underflow => exact (pop_raises_underflow a empty s.mem).run hs
  case outside => exact (pop_raises_oob a filled outside s.mem).run hs
  case read =>
    obtain ⟨t, e, hregs, hmem, -⟩ := (pop_returns a filled inside s.mem).run hs
    exact ⟨t, e, hregs, hmem⟩

/-- Settles O34: the target word is in memory and the push fits, so the microprogram returns. -/
theorem callResult : Obligations.CallResult := by
  intro p s t hs ht room inside
  obtain ⟨h₁, rfl⟩ := CoreState.peek_eq_some.1 ht
  exact exec_of_returns (i := .call) hs (callSubroutine_returns _ h₁ room inside s.mem)

/-- Settles O35: the pop finds a word, so the microprogram returns. -/
theorem retResult : Obligations.RetResult := fun _ _ => exec_ret

/-- Settles O48: after the operand word of call, every raise is one of the stack operation's, which starts with pc at
`a + 1` and raises before it writes. -/
theorem callAndRetFaultOrder : Obligations.CallAndRetFaultOrder := by
  intro p s hs a top
  refine ⟨fun outside => ?operandWord, fun h₁ low => ?overflow, fun h₁ room outside => ?pushOutside,
    fun empty => ?underflow, fun filled outside => ?popOutside⟩
  case operandWord => exact oneOperand_faults (i := .call) ⟨_, rfl⟩ hs (plainOperand_raises_of_peek outside)
  case overflow => exact call_faults_push hs h₁ (push_raises_overflow a _ (x := s.regs.set .pc (a + 1)) low s.mem)
  case pushOutside =>
    exact call_faults_push hs h₁ (push_raises_oob a _ (x := s.regs.set .pc (a + 1)) room outside s.mem)
  case underflow => exact ret_faults_pop hs (pop_raises_underflow a (x := s.regs.set .pc (a + 1)) empty s.mem)
  case popOutside => exact ret_faults_pop hs (pop_raises_oob a (x := s.regs.set .pc (a + 1)) filled outside s.mem)

/-- Settles O59: the cell above StackTop at the ret is the one the call wrote, and holds what the call wrote there. -/
theorem callThenRetReturns : Obligations.CallThenRetReturns := by
  intro p s t u hs hM call hc hu sameTop hne kept
  obtain ⟨inside, above, pushed⟩ := call_completed hs call hc
  have cell : u.regs.stackTop + 1 = s.regs.stackTop := by rw [sameTop, above]
  have returnAddress : u.mem.read s.regs.stackTop = s.regs.pc + 2 := by
    rw [kept, pushed, Memory.read_write_same (Memory.rising_of_wf hM)]
  have ret := exec_ret hu hne (cell ▸ inside)
  rw [cell, returnAddress] at ret
  exact ⟨_, ret, rfl, rfl, rfl, rfl, rfl⟩

end Sys2Proof
end

section
/-! Exceptions (spec/60_exceptions.md): executing an instruction always answers a next state, and a fault after the scratch
save keeps the save. -/

namespace Sys2Proof

namespace Machine

variable {p : Params}

/-! ## EXECUTE always answers -/

/-- EXECUTE ends in the next FETCH, or in FAULT where its microprogram raised (41_control_unit R101, 60_exceptions R134). -/
theorem CoreState.execute_ctrl (s : CoreState p) (f : p.Word → Micro p Unit) :
    (s.execute f).ctrl = .fetch ∨ ∃ r, (s.execute f).ctrl = .fault r := by
  cases h : f s.regs.pc s with
  | ok _ t => exact .inl (by simp only [CoreState.execute, h, CoreState.endInstruction_ctrl])
  | error r t =>
    exact .inr ⟨r, by simp only [CoreState.execute, h, CoreState.enterFault, CoreState.endInstruction_ctrl]⟩

/-! ## A raise after the scratch save -/

section Saved
variable {i : Instr} {a : p.Word} {x x' : RegFile p.wordBits} {M M' : Memory}

/-- A load whose memory source returns has no raise left (42_add_sub R106, R110; 43_move R114). -/
theorem load_returns_of_source (hi : i ∈ [.addMemReg, .subMemReg, .moveMemReg]) {v : p.Word} {d : RegName}
    (source : (memorySource a).Returns x M (v, d.index) (x.set .pc (x.pc + 2)) M') :
    ∃ x'' M'', (microprogram i p a).Returns x M () x'' M'' := by
  simp only [List.mem_cons, List.not_mem_nil, or_false] at hi
  rcases hi with rfl | rfl | rfl
  · exact ⟨_, _, arithmeticMemReg_returns .add a source⟩
  · exact ⟨_, _, arithmeticMemReg_returns .sub a source⟩
  · exact ⟨_, _, moveMemoryToRegister_returns a source⟩

/-- A store whose register source returned, with the data address in memory, has no raise left
(42_add_sub R107, R111; 43_move R115). -/
theorem store_returns_of_source (hi : i ∈ [.addRegMem, .subRegMem, .moveRegMem]) {u m : p.Word}
    (source : (registerSourceToMemory a).Returns x M u (x.set .pc m) M') (hcell : inMemory x.stackTop = true)
    (hm : inMemory m = true) : ∃ x'' M'', (microprogram i p a).Returns x M () x'' M'' := by
  simp only [List.mem_cons, List.not_mem_nil, or_false] at hi
  rcases hi with rfl | rfl | rfl
  · exact ⟨_, _, arithmeticRegMem_returns .add a source hcell hm⟩
  · exact ⟨_, _, arithmeticRegMem_returns .sub a source hcell hm⟩
  · exact ⟨_, _, moveRegisterToMemory_returns a source hcell hm⟩

/-- With the scratch cell in memory, the save comes before everything in a load that can raise. -/
theorem load_stops_saved (hi : i ∈ [.addMemReg, .subMemReg, .moveMemReg]) (hM : M.wf p = true)
    (hcell : inMemory x.stackTop = true) : (microprogram i p a).Ends x M (fun _ _ => True)
      (MovedPcOnly x (M.write x.stackTop (x.pc + 1)) (M.write x.stackTop (x.pc + 1))) := by
  rcases memorySource_cases a hM x with ⟨d, -, -, -, -, -, source⟩ | ⟨r, u, M', raises, saved⟩
  · obtain ⟨x'', M'', returns⟩ := load_returns_of_source hi source
    exact .inl ⟨x'', M'', returns, trivial⟩
  · obtain ⟨rest, start⟩ := load_start hi a
    have stored := saved.resolve_left fun ⟨outside, _⟩ => by simp [hcell] at outside
    exact .inr ⟨r, _, M', start ▸ .left raises, ⟨u, rfl⟩, .inl stored⟩

/-- With the register operand good and the scratch cell in memory, a store can raise only after its save. -/
theorem store_stops_saved (hi : i ∈ [.addRegMem, .subRegMem, .moveRegMem]) {src : RegName}
    (h₁ : inMemory (x.pc + 1) = true) (hsrc : M.read (x.pc + 1) = src.index) (hcell : inMemory x.stackTop = true) :
    (microprogram i p a).Ends x M (fun _ _ => True)
      (MovedPcOnly x (M.write x.stackTop (x.pc + 2)) (M.write x.stackTop (x.pc + 2))) := by
  rcases registerSourceToMemory_cases a x M with ⟨_, -, -, -, -, source⟩ | ⟨r, u, M', raises, saved⟩
  · cases hm : inMemory ((M.write x.stackTop (x.pc + 2)).read (x.pc + 2)) with
    | true =>
      obtain ⟨x'', M'', returns⟩ := store_returns_of_source hi source hcell hm
      exact .inl ⟨x'', M'', returns, trivial⟩
    | false => exact .inr ⟨_, _, _, store_raises_data hi source hm, ⟨_, rfl⟩, .inl rfl⟩
  · obtain ⟨rest, start⟩ := store_start hi a
    have stored := saved.resolve_left fun ⟨unsaved, _⟩ =>
      unsaved.elim (fun outside => by simp [hcell] at outside) fun bad => bad src h₁ hsrc
    exact .inr ⟨r, _, M', start ▸ .left raises, ⟨u, rfl⟩, .inl stored⟩

/-- What a raise after a save leaves: the saved word in its cell, and every register but pc. -/
theorem MovedPcOnly.saved {c v : p.Word} (h : MovedPcOnly x (M.write c v) (M.write c v) x' M') (hM : M.Rising) :
    M' = M.write c v ∧ M'.read c = v ∧ ∀ q, q ≠ .pc → x'.get q = x.get q := by
  have stored : M' = M.write c v := h.2.elim id id
  exact ⟨stored, by rw [stored, Memory.read_write_same hM], fun _ => h.get⟩

end Saved

end Machine

open Machine

/-- Settles O11: every instruction is EXECUTE of its microprogram, which returns or raises. -/
theorem executionAlwaysAnswersNext : Obligations.ExecutionAlwaysAnswersNext :=
  fun p i s => ⟨_, exec_eq_execute i ⟨p, s⟩, s.execute_ctrl (microprogram i p)⟩

/-- Settles O49: every raise that these premises leave comes after the scratch save, which is the one store before it. -/
theorem faultKeepsEarlierWrites : Obligations.FaultKeepsEarlierWrites := by
  intro p i s t r hs hM hcell e hc
  have rising := Memory.rising_of_wf hM
  refine ⟨fun hi => ?load, fun src hi hsrc => ?store⟩
  case load => exact (exec_stopped (load_stops_saved hi hM hcell) hs e hc).saved rising
  case store =>
    obtain ⟨h₁, hsrc⟩ := CoreState.peek_eq_some.1 hsrc
    exact (exec_stopped (store_stops_saved hi h₁ hsrc hcell) hs e hc).saved rising

end Sys2Proof
end

section
/-! Reset and loading (spec/70_reset_and_hazards.md): the memory that an image's pairs leave, the image that is refused, and
the invariant of the loaded state. -/

namespace Sys2Proof

namespace Machine

variable {p : Params}

/-! ## The pairs before the sentinel -/

section Pairs
variable {w : Nat} {sentinel addr : Word w} {rest : List (Word w × Word w)}

/-- Pairs with no sentinel among them are all the image's, whatever follows. -/
theorem imagePairs_append {before : List (Word w × Word w)} (h : ∀ q ∈ before, q.2 ≠ sentinel) :
    imagePairs sentinel (before ++ rest) = before ++ imagePairs sentinel rest := by
  induction before with
  | nil => rfl
  | cons q before ih =>
    obtain ⟨hq, hbefore⟩ := List.forall_mem_cons.1 h
    rw [List.cons_append, imagePairs, if_neg hq, ih hbefore, List.cons_append]

theorem imagePairs_sentinel : imagePairs sentinel ((addr, sentinel) :: rest) = [] := by
  rw [imagePairs, if_pos rfl]

theorem imagePairs_cons_of_ne {v : Word w} (h : v ≠ sentinel) :
    imagePairs sentinel ((addr, v) :: rest) = (addr, v) :: imagePairs sentinel rest := by
  rw [imagePairs, if_neg h]

end Pairs

/-! ## Storing them -/

/-- The memory after every pair is written in order, with no check: what `loadPairs` leaves of pairs in memory
(`loadPairs_append`). -/
def Memory.writePairs (m : Memory) (pairs : List (p.Word × p.Word)) : Memory :=
  pairs.foldl (fun m q => m.write q.1 q.2) m

theorem loadPairs_cons_of_inMemory (m : Memory) {addr : p.Word} (h : inMemory addr = true) (v : p.Word)
    (rest : List (p.Word × p.Word)) : loadPairs m ((addr, v) :: rest) = loadPairs (m.write addr v) rest := by
  rw [loadPairs, if_pos h]

/-- The first pair outside memory ends the load, with its address. -/
theorem loadPairs_cons_of_outside (m : Memory) {addr : p.Word} (h : inMemory addr = false) (v : p.Word)
    (rest : List (p.Word × p.Word)) : loadPairs m ((addr, v) :: rest) = .error addr := by
  rw [loadPairs, if_neg (Bool.eq_false_iff.1 h)]

theorem loadPairs_append {before : List (p.Word × p.Word)} (h : ∀ q ∈ before, inMemory q.1 = true) (m : Memory)
    (rest : List (p.Word × p.Word)) : loadPairs m (before ++ rest) = loadPairs (m.writePairs before) rest := by
  induction before generalizing m with
  | nil => rfl
  | cons q before ih =>
    obtain ⟨hq, hbefore⟩ := List.forall_mem_cons.1 h
    rw [List.cons_append, loadPairs_cons_of_inMemory m hq, ih hbefore]
    rfl

/-- Storing pairs keeps the canonical form, since every one that is stored lies in memory. -/
theorem loadPairs_wf {pairs : List (p.Word × p.Word)} {m M : Memory} (hm : m.wf p = true)
    (h : loadPairs m pairs = .ok M) : M.wf p = true := by
  induction pairs generalizing m with
  | nil =>
    cases h
    exact hm
  | cons q pairs ih =>
    cases hq : inMemory q.1 with
    | true => exact ih (Memory.write_wf hm hq q.2) (by rwa [← loadPairs_cons_of_inMemory m hq])
    | false =>
      rw [loadPairs_cons_of_outside m hq] at h
      cases h

/-- A word holds the last value that the pairs give it, or what it held before them. -/
theorem Memory.read_writePairs {m : Memory} (hm : m.Rising) (pairs : List (p.Word × p.Word)) (addr : p.Word) :
    (m.writePairs pairs).read addr = ((pairs.reverse.find? fun q => q.1 == addr).map (·.2)).getD (m.read addr) := by
  induction pairs generalizing m with
  | nil => rfl
  | cons q pairs ih =>
    rw [List.reverse_cons, List.find?_append]
    refine (ih (Memory.write_rising hm q.1 q.2)).trans ?_
    cases pairs.reverse.find? fun q => q.1 == addr with
    | some later => rfl
    | none =>
      rw [Memory.read_write hm]
      by_cases hq : q.1 = addr
      · simp [hq]
      · simp [hq, Ne.symm hq]

/-! ## What a load answers -/

section Load
variable {image : Image p.wordBits}

theorem load_of_ok {m : Memory} (h : loadPairs (p := p) [] (imagePairs p.imageSentinel image.pairs) = .ok m) :
    load image = .loaded { CoreState.resetWith image.stackInit with mem := m } := by
  rw [load, h]

theorem load_of_error {addr : p.Word} (h : loadPairs [] (imagePairs p.imageSentinel image.pairs) = .error addr) :
    load image = .malformed .malformedProgramImage addr := by
  rw [load, h]

/-- A loaded state is the reset state with the memory that the image's pairs leave. -/
theorem loaded_of_load {s : CoreState p} (h : load image = .loaded s) :
    ∃ m, loadPairs (p := p) [] (imagePairs p.imageSentinel image.pairs) = .ok m ∧
      s = { CoreState.resetWith image.stackInit with mem := m } := by
  cases stored : loadPairs [] (imagePairs p.imageSentinel image.pairs) with
  | ok m =>
    rw [load_of_ok stored] at h
    cases h
    exact ⟨m, rfl, rfl⟩
  | error addr =>
    rw [load_of_error stored] at h
    cases h

end Load

/-- Canonical memory in the reset state gives an instruction boundary, in FETCH. -/
theorem resetWith_mem_inv (stackInit : p.Word) {m : Memory} (hm : m.wf p = true) :
    ({ CoreState.resetWith stackInit with mem := m } : CoreState p).Inv where
  memoryCanonical := hm
  interfaceIdle := (CoreState.resetWith_inv stackInit).interfaceIdle
  controlSound := trivial

end Machine

open Machine

/-- Settles O52: the pairs before the sentinel are all stored, from the memory with nothing listed. -/
theorem loadedImageMemory : Obligations.LoadedImageMemory := by
  intro p pairs rest addr₀ stackInit h
  have stored : loadPairs (p := p) [] (imagePairs p.imageSentinel (pairs ++ (addr₀, p.imageSentinel) :: rest)) =
      .ok (Memory.writePairs [] pairs) := by
    rw [imagePairs_append fun q hq => (h q hq).1, imagePairs_sentinel, loadPairs_append fun q hq => (h q hq).2]
    rfl
  refine ⟨_, load_of_ok stored, loadPairs_wf Memory.nil_wf stored, fun addr _ => ?_⟩
  rw [Memory.read_writePairs (Memory.rising_of_wf (p := p) Memory.nil_wf), Memory.read_nil]

/-- Settles O53: the pairs before it are stored, and the first one outside memory ends the load. -/
theorem malformedImageIsRefused : Obligations.MalformedImageIsRefused := by
  intro p before rest addr v stackInit h hv outside
  refine load_of_error ?_
  rw [imagePairs_append fun q hq => (h q hq).1, imagePairs_cons_of_ne hv, loadPairs_append fun q hq => (h q hq).2,
    loadPairs_cons_of_outside _ outside]

/-- Settles O55: a load that answers a state has stored only in memory, so what it leaves is canonical. -/
theorem invariantHoldsAfterLoad : Obligations.InvariantHoldsAfterLoad := by
  intro p image s h
  obtain ⟨m, stored, rfl⟩ := loaded_of_load h
  exact resetWith_mem_inv image.stackInit (loadPairs_wf Memory.nil_wf stored)

end Sys2Proof
end
